-- ==== Sys2Proof/Word.lean ====
section
/-! DEFINITION. The widths of the GRD core's registers and fields (00_scope.md R9, R10; 10_state.md). -/

namespace Sys2Proof

/-- One byte of the input stream (20_memory.md R60). -/
abbrev Byte := BitVec 8

/-- A 4-bit field: a remainder width `K[c]` (10_state.md R22) or a tag (R32). -/
abbrev Nibble := BitVec 4

/-- A 16-bit register, or one element of `OUT` (10_state.md R25, R27, R34). -/
abbrev Half := BitVec 16

/-- A 32-bit register: an accumulator, a header field, a block index (10_state.md R21, R27, R29). -/
abbrev Word := BitVec 32

end Sys2Proof
end

