-- ==== Sys2Proof/Config.lean ====
section
/-! DEFINITION. What an implementation fixes (00_scope.md R5) and the free values: constants without a
body, of which Lean can prove no value. -/

namespace Sys2Proof

/-- The two parameters of a run that 00_scope.md R5 leaves open: the 32-bit constant that opens every
block (92_eei_decisions.md D2) and the bit value that ends a unary prefix (D3). -/
structure Params where
  syncPattern : Word
  stopBit : Bool
  deriving DecidableEq, Repr

/-- `SYNC_PATTERN` of the machine at reset: OPEN (92_eei_decisions.md D2, 91_not_in_source.md N1), so it has
no body here. DESIGN CHOICE, assumption log 1. -/
opaque Config.syncPattern : Word

/-- What an entry of the frame buffer that nothing has written holds: `Config.frameEntry c i` is the
content of `FB[c][i]` (10_state.md R33: "Reset value: unspecified"). DESIGN CHOICE, assumption log 5. -/
opaque Config.frameEntry : Nat → Nat → Word

/-- `EXPECT mod 0`: "a remainder by zero has no value" (41_header.md R143). DESIGN CHOICE, assumption log 6. -/
opaque Config.remainderByZero : Word → Nat

/-- The parameters of the machine as it comes out of reset: the open pattern, and the default
`STOP_BIT = 1` of 92_eei_decisions.md D3 (UNVERIFIED, assumption log 13). -/
def Config.params : Params := { syncPattern := Config.syncPattern, stopBit := true }

end Sys2Proof
end

