-- ==== Sys2Proof/Syntax.lean ====
section
/-! DEFINITION. The fifteen operations of 30_encoding.md R91, with the fields that the stream gives each of
them, the sequencer state that selects them, and the header descriptor. -/

namespace Sys2Proof

/-- `PHASE`, the sequencer state: it plays the part of the opcode (10_state.md R24). -/
inductive Phase where
  | header
  | seekSkip
  | blockSync
  | blockIndex
  | blockGps
  | blockTag
  | frameK
  | frameDelta
  | frameEmit
  | blockEnd
  | done
  | fault
  deriving DecidableEq, Repr

/-- The numeric code of a sequencer state (the table of 10_state.md R24). -/
def Phase.code : Phase → Nat
  | .header => 0
  | .seekSkip => 1
  | .blockSync => 2
  | .blockIndex => 3
  | .blockGps => 4
  | .blockTag => 5
  | .frameK => 6
  | .frameDelta => 7
  | .frameEmit => 8
  | .blockEnd => 9
  | .done => 10
  | .fault => 11

/-- The ten fields of the container header, format H (30_encoding.md R93), which are also the ten
registers `H.*` (10_state.md R27). -/
structure Header where
  magic : Word
  version : Byte
  channels : Byte
  frameSize : Half
  blockSize : Half
  flags : Half
  sampleRate : Word
  total : Word
  seekSize : Half
  seekEntries : Half
  deriving DecidableEq, Repr

/-- One operation with its fields as they stand in the stream: one constructor for each row of
spec/opcode_table.json (30_encoding.md R91).

What the spec takes from a register (`K[CH]`, `H.SEEKENTRIES`, `CH`, `SPOS`) is no field here: the
meaning reads the register. -/
inductive Instr where
  /-- `RDBITS n` with the n-bit value `v` that the stream holds there (40_bitreader.md R121). -/
  | rdbits (n v : Nat)
  /-- `RDUNARY` with its count `q` of continue bits (40_bitreader.md R122). -/
  | rdunary (q : Nat)
  /-- `SKIPB n`: `n` bytes, not examined (40_bitreader.md R123). -/
  | skipb (n : Nat)
  /-- `HDR`, format H (41_header.md R141). -/
  | hdr (f : Header)
  /-- `SEEKSKIP`: `H.SEEKENTRIES` entries of format S, not examined (41_header.md R148). -/
  | seekskip
  /-- `BSYNC`, format Y: the 32 bits read (42_block.md R162). -/
  | bsync (p : Word)
  /-- `BIDX`, format I: the 32 bits read (42_block.md R163). -/
  | bidx (x : Word)
  /-- `GPS`, format G: latitude `a`, then longitude `o` (42_block.md R164). -/
  | gps (a : BitVec 25) (o : BitVec 26)
  /-- `TAG`, format T (42_block.md R165). -/
  | tag (g : Nibble)
  /-- `FRK`, format K (43_frame.md R181). -/
  | frk (k : Nibble)
  /-- `DELTA`, format D: quotient `q` and remainder `r` (43_frame.md R183). -/
  | delta (q r : Nat)
  /-- `ZDELTA`, no bits (43_frame.md R184). -/
  | zdelta
  /-- `EMIT`, no bits (44_emitter.md R202). -/
  | emit
  /-- `BEND`, no bits (45_sequencer.md R222). -/
  | bend
  /-- `HALT`, no bits (45_sequencer.md R223). -/
  | halt
  deriving DecidableEq, Repr

/-- An operation before its bits are read: what `PHASE` selects (45_sequencer.md R211), or the
bit-reader primitive that an element calls with its operand `n` (40_bitreader.md). -/
inductive Op where
  | rdbits (n : Nat)
  | rdunary
  | skipb (n : Nat)
  | hdr
  | seekskip
  | bsync
  | bidx
  | gps
  | tag
  | frk
  | delta
  | zdelta
  | emit
  | bend
  | halt
  deriving DecidableEq, Repr

/-- The operation that an instruction is an occurrence of. -/
def Instr.op : Instr → Op
  | .rdbits n _ => .rdbits n
  | .rdunary _ => .rdunary
  | .skipb n => .skipb n
  | .hdr _ => .hdr
  | .seekskip => .seekskip
  | .bsync _ => .bsync
  | .bidx _ => .bidx
  | .gps _ _ => .gps
  | .tag _ => .tag
  | .frk _ => .frk
  | .delta _ _ => .delta
  | .zdelta => .zdelta
  | .emit => .emit
  | .bend => .bend
  | .halt => .halt

/-- The registers and the parameter, other than `PHASE`, on which the extent and the reading of an element
depend (30_encoding.md R90, R100): `STOP_BIT`, the width `K[CH]` and `H.SEEKENTRIES`. -/
structure Ctx where
  stopBit : Bool
  k : Nibble
  seekEntries : Half
  deriving DecidableEq, Repr

end Sys2Proof
end

