-- ==== Sys2Proof/WellFormed.lean ====
section
/-! DEFINITION. Which instructions the encodings of 30_encoding.md admit. -/

namespace Sys2Proof

/-- `RDBITS` stays inside its contract `0 <= n <= 32` (40_bitreader.md R121) and its value fits; a codeword's
width is one of 1..15 and its remainder fits it (30_encoding.md R99). Every other field is of a fixed width
and every value of it is an encoding. -/
def Instr.wellFormed (cx : Ctx) : Instr → Bool
  | .rdbits n v => decide (n ≤ 32) && decide (v < 2 ^ n)
  | .rdunary _ => true
  | .skipb _ => true
  | .hdr _ => true
  | .seekskip => true
  | .bsync _ => true
  | .bidx _ => true
  | .gps _ _ => true
  | .tag _ => true
  | .frk _ => true
  | .delta _ r => decide (cx.k ≠ 0#4) && decide (r < 2 ^ cx.k.toNat)
  | .zdelta => true
  | .emit => true
  | .bend => true
  | .halt => true

end Sys2Proof
end

