-- ==== Sys2Proof/Decode.lean ====
section
/-! DEFINITION. From the bits of the stream to an instruction and back (30_encoding.md).

A decoder for this hardware "is therefore a function of (`PHASE`, registers, bits at `POS`), not of the
bits alone" (R90): `select` is the part that reads no bit, `decode` the part that reads the fields. The bits
of an element are given as a function of the offset from the element's first bit. -/

namespace Sys2Proof

/-- The header's magic as a little-endian integer: bytes 57 41 61 63, "WAac" (41_header.md R142). That the four
characters are ASCII is UNVERIFIED: the spec gives the bytes and says that its source does not
(93_implementation_defined.md G1; assumption log 7). -/
def headerMagic : Word := 0x63614157#32

/-- `MAX_VERSION` (00_scope.md R5). -/
def maxVersion : Nat := 4

/-- `MemRead(p, n)`: the n-bit field at bit `p`, first bit least significant (20_memory.md R63). -/
def memRead (bit : Nat → Bool) (p : Nat) : Nat → Nat
  | 0 => 0
  | n + 1 => memRead bit p n + (bit (p + n)).toNat * 2 ^ n

/-- The count of continue bits from bit `p` on: the least `j` with `bit (p + j) = stop`, looking at
`avail` bits at most, and `avail` when there is no stop bit among them (40_bitreader.md R122). -/
def unaryRun (stop : Bool) (bit : Nat → Bool) : Nat → Nat → Nat
  | _, 0 => 0
  | p, avail + 1 => if bit p = stop then 0 else unaryRun stop bit (p + 1) avail + 1

/-- What the decoder refuses, by name. -/
inductive Reject where
  /-- A field width outside the contract: `RDBITS` of more than 32 bits (40_bitreader.md R121), or a codeword
  of width 0 (43_frame.md R181: "0 is not a width of zero bits"). -/
  | widthOutsideContract
  deriving DecidableEq, Repr

/-- The element that a sequencer state selects, with `k = K[CH]` (45_sequencer.md R211). -/
def select (phase : Phase) (k : Nibble) : Op :=
  match phase with
  | .header => .hdr
  | .seekSkip => .seekskip
  | .blockSync => .bsync
  | .blockIndex => .bidx
  | .blockGps => .gps
  | .blockTag => .tag
  | .frameK => .frk
  | .frameDelta => if k = 0#4 then .zdelta else .delta
  | .frameEmit => .emit
  | .blockEnd => .bend
  | .done => .halt
  | .fault => .halt

/-- The ten fields of format H at the bit offsets of 30_encoding.md R93. -/
def decodeHeader (bit : Nat → Bool) : Header where
  magic := BitVec.ofNat 32 (memRead bit 0 32)
  version := BitVec.ofNat 8 (memRead bit 32 8)
  channels := BitVec.ofNat 8 (memRead bit 40 8)
  frameSize := BitVec.ofNat 16 (memRead bit 48 16)
  blockSize := BitVec.ofNat 16 (memRead bit 64 16)
  flags := BitVec.ofNat 16 (memRead bit 80 16)
  sampleRate := BitVec.ofNat 32 (memRead bit 96 32)
  total := BitVec.ofNat 32 (memRead bit 128 32)
  seekSize := BitVec.ofNat 16 (memRead bit 160 16)
  seekEntries := BitVec.ofNat 16 (memRead bit 176 16)

/-- Reads the fields of the operation `op` from the bits of the stream, of which `avail` are left.

Total: where the stream is too short for the element the fields that lie beyond its end mean nothing, and
the meaning, which checks the element's extent before anything else, raises TruncatedStreamError without
using them (assumption log 3). -/
def decode (cx : Ctx) (op : Op) (bit : Nat → Bool) (avail : Nat) : Except Reject Instr :=
  match op with
  | .rdbits n =>
    if n ≤ 32 then .ok (.rdbits n (memRead bit 0 n)) else .error .widthOutsideContract
  | .rdunary => .ok (.rdunary (unaryRun cx.stopBit bit 0 avail))
  | .skipb n => .ok (.skipb n)
  | .hdr => .ok (.hdr (decodeHeader bit))
  | .seekskip => .ok .seekskip
  | .bsync => .ok (.bsync (BitVec.ofNat 32 (memRead bit 0 32)))
  | .bidx => .ok (.bidx (BitVec.ofNat 32 (memRead bit 0 32)))
  | .gps => .ok (.gps (BitVec.ofNat 25 (memRead bit 0 25)) (BitVec.ofNat 26 (memRead bit 25 26)))
  | .tag => .ok (.tag (BitVec.ofNat 4 (memRead bit 0 4)))
  | .frk => .ok (.frk (BitVec.ofNat 4 (memRead bit 0 4)))
  | .delta =>
    if cx.k = 0#4 then .error .widthOutsideContract
    else
      let q := unaryRun cx.stopBit bit 0 avail
      .ok (.delta q (memRead bit (q + 1) cx.k.toNat))
  | .zdelta => .ok .zdelta
  | .emit => .ok .emit
  | .bend => .ok .bend
  | .halt => .ok .halt

/-- The bits of an n-bit field in stream order, least significant first (30_encoding.md R92). -/
def fieldBits (n v : Nat) : List Bool := (List.range n).map v.testBit

/-- A unary prefix: `q` continue bits and the stop bit (30_encoding.md R99). -/
def unaryBits (stop : Bool) (q : Nat) : List Bool := List.replicate q (!stop) ++ [stop]

/-- Format H in stream order (30_encoding.md R93). -/
def headerBits (f : Header) : List Bool :=
  fieldBits 32 f.magic.toNat ++ fieldBits 8 f.version.toNat ++ fieldBits 8 f.channels.toNat
    ++ fieldBits 16 f.frameSize.toNat ++ fieldBits 16 f.blockSize.toNat ++ fieldBits 16 f.flags.toNat
    ++ fieldBits 32 f.sampleRate.toNat ++ fieldBits 32 f.total.toNat
    ++ fieldBits 16 f.seekSize.toNat ++ fieldBits 16 f.seekEntries.toNat

/-- The stream bits of an instruction (30_encoding.md R93 to R99; the lines of the assembler notation,
R104). The bits that `SKIPB` and `SEEKSKIP` pass over may be anything; zeros are written. -/
def encode (cx : Ctx) : Instr → List Bool
  | .rdbits n v => fieldBits n v
  | .rdunary q => unaryBits cx.stopBit q
  | .skipb n => List.replicate (8 * n) false
  | .hdr f => headerBits f
  | .seekskip => List.replicate (32 * cx.seekEntries.toNat) false
  | .bsync p => fieldBits 32 p.toNat
  | .bidx x => fieldBits 32 x.toNat
  | .gps a o => fieldBits 25 a.toNat ++ fieldBits 26 o.toNat
  | .tag g => fieldBits 4 g.toNat
  | .frk k => fieldBits 4 k.toNat
  | .delta q r => unaryBits cx.stopBit q ++ fieldBits cx.k.toNat r
  | .zdelta => []
  | .emit => []
  | .bend => []
  | .halt => []

/-- The length of an element in stream bits (30_encoding.md R91, R100). -/
def Instr.length (cx : Ctx) : Instr → Nat
  | .rdbits n _ => n
  | .rdunary q => q + 1
  | .skipb n => 8 * n
  | .hdr _ => 192
  | .seekskip => 32 * cx.seekEntries.toNat
  | .bsync _ => 32
  | .bidx _ => 32
  | .gps _ _ => 51
  | .tag _ => 4
  | .frk _ => 4
  | .delta q _ => q + 1 + cx.k.toNat
  | .zdelta => 0
  | .emit => 0
  | .bend => 0
  | .halt => 0

/-- A list of bits as the decoder reads it; beyond its end the bits are 0. -/
def bitsOf (l : List Bool) (j : Nat) : Bool := l.getD j false

/-- Bit `j` of a word of the opcode table: bit 0 is the first bit consumed, and every bit above `nbits`
is 0. -/
def tableBit (nbits w j : Nat) : Bool := decide (j < nbits) && w.testBit j

/-- Which sequencer state a word of the opcode table belongs to. The stream carries no opcode
(30_encoding.md R90), so the bits decide only where they hold the header's magic; beyond that the row's
length in whole bytes is the header's (192) or the GPS fix's (51 bits, 7 bytes), which no other row has. Where
neither decides, the table's row cannot be told from its bits (assumption log 11). -/
def tablePhase (nbits w : Nat) : Option Phase :=
  if BitVec.ofNat 32 (memRead (tableBit nbits w) 0 32) = headerMagic ∨ nbits = 192 then some .header
  else if nbits = 56 then some .blockGps
  else none

/-- The decoding parameters that a word of the table is read with: they matter to no element that
`tablePhase` names. -/
def tableCtx : Ctx := { stopBit := true, k := 0, seekEntries := 0 }

/-- The instruction that the decoder reads from a word of spec/opcode_table.json. -/
def decodeTableWord (nbits w : Nat) : Option Instr :=
  match tablePhase nbits w with
  | none => none
  | some ph =>
    match decode tableCtx (select ph 0) (tableBit nbits w) 192 with
    | .ok i => some i
    | .error _ => none

end Sys2Proof
end

