-- ==== Sys2Proof/Machine/State.lean ====
section
/-! DEFINITION. The architectural state of the GRD core, as plain data (10_state.md R20), the reasons a step can
stop, and the state after reset (10_state.md R37). -/

namespace Sys2Proof

/-- A header descriptor of zeros: what the ten registers hold at reset, where the spec gives "none"
(10_state.md R37; DESIGN CHOICE, assumption log 2). -/
def Header.zero : Header where
  magic := 0#32
  version := 0#8
  channels := 0#8
  frameSize := 0#16
  blockSize := 0#16
  flags := 0#16
  sampleRate := 0#32
  total := 0#32
  seekSize := 0#16
  seekEntries := 0#16

end Sys2Proof

namespace Sys2Proof.Machine

/-- The input stream space `IN` with its length `N` in bytes (20_memory.md R60, R61).

`cells` lists the bytes that are not 0, addresses strictly rising and below `size`; a byte below `size`
that is not listed is 0 (assumption log 4). There is no byte at `size` or above. -/
structure Memory where
  cells : List Host.Cell
  size : Nat
  deriving DecidableEq, Repr

/-- One record of the side channel `SIDE` (10_state.md R35). -/
inductive SideRec where
  /-- `GPSREC(blk, lat, lon)`. -/
  | gps (blk : Word) (lat lon : Int)
  /-- `TAGREC(blk, tag)`. -/
  | tag (blk : Word) (tag : Nibble)
  deriving DecidableEq, Repr

/-- A channel, `c` in {0, 1}: the machine has two accumulators, two widths and two frame buffers
(00_scope.md R5, `MAX_CHANNELS`). -/
inductive Chan where
  | c0
  | c1
  deriving DecidableEq, Repr

/-- Every piece of state of 10_state.md R20, and with it the parameters of a run that R7 and R20 keep apart
from the state (`params`, `inp`; DESIGN CHOICE, assumption log 12), which no step changes. `OUT_LEN` and `SIDE_LEN`
are the lengths of `out` and `side` (`State.outLen`, `State.sideLen`; DEDUCED, assumption log 15). -/
structure State where
  /-- `ACC[0]`, 32-bit two's complement (R21). -/
  acc0 : Word
  /-- `ACC[1]` (R21). -/
  acc1 : Word
  /-- `K[0]`, the remainder width of channel 0 (R22). -/
  k0 : Nibble
  /-- `K[1]` (R22). -/
  k1 : Nibble
  /-- `POS`, the bit cursor (R23). -/
  pos : Nat
  /-- `PHASE`, the sequencer state (R24). -/
  phase : Phase
  /-- `FRM`, the frame inside the block (R25). -/
  frm : Half
  /-- `SPOS`, the sample position inside the frame (R25). -/
  spos : Half
  /-- `CH`, the channel (R25). -/
  ch : BitVec 2
  /-- `ST.DONE` (R26). -/
  stDone : Bool
  /-- `ST.ERR` (R26). -/
  stErr : Bool
  /-- `ST.OVF` (R26). -/
  stOvf : Bool
  /-- `ST.UGPS` (R26). -/
  stUgps : Bool
  /-- `ST.UTAG` (R26). -/
  stUtag : Bool
  /-- `ST.UZERO` (R26). -/
  stUzero : Bool
  /-- `H.MAGIC` .. `H.SEEKENTRIES` (R27). -/
  h : Header
  /-- `H.VALID` (R27). -/
  hValid : Bool
  /-- `EXPECT`, the index the next block must carry (R29). -/
  expect : Word
  /-- `PRODUCED`, sample positions decoded so far (R30). -/
  produced : Nat
  /-- `ERR_CODE` (R31). -/
  errCode : BitVec 2
  /-- `ERR_SUB` (R31). -/
  errSub : BitVec 3
  /-- `ERR_BLOCK` (R31). -/
  errBlock : Word
  /-- `ERR_BIT` (R31). -/
  errBit : Nat
  /-- `ERR_BYTE` (R31). -/
  errByte : Nat
  /-- `GPS_LAT`, held sign-extended (R32). -/
  gpsLat : Int
  /-- `GPS_LON`, held sign-extended (R32). -/
  gpsLon : Int
  /-- `GPS_BLK` (R32). -/
  gpsBlk : Word
  /-- `GPS_V` (R32). -/
  gpsV : Bool
  /-- `TAG` (R32). -/
  tag : Nibble
  /-- `TAG_BLK` (R32). -/
  tagBlk : Word
  /-- `TAG_V` (R32). -/
  tagV : Bool
  /-- The written entries `(i, FB[0][i])` of channel 0's frame buffer, `i` strictly rising (R33). -/
  fb0 : List (Nat × Word)
  /-- The written entries of channel 1's frame buffer (R33). -/
  fb1 : List (Nat × Word)
  /-- `OUT`, in order (R34). -/
  out : List Half
  /-- `SIDE`, in order (R35). -/
  side : List SideRec
  /-- `SYNC_PATTERN` and `STOP_BIT`, parameters of the run (00_scope.md R5). -/
  params : Params
  /-- `IN` and `N`, the input stream of the run (20_memory.md R60, R61). -/
  inp : Memory
  deriving DecidableEq, Repr

/-- The reasons the machine stops with a fault of the MODEL. The faults of the spec (60_exceptions.md) are no such
stop: taking one is a next state, with `PHASE = FAULT`. -/
inductive Fault where
  /-- Raised by `FRK`, `DELTA` and `ZDELTA`, and by the selection in `FRAME_DELTA`, when `CH` is neither 0
  nor 1: there is no third accumulator, width or buffer (10_state.md R21, R22, R33). Safe: no state that a run
  reaches has such a `CH` in those phases. -/
  | noSuchChannel
  deriving DecidableEq, Repr

/-- The reasons the model has no meaning for an instruction. -/
inductive Refusal where
  /-- Raised by an arm of `exec` whose instruction has no meaning yet. Safe. -/
  | notModelled (mnemonic : String)
  /-- Raised by `RDBITS n` with `n > 32`, which "is outside the contract, no element asks for it, and a
  model refuses it" (40_bitreader.md R121), and by `DELTA` with `K[CH] = 0`, where 43_frame.md R183 requires
  `1 <= k <= 15`. Safe: no step of a run does either. -/
  | widthOutsideContract
  deriving DecidableEq, Repr

/-- The stream of no bytes: nothing has been presented to the machine yet. -/
def Memory.empty : Memory := { cells := [], size := 0 }

/-- The machine right after reset (10_state.md R37; 70_reset_and_hazards.md R281), with no stream presented and the
parameters of `Config.params`. -/
def State.reset : State where
  acc0 := 0#32
  acc1 := 0#32
  k0 := 0#4
  k1 := 0#4
  pos := 0
  phase := .header
  frm := 0#16
  spos := 0#16
  ch := 0#2
  stDone := false
  stErr := false
  stOvf := false
  stUgps := false
  stUtag := false
  stUzero := false
  h := Header.zero
  hValid := false
  expect := 0#32
  produced := 0
  errCode := 0#2
  errSub := 0#3
  errBlock := 0#32
  errBit := 0
  errByte := 0
  gpsLat := 0
  gpsLon := 0
  gpsBlk := 0#32
  gpsV := false
  tag := 0#4
  tagBlk := 0#32
  tagV := false
  fb0 := []
  fb1 := []
  out := []
  side := []
  params := Config.params
  inp := Memory.empty

end Sys2Proof.Machine
end

