-- ==== Sys2Proof/Machine/Operands.lean ====
section
/-! DEFINITION. The arithmetic of the elements' operands: sign extension, wrap, magnitude and zigzag, the lossy
rescale, the fields of `H.FLAGS`, the GPS cadence. -/

namespace Sys2Proof

/-- `LOSSY = H.FLAGS[3:0]` (10_state.md R28). -/
def Header.lossy (h : Header) : Nat := h.flags.toNat % 16

/-- `TRIG = H.FLAGS[4]`; nothing reads it (10_state.md R28, 41_header.md R147). -/
def Header.trig (h : Header) : Bool := h.flags.toNat.testBit 4

/-- `GPSP = H.FLAGS[5]` (10_state.md R28). -/
def Header.gpsp (h : Header) : Bool := h.flags.toNat.testBit 5

/-- `TAGP = H.FLAGS[6]` (10_state.md R28). -/
def Header.tagp (h : Header) : Bool := h.flags.toNat.testBit 6

end Sys2Proof

namespace Sys2Proof.Machine

/-- `sext_N(v)` for an N-bit pattern `v` (00_scope.md R10). -/
def sext (n v : Nat) : Int := if v < 2 ^ (n - 1) then (v : Int) else (v : Int) - 2 ^ n

/-- `smod_32(z)`: two's-complement wrap to 32 bits, as a register's pattern (00_scope.md R10). -/
def wrap32 (z : Int) : Word := BitVec.ofInt 32 z

/-- The low 16 bits of an integer (44_emitter.md R201). -/
def wrap16 (z : Int) : Half := BitVec.ofInt 16 z

/-- The magnitude of a codeword, `q * 2^k + r` (43_frame.md R182). -/
def magnitude (q k r : Nat) : Nat := q * 2 ^ k + r

/-- The zigzag mapping from magnitude to signed delta (43_frame.md R182). -/
def zigzag (m : Nat) : Int := if m % 2 = 0 then ((m / 2 : Nat) : Int) else -(((m + 1) / 2 : Nat) : Int)

/-- The magnitude that carries a signed delta (43_frame.md R182, 30_encoding.md R105). -/
def unzigzag (d : Int) : Nat := if 0 ≤ d then (2 * d).toNat else (-2 * d - 1).toNat

/-- `EXPECT mod H.SEEKSIZE`; a free value when the divisor is 0, which an accepted header with `GPSP = 1`
excludes (41_header.md R143; assumption log 6). -/
def cadence (h : Header) (expect : Word) : Nat :=
  if h.seekSize = 0#16 then Config.remainderByZero expect else expect.toNat % h.seekSize.toNat

/-- Whether the block of index `expect` carries a GPS fix (42_block.md R166). -/
def gpsDue (h : Header) (expect : Word) : Bool := h.gpsp && decide (cadence h expect = 0)

/-- `FB[c][i] * 2^LOSSY`, exact (44_emitter.md R201). -/
def rescale (lossy : Nat) (a : Word) : Int := a.toInt * 2 ^ lossy

end Sys2Proof.Machine
end

