-- ==== Sys2Proof/Machine/Flags.lean ====
section
/-! DEFINITION. When the status flags are set (10_state.md R26). No flag is cleared by any rule but reset. -/

namespace Sys2Proof.Machine

/-- `ST.OVF` of `DELTA`: the exact sum leaves the 32-bit signed range (43_frame.md R183). -/
def sumOverflows (z : Int) : Bool := decide (z < -2147483648 ∨ 2147483647 < z)

/-- `ST.OVF` of `EMIT`: an emitted value leaves the 16-bit signed range (44_emitter.md R201, R202). -/
def sampleOverflows (z : Int) : Bool := decide (z < -32768 ∨ 32767 < z)

/-- `ST.UZERO` of `FRK`: the nibble marks a zero frame (43_frame.md R181). -/
def marksZeroFrame (k : Nibble) : Bool := decide (k = 0#4)

end Sys2Proof.Machine
end

