-- ==== Sys2Proof/Machine/Ops.lean ====
section
/-! DEFINITION. The named operations over the stream, the registers, the frame buffer and the output spaces;
taking a fault (60_exceptions.md R250); reset (70_reset_and_hazards.md R281). -/

namespace Sys2Proof.Machine

/-- What one step or one instruction answers. -/
abbrev Result := Host.Outcome State Fault Refusal

/-! ### The input stream space -/

/-- The byte that a list of cells holds at `a`: 0 where `a` is not listed. -/
def lookupCell (a : Nat) : List Host.Cell → Byte
  | [] => 0#8
  | (x, b) :: rest => if x = a then b else lookupCell a rest

/-- Puts the byte `b` at `a` and keeps the canonical form: no byte that is 0 is listed. -/
def insertCell (a : Nat) (b : Byte) : List Host.Cell → List Host.Cell
  | [] => if b = 0#8 then [] else [(a, b)]
  | (x, y) :: rest =>
    if a < x then (if b = 0#8 then (x, y) :: rest else (a, b) :: (x, y) :: rest)
    else if a = x then (if b = 0#8 then rest else (a, b) :: rest)
    else (x, y) :: insertCell a b rest

/-- Addresses strictly rising from `lo` on and below `size`, and no byte that is 0. -/
def cellsRise (size : Nat) : Nat → List Host.Cell → Bool
  | _, [] => true
  | lo, (a, b) :: rest =>
    decide (lo ≤ a) && decide (a < size) && decide (b ≠ 0#8) && cellsRise size (a + 1) rest

/-- The one canonical form of the stream: equal streams are equal data. -/
def Memory.wf (m : Memory) : Bool := cellsRise m.size 0 m.cells

/-- `IN[a]` (00_scope.md R11). -/
def Memory.byte (m : Memory) (a : Nat) : Byte := lookupCell a m.cells

/-- `bit(i)`: bits leave a byte from its least significant end (20_memory.md R62). -/
def Memory.bit (m : Memory) (i : Nat) : Bool := (m.byte (i / 8)).toNat.testBit (i % 8)

/-- The bit length `8N` of the stream (20_memory.md R69). -/
def Memory.bitLength (m : Memory) : Nat := 8 * m.size

/-- The HOST's store of one byte of a stream that it presents; a byte at or beyond the end lengthens the
stream. No element writes `IN` (20_memory.md R60). -/
def Memory.put (m : Memory) (a : Nat) (b : Byte) : Memory where
  cells := insertCell a b m.cells
  size := max m.size (a + 1)

/-- The byte whose bits are `bit 0 .. bit 7`, least significant first. -/
def packByte (bit : Nat → Bool) : Byte := BitVec.ofNat 8 (memRead bit 0 8)

/-- The HOST's store of the `n` bits `bit 0 .. bit (n-1)` at bit address `p` of a stream that it presents,
byte by byte; the other bits of the bytes it touches stay. -/
def Memory.place (m : Memory) (p n : Nat) (bit : Nat → Bool) : Memory :=
  (List.range' (p / 8) ((p + n + 7) / 8 - p / 8)).foldl
    (fun acc a => acc.put a (packByte fun i =>
      let j := 8 * a + i
      if p ≤ j ∧ j < p + n then bit (j - p) else m.bit j)) m

/-- The stream of the given bytes (20_memory.md R61). -/
def Memory.ofBytes (bytes : List Byte) : Memory :=
  bytes.zipIdx.foldl (fun m ba => m.put ba.2 ba.1) Memory.empty

/-! ### The frame buffer -/

/-- The content of entry `i` in a channel's list of written entries. -/
def lookupEntry (i : Nat) : List (Nat × Word) → Option Word
  | [] => none
  | (x, v) :: rest => if x = i then some v else lookupEntry i rest

/-- Writes entry `i`, keeping the indices strictly rising. -/
def insertEntry (i : Nat) (v : Word) : List (Nat × Word) → List (Nat × Word)
  | [] => [(i, v)]
  | (x, y) :: rest =>
    if i < x then (i, v) :: (x, y) :: rest
    else if i = x then (i, v) :: rest
    else (x, y) :: insertEntry i v rest

/-- The indices rise strictly from `lo` on. -/
def entriesRise : Nat → List (Nat × Word) → Bool
  | _, [] => true
  | lo, (i, _) :: rest => decide (lo ≤ i) && entriesRise (i + 1) rest

/-- Channel `c`'s list of written entries; a channel that does not exist has none. -/
def State.fbEntries (s : State) : Nat → List (Nat × Word)
  | 0 => s.fb0
  | 1 => s.fb1
  | _ => []

/-- `FB[c][i]`: what was last written there, and the free value where nothing was (10_state.md R33;
assumption log 5). -/
def State.readFb (s : State) (c i : Nat) : Word :=
  (lookupEntry i (s.fbEntries c)).getD (Config.frameEntry c i)

/-! ### The registers -/

/-- `ACC[c]` (10_state.md R21). -/
def State.acc (s : State) : Chan → Word
  | .c0 => s.acc0
  | .c1 => s.acc1

/-- `K[c]` (10_state.md R22). -/
def State.k (s : State) : Chan → Nibble
  | .c0 => s.k0
  | .c1 => s.k1

/-- The channel that `CH` names (10_state.md R25). -/
def State.chan (s : State) : Option Chan :=
  if s.ch = 0#2 then some .c0 else if s.ch = 1#2 then some .c1 else none

/-- `OUT_LEN` (10_state.md R34). -/
def State.outLen (s : State) : Nat := s.out.length

/-- `SIDE_LEN` (10_state.md R35). -/
def State.sideLen (s : State) : Nat := s.side.length

/-- `ACC[c] <- v`. -/
def State.setAcc (s : State) (c : Chan) (v : Word) : State :=
  { s with acc0 := if c = .c0 then v else s.acc0, acc1 := if c = .c1 then v else s.acc1 }

/-- `K[c] <- v`. -/
def State.setK (s : State) (c : Chan) (v : Nibble) : State :=
  { s with k0 := if c = .c0 then v else s.k0, k1 := if c = .c1 then v else s.k1 }

/-- `FB[c][SPOS] <- v` (10_state.md R33). -/
def State.writeFb (s : State) (c : Chan) (v : Word) : State :=
  { s with
    fb0 := if c = .c0 then insertEntry s.spos.toNat v s.fb0 else s.fb0
    fb1 := if c = .c1 then insertEntry s.spos.toNat v s.fb1 else s.fb1 }

/-- `if b: ST.OVF <- 1`; the flag is sticky (10_state.md R26). -/
def State.noteOvf (s : State) (b : Bool) : State := { s with stOvf := s.stOvf || b }

/-- `PHASE <- ph`. -/
def State.goto (s : State) (ph : Phase) : State := { s with phase := ph }

/-! ### The bit reader's cursor -/

/-- The element needs a bit at or beyond bit address `8N` (20_memory.md R69; 40_bitreader.md R121 to R123). -/
def State.lacks (s : State) (n : Nat) : Bool := decide (s.inp.bitLength < s.pos + n)

/-- `POS <- POS + n` (40_bitreader.md R121 to R123). -/
def State.advance (s : State) (n : Nat) : State := { s with pos := s.pos + n }

/-! ### Taking a fault -/

/-- The causes of 60_exceptions.md R241. -/
inductive Cause where
  | badMagic
  | badVersion
  | badChannels
  | badSeekSize
  | badPattern
  | badIndex
  | eos
  deriving DecidableEq, Repr

/-- `ERR_CODE`: 1 FormatError, 2 SyncError, 3 TruncatedStreamError (60_exceptions.md R241). -/
def Cause.code : Cause → BitVec 2
  | .badMagic => 1#2
  | .badVersion => 1#2
  | .badChannels => 1#2
  | .badSeekSize => 1#2
  | .badPattern => 2#2
  | .badIndex => 2#2
  | .eos => 3#2

/-- `ERR_SUB` (60_exceptions.md R241). -/
def Cause.sub : Cause → BitVec 3
  | .badMagic => 1#3
  | .badVersion => 2#3
  | .badChannels => 3#3
  | .badSeekSize => 4#3
  | .badPattern => 1#3
  | .badIndex => 2#3
  | .eos => 1#3

/-- Trap entry (60_exceptions.md R250), from the state `s` in which the element began: so every assignment
of the element is discarded and `POS` is the element's first bit.

There is no return from a fault (60_exceptions.md R253); the only way out is reset, `State.restart`. -/
def State.takeFault (s : State) (c : Cause) : State :=
  { s with
    errCode := c.code
    errSub := c.sub
    errBlock := s.expect
    errBit := s.pos
    errByte := s.pos / 8
    stErr := true
    phase := .fault }

/-- Reset of a running or stopped machine: every piece of state takes its reset value, and decoding starts at
bit 0 of the stream that is presented (70_reset_and_hazards.md R280, R281, R283; DESIGN CHOICE, assumption log 18). -/
def State.restart (s : State) : State := { State.reset with params := s.params, inp := s.inp }

/-- The start of a run: reset, with the host's parameters and stream in place (70_reset_and_hazards.md R284). -/
def State.start (params : Params) (stream : Memory) : State :=
  { State.reset with params := params, inp := stream }

end Sys2Proof.Machine
end

