-- ==== Sys2Proof/Machine/Sequencer.lean ====
section
/-! DEFINITION. The successor rules of the sequencer, and the two operations that read no bits and belong to no
element (45_sequencer.md). -/

namespace Sys2Proof.Machine

/-- Enter the frames of a block (45_sequencer.md R218). -/
def State.enterFrames (s : State) : State :=
  if s.h.blockSize = 0#16 then { s with frm := 0#16, phase := .blockEnd }
  else { s with frm := 0#16, ch := 0#2, phase := .frameK }

/-- After `SEEKSKIP` (45_sequencer.md R214). -/
def State.afterSeekSkip (s : State) : State :=
  if s.h.total = 0#32 then { s with stDone := true, phase := .done } else s.goto .blockSync

/-- After `BIDX` (45_sequencer.md R216). -/
def State.afterBidx (s : State) : State :=
  if gpsDue s.h s.expect then s.goto .blockGps
  else if s.h.tagp then s.goto .blockTag
  else s.enterFrames

/-- After `GPS` (45_sequencer.md R217). -/
def State.afterGps (s : State) : State := if s.h.tagp then s.goto .blockTag else s.enterFrames

/-- After `FRK` (45_sequencer.md R219). The increments of `CH`, `SPOS` and `FRM` wrap at the registers' widths, in states
that no run reaches (DEDUCED, assumption log 14). -/
def State.afterFrk (s : State) : State :=
  let ch' := s.ch + 1#2
  if ch'.toNat < s.h.channels.toNat then { s with ch := ch' }
  else
    { s with
      ch := 0#2
      spos := 0#16
      phase := if s.h.frameSize = 0#16 then .frameEmit else .frameDelta }

/-- After `DELTA` or `ZDELTA` (45_sequencer.md R220). -/
def State.afterSlot (s : State) : State :=
  let ch' := s.ch + 1#2
  let spos' := s.spos + 1#16
  if ch'.toNat < s.h.channels.toNat then { s with ch := ch' }
  else if spos' < s.h.frameSize then { s with ch := 0#2, spos := spos' }
  else { s with ch := 0#2, spos := spos', phase := .frameEmit }

/-- After `EMIT` (45_sequencer.md R221). -/
def State.afterEmit (s : State) : State :=
  let frm' := s.frm + 1#16
  if frm' < s.h.blockSize then { s with frm := frm', ch := 0#2, phase := .frameK }
  else { s with frm := frm', phase := .blockEnd }

/-- `BEND`: close a block (45_sequencer.md R222). -/
def execBend (s : State) : Result :=
  let s' := { s with expect := s.expect + 1#32 }
  if s.h.total.toNat ≤ s.produced then .next { s' with stDone := true, phase := .done }
  else .next (s'.goto .blockSync)

/-- `HALT`: the non-operation of the terminal states; the machine changes nothing (45_sequencer.md R223;
assumption log 8). -/
def execHalt (s : State) : Result := .next s

end Sys2Proof.Machine
end

