-- ==== Sys2Proof/Machine/BitReader.lean ====
section
/-! DEFINITION. The three primitives of the bit reader (40_bitreader.md), performed on their own. The value that
`RDBITS` and `RDUNARY` return is the field that the decoder delivers with the instruction; the only state
they write is `POS` (R120; assumption log 9). -/

namespace Sys2Proof.Machine

/-- `RDBITS n` (40_bitreader.md R121). -/
def execRdbits (n : Nat) (s : State) : Result :=
  if 32 < n then .refused .widthOutsideContract
  else if s.lacks n then .next (s.takeFault .eos)
  else .next (s.advance n)

/-- `RDUNARY`, with `q` continue bits before the stop bit (40_bitreader.md R122). -/
def execRdunary (q : Nat) (s : State) : Result :=
  if s.lacks (q + 1) then .next (s.takeFault .eos) else .next (s.advance (q + 1))

/-- `SKIPB n` (40_bitreader.md R123). -/
def execSkipb (n : Nat) (s : State) : Result :=
  if s.lacks (8 * n) then .next (s.takeFault .eos) else .next (s.advance (8 * n))

end Sys2Proof.Machine
end

