-- ==== Sys2Proof/Machine/Block.lean ====
section
/-! DEFINITION. Block synchronization and the side channel (42_block.md). -/

namespace Sys2Proof.Machine

/-- `BSYNC` (42_block.md R162). -/
def execBsync (p : Word) (s : State) : Result :=
  if s.lacks 32 then .next (s.takeFault .eos)
  else if p ≠ s.params.syncPattern then .next (s.takeFault .badPattern)
  else .next ((s.advance 32).goto .blockIndex)

/-- `BIDX` (42_block.md R163). -/
def execBidx (x : Word) (s : State) : Result :=
  if s.lacks 32 then .next (s.takeFault .eos)
  else if x ≠ s.expect then .next (s.takeFault .badIndex)
  else .next (s.advance 32).afterBidx

/-- Captures a GPS fix: registers, record and flag (42_block.md R164). -/
def State.captureGps (s : State) (lat lon : Int) : State :=
  { s with
    gpsLat := lat
    gpsLon := lon
    gpsBlk := s.expect
    gpsV := true
    side := s.side ++ [.gps s.expect lat lon]
    stUgps := true }

/-- Captures a tag: registers, record and flag (42_block.md R165). -/
def State.captureTag (s : State) (g : Nibble) : State :=
  { s with
    tag := g
    tagBlk := s.expect
    tagV := true
    side := s.side ++ [.tag s.expect g]
    stUtag := true }

/-- `GPS` (42_block.md R164). -/
def execGps (a : BitVec 25) (o : BitVec 26) (s : State) : Result :=
  if s.lacks 51 then .next (s.takeFault .eos)
  else .next ((s.advance 51).captureGps (sext 25 a.toNat) (sext 26 o.toNat)).afterGps

/-- `TAG` (42_block.md R165). -/
def execTag (g : Nibble) (s : State) : Result :=
  if s.lacks 4 then .next (s.takeFault .eos)
  else .next ((s.advance 4).captureTag g).enterFrames

end Sys2Proof.Machine
end

