-- ==== Sys2Proof/Machine/Emitter.lean ====
section
/-! DEFINITION. Sample reconstruction and emission (44_emitter.md). -/

namespace Sys2Proof.Machine

/-- The exact values that `EMIT` appends, in order: positions in order, those at or beyond `H.TOTAL`
dropped, and at each position the channels in order (44_emitter.md R202, R203). -/
def State.emitted (s : State) : List Int :=
  ((List.range s.h.frameSize.toNat).filter fun i => decide (s.produced + i < s.h.total.toNat)).flatMap fun i =>
    (List.range s.h.channels.toNat).map fun c => rescale s.h.lossy (s.readFb c i)

/-- `EMIT` (44_emitter.md R202). -/
def execEmit (s : State) : Result :=
  let vs := s.emitted
  .next ({ s.noteOvf (vs.any sampleOverflows) with
    out := s.out ++ vs.map wrap16
    produced := s.produced + s.h.frameSize.toNat }).afterEmit

end Sys2Proof.Machine
end

