-- ==== Sys2Proof/Machine/Frame.lean ====
section
/-! DEFINITION. The frame decoder and the Golomb/Rice entropy decoder (43_frame.md). -/

namespace Sys2Proof.Machine

/-- `FRK` for the channel `CH` (43_frame.md R181). -/
def execFrk (k : Nibble) (s : State) : Result :=
  match s.chan with
  | none => .fault .noSuchChannel
  | some c =>
    if s.lacks 4 then .next (s.takeFault .eos)
    else .next ({ (s.advance 4).setK c k with stUzero := s.stUzero || marksZeroFrame k }).afterFrk

/-- `DELTA` for the channel `CH` and the position `SPOS`, with `k = K[CH]` (43_frame.md R183): the
accumulator and the frame buffer get the wrapped sum, `ST.OVF` says whether it wrapped. -/
def execDelta (q r : Nat) (s : State) : Result :=
  match s.chan with
  | none => .fault .noSuchChannel
  | some c =>
    let k := (s.k c).toNat
    if k = 0 then .refused .widthOutsideContract
    else if s.lacks (q + 1 + k) then .next (s.takeFault .eos)
    else
      let sum := (s.acc c).toInt + zigzag (magnitude q k r)
      .next ((((s.advance (q + 1 + k)).noteOvf (sumOverflows sum)).setAcc c (wrap32 sum)).writeFb c
        (wrap32 sum)).afterSlot

/-- `ZDELTA` for the channel `CH` and the position `SPOS`: the sample is the accumulator as it stands
(43_frame.md R184). -/
def execZdelta (s : State) : Result :=
  match s.chan with
  | none => .fault .noSuchChannel
  | some c => .next (s.writeFb c (s.acc c)).afterSlot

end Sys2Proof.Machine
end

