-- ==== Sys2Proof/Machine/HeaderUnit.lean ====
section
/-! DEFINITION. Header parsing and the seek-table skip (41_header.md). -/

namespace Sys2Proof.Machine

/-- The checks of `HDR` in their order (41_header.md R142, R143, R145): the first that fails. -/
def headerFault (f : Header) : Option Cause :=
  if f.magic ≠ headerMagic then some .badMagic
  else if maxVersion < f.version.toNat then some .badVersion
  else if f.channels ≠ 1#8 ∧ f.channels ≠ 2#8 then some .badChannels
  else if f.gpsp = true ∧ f.seekSize = 0#16 then some .badSeekSize
  else none

/-- `HDR` (41_header.md R141): the ten registers keep the bytes read also when a FormatError is raised;
when the stream is shorter than 24 bytes nothing is written. -/
def execHdr (f : Header) (s : State) : Result :=
  if s.lacks 192 then .next (s.takeFault .eos)
  else
    match headerFault f with
    | some c => .next ({ s with h := f }.takeFault c)
    | none => .next ({ s with h := f, hValid := true }.advance 192 |>.goto .seekSkip)

/-- `SEEKSKIP` (41_header.md R148): `SKIPB(4 * H.SEEKENTRIES)`. -/
def execSeekskip (s : State) : Result :=
  let n := 8 * (4 * s.h.seekEntries.toNat)
  if s.lacks n then .next (s.takeFault .eos) else .next (s.advance n).afterSeekSkip

end Sys2Proof.Machine
end

