-- ==== Sys2Proof/Machine/Dispatch.lean ====
section
/-! DEFINITION. One arm for each constructor of `Instr`. -/

namespace Sys2Proof.Machine

def exec (i : Instr) (s : State) : Host.Outcome State Fault Refusal :=
  match i with
  | .rdbits n _ => Sys2Proof.Machine.execRdbits n s
  | .rdunary q => Sys2Proof.Machine.execRdunary q s
  | .skipb n => Sys2Proof.Machine.execSkipb n s
  | .hdr f => Sys2Proof.Machine.execHdr f s
  | .seekskip => Sys2Proof.Machine.execSeekskip s
  | .bsync p => Sys2Proof.Machine.execBsync p s
  | .bidx x => Sys2Proof.Machine.execBidx x s
  | .gps a o => Sys2Proof.Machine.execGps a o s
  | .tag g => Sys2Proof.Machine.execTag g s
  | .frk k => Sys2Proof.Machine.execFrk k s
  | .delta q r => Sys2Proof.Machine.execDelta q r s
  | .zdelta => Sys2Proof.Machine.execZdelta s
  | .emit => Sys2Proof.Machine.execEmit s
  | .bend => Sys2Proof.Machine.execBend s
  | .halt => Sys2Proof.Machine.execHalt s

end Sys2Proof.Machine
end

