-- ==== Sys2Proof/Machine/Fetch.lean ====
section
/-! DEFINITION. Selecting the next element and reading its fields from the stream (45_sequencer.md R210, R211). -/

namespace Sys2Proof.Machine

/-- The width `K[CH]` with which the next element is selected and read. Outside `FRAME_DELTA` no element depends on
it, and 0 stands for a `CH` that names no channel. -/
def State.width (s : State) : Nibble :=
  match s.chan with
  | none => 0#4
  | some c => s.k c

/-- The registers and the parameter that the next element is read with (30_encoding.md R90). -/
def State.ctx (s : State) : Ctx where
  stopBit := s.params.stopBit
  k := s.width
  seekEntries := s.h.seekEntries

/-- The bits of the stream from `POS` on. -/
def State.bitsHere (s : State) (j : Nat) : Bool := s.inp.bit (s.pos + j)

/-- How many bits of the stream are left. -/
def State.bitsLeft (s : State) : Nat := s.inp.bitLength - s.pos

/-- The element that is performed next, with its fields: selected by `PHASE` and, in `FRAME_DELTA`, by
`K[CH]` (45_sequencer.md R211), read at `POS`. A `CH` that names no channel selects nothing. -/
def fetch (s : State) : Host.Outcome Instr Fault Refusal :=
  if s.phase = .frameDelta ∧ s.chan = none then .fault .noSuchChannel
  else
    match decode s.ctx (select s.phase s.width) s.bitsHere s.bitsLeft with
    | .ok i => .next i
    | .error .widthOutsideContract => .refused .widthOutsideContract

/-- The bits of a table word as they stand in the stream, and the sequencer state that selects its row: the stream
is lengthened, where it has to be, by the longest element of a fixed length (192 bits). -/
def State.holdWord (s : State) (nbits w : Nat) : State :=
  { s with
    phase := (tablePhase nbits w).getD s.phase
    inp := s.inp.place s.pos 192 (tableBit nbits w) }

end Sys2Proof.Machine
end

