-- ==== Sys2Proof/Machine/Step.lean ====
section
/-! DEFINITION. One step of the machine (45_sequencer.md R210). -/

namespace Sys2Proof.Machine

/-- One step: perform the element that is selected. Trap entry and the successor rule are part of the
element's meaning. -/
def step (s : State) : Host.Outcome State Fault Refusal :=
  match fetch s with
  | .next i => exec i s
  | .fault r => .fault r
  | .refused r => .refused r

/-- `s` with an instruction of the opcode table stored at `POS`, and `PHASE` at the state that selects its row
where the word tells it (`tablePhase`; assumption log 11). -/
def State.withFetchWord (s : State) (nbits w : Nat) : State := s.holdWord nbits w

end Sys2Proof.Machine
end

