-- ==== Sys2Proof/Safety.lean ====
section
/-! DEFINITION. What the claims call a good state, the end of a run, the parts of the state that the decoding does
not read, and the codewords of a frame. -/

namespace Sys2Proof.Machine

/-- `k` steps of the machine. -/
def runFrom (k : Nat) (s : State) : Result := Host.Core.run Sys2Proof.core k s

/-- The end of a run: `PHASE` in {`DONE`, `FAULT`} (45_sequencer.md R227). -/
def State.Terminal (s : State) : Prop := s.phase = .done ∨ s.phase = .fault

/-- A header that `HDR` accepts (41_header.md R142, R143). -/
def HeaderAccepted (h : Header) : Prop :=
  h.magic = 0x63614157#32 ∧ h.version.toNat ≤ 4 ∧ (h.channels = 1#8 ∨ h.channels = 2#8) ∧
    (h.gpsp = true → h.seekSize ≠ 0#16)

/-- A frame of the current block is being read, decoded or emitted. -/
def State.InFrame (s : State) : Prop :=
  s.phase = .frameK ∨ s.phase = .frameDelta ∨ s.phase = .frameEmit

/-- The head of a block is being read. -/
def State.InBlockHead (s : State) : Prop :=
  s.phase = .blockSync ∨ s.phase = .blockIndex ∨ s.phase = .blockGps ∨ s.phase = .blockTag

/-- `FB[c][i]` has been written. -/
def State.Written (s : State) (c i : Nat) : Prop := (lookupEntry i (s.fbEntries c)).isSome = true

/-- The invariant of the machine: what the spec says of every state of a run. -/
structure Inv (s : State) : Prop where
  /-- The stream is in its canonical form. -/
  stream : s.inp.wf = true
  /-- `0 <= POS <= 8*N` (10_state.md R23). -/
  cursor : s.pos ≤ s.inp.bitLength
  /-- `DONE` and `ST.DONE` go together (10_state.md R26). -/
  done_iff : s.phase = .done ↔ s.stDone = true
  /-- `FAULT` and `ST.ERR` go together (60_exceptions.md R250). -/
  fault_iff : s.phase = .fault ↔ s.stErr = true
  /-- `ERR_CODE = 0` while no fault has been taken (60_exceptions.md R241). -/
  no_record : s.stErr = false → s.errCode = 0#2
  /-- The fault record of a fault that has been taken (60_exceptions.md R250). -/
  record : s.stErr = true →
    s.errCode ≠ 0#2 ∧ s.errBlock = s.expect ∧ s.errBit = s.pos ∧ s.errByte = s.pos / 8
  /-- Only an accepted header is valid (41_header.md R141). -/
  accepted : s.hValid = true → HeaderAccepted s.h
  /-- Every element but `HDR` is decoded after `HDR` succeeded (10_state.md R27). -/
  parsed : s.phase ≠ .header → s.phase ≠ .fault → s.hValid = true
  /-- `HDR` is decoded first, at bit 0 (41_header.md R140). -/
  first : s.phase = .header → s.pos = 0 ∧ s.hValid = false
  /-- Nothing is produced while the header is not valid. -/
  idle : s.hValid = false → s.produced = 0 ∧ s.out = []
  /-- `SEEKSKIP` is decoded at bit 192, before any block (41_header.md R140). -/
  second : s.phase = .seekSkip → s.pos = 192 ∧ s.produced = 0
  /-- `CH` names a channel of the stream wherever one is decoded (10_state.md R25). -/
  channel : s.phase = .frameK ∨ s.phase = .frameDelta → s.ch.toNat < s.h.channels.toNat
  /-- `SPOS` is a position of the frame wherever one is decoded (10_state.md R25). -/
  position : s.phase = .frameDelta → s.spos.toNat < s.h.frameSize.toNat
  /-- `FRM` is a frame of the block wherever one is decoded (10_state.md R25). -/
  frame : s.InFrame → s.frm.toNat < s.h.blockSize.toNat
  /-- At the end of a block `FRM` counts its frames (45_sequencer.md R218, R221). -/
  block_end : s.phase = .blockEnd → s.frm = s.h.blockSize
  /-- `OUT_LEN = min(PRODUCED, H.TOTAL) * C` (44_emitter.md R202). -/
  output : s.out.length = min s.produced s.h.total.toNat * s.h.channels.toNat
  /-- A block is begun only while the total is not reached (45_sequencer.md R214, R222). -/
  begun : s.InBlockHead → s.produced < s.h.total.toNat
  /-- Inside a block at most its finished frames go beyond the total. -/
  pace : s.InFrame ∨ s.phase = .blockEnd →
    s.produced < s.h.total.toNat + s.frm.toNat * s.h.frameSize.toNat
  /-- The bound on `PRODUCED` (10_state.md R30). -/
  bounded : s.produced = 0 ∨
    s.produced < s.h.total.toNat + s.h.blockSize.toNat * s.h.frameSize.toNat
  /-- `DONE` is reached only with the declared total (45_sequencer.md R214, R222). -/
  finished : s.stDone = true → s.h.total.toNat ≤ s.produced
  /-- The frame buffers are in their canonical form. -/
  buffers : entriesRise 0 s.fb0 = true ∧ entriesRise 0 s.fb1 = true
  /-- The slots of the frame decoded so far have been written (10_state.md R33). -/
  slots : s.phase = .frameDelta → ∀ c i, c < s.h.channels.toNat →
    i < s.spos.toNat ∨ (i = s.spos.toNat ∧ c < s.ch.toNat) → s.Written c i
  /-- "Every entry `EMIT` reads was written earlier in the same frame" (10_state.md R33). -/
  filled : s.phase = .frameEmit → ∀ c i, c < s.h.channels.toNat → i < s.h.frameSize.toNat → s.Written c i
  /-- The ranges of the captured fix (10_state.md R32). -/
  fix_range : -16777216 ≤ s.gpsLat ∧ s.gpsLat ≤ 16777215 ∧ -33554432 ≤ s.gpsLon ∧ s.gpsLon ≤ 33554431

/-- The state without what the core only writes: the status flags, the fault record, the capture registers, `OUT`
and `SIDE` (10_state.md R26, R32, R38; 20_memory.md R60). -/
def State.decodingPart (s : State) : State :=
  { s with
    stDone := false
    stErr := false
    stOvf := false
    stUgps := false
    stUtag := false
    stUzero := false
    errCode := 0#2
    errSub := 0#3
    errBlock := 0#32
    errBit := 0
    errByte := 0
    gpsLat := 0
    gpsLon := 0
    gpsBlk := 0#32
    gpsV := false
    tag := 0#4
    tagBlk := 0#32
    tagV := false
    out := []
    side := [] }

/-- The stream `m` holds the bits `l` from bit `p` on, and reaches as far. -/
def Holds (m : Memory) (p : Nat) (l : List Bool) : Prop :=
  p + l.length ≤ m.bitLength ∧ ∀ j < l.length, m.bit (p + j) = bitsOf l j

/-- The codeword of the signed delta `d` at width `k` (30_encoding.md R104, R105: `D.k d`). -/
def codeword (stop : Bool) (k : Nibble) (d : Int) : List Bool :=
  encode { stopBit := stop, k := k, seekEntries := 0 }
    (.delta (unzigzag d / 2 ^ k.toNat) (unzigzag d % 2 ^ k.toNat))

end Sys2Proof.Machine
end

