-- ==== Sys2Proof/Certificates/Slice0/Obligations.lean ====
section
/-! DEFINITION. The statements for the provers. Each docstring names the rule of the spec that the statement
formalises; where a clause is the model's own choice the docstring says so and names the log entry. -/

open Sys2Proof Sys2Proof.Machine

/-! ### Bits, bytes and fields -/

/-- 20_memory.md R62: `bit(i) = (IN[i div 8] >> (i mod 8)) & 1`. -/
def Obligations.BitsLeaveAByteFromItsLeastSignificantEnd : Prop :=
  ∀ (m : Memory) (i : Nat), (m.bit i).toNat = ((m.byte (i / 8)).toNat >>> (i % 8)) &&& 1

/-- 20_memory.md R63: an n-bit field is the sum of its bits, the first least significant. -/
def Obligations.FieldIsTheSumOfItsBits : Prop :=
  ∀ (bit : Nat → Bool) (p n : Nat),
    memRead bit p n = ∑ j ∈ Finset.range n, (bit (p + j)).toNat * 2 ^ j ∧ memRead bit p 0 = 0

/-- Drawing bits from little-endian 16-bit words is drawing them byte by byte: what 20_memory.md R64 infers from R62
("[derived: from rule R62]"). -/
def Obligations.WordOrderAndByteOrderAgree : Prop :=
  ∀ (m : Memory) (i : Nat),
    (m.bit i).toNat =
      (((m.byte (2 * (i / 16))).toNat + 256 * (m.byte (2 * (i / 16) + 1)).toNat) >>> (i % 16)) &&& 1

/-- A byte-aligned field of whole bytes is their little-endian integer: what 20_memory.md R63 and R65 infer from R62
("[derived: from rule R62]"). -/
def Obligations.AlignedFieldIsALittleEndianInteger : Prop :=
  ∀ (m : Memory) (a n : Nat),
    memRead m.bit (8 * a) (8 * n) = ∑ j ∈ Finset.range n, (m.byte (a + j)).toNat * 256 ^ j

/-! ### Decoding and encoding -/

/-- Decode and encode agree (30_encoding.md R92 to R99): the fields of every instruction survive, at every value
that the encoding admits and whatever follows it in the stream. -/
def Obligations.DecodingAnEncodedInstructionGivesItBack : Prop :=
  ∀ (cx : Ctx) (i : Instr) (rest : List Bool), i.wellFormed cx = true →
    decode cx i.op (bitsOf (encode cx i ++ rest)) ((encode cx i).length + rest.length) = .ok i

/-- The other direction (30_encoding.md R92 to R100): what the decoder reads, encoded again, is the bits that it
read, all of them; only the bits that `SKIPB` and `SEEKSKIP` pass over are in no field. -/
def Obligations.EncodingADecodedInstructionGivesItsBits : Prop :=
  ∀ (cx : Ctx) (op : Op) (bit : Nat → Bool) (avail : Nat) (i : Instr),
    decode cx op bit avail = .ok i → i.length cx ≤ avail → (∀ n, i ≠ .skipb n) → i ≠ .seekskip →
      ∀ j < i.length cx, bitsOf (encode cx i) j = bit j

/-- A sanity check on words written out from the spec: 42_block.md R165 (`0100` is tag 2), 43_frame.md R181
(`0100` is width 2), R183 (`0101` at width 2 is quotient 1, remainder 2), 95_test_vectors.md BR1, F3. -/
def Obligations.WordsOfTheSpecDecodeAsItSays : Prop :=
  decode ⟨true, 0#4, 0#16⟩ .tag (bitsOf [false, true, false, false]) 4 = .ok (Instr.tag 2#4) ∧
  decode ⟨true, 0#4, 0#16⟩ .frk (bitsOf [false, true, false, false]) 4 = .ok (.frk 2#4) ∧
  decode ⟨true, 2#4, 0#16⟩ .delta (bitsOf [false, true, false, true]) 4 = .ok (.delta 1 2) ∧
  decode ⟨false, 2#4, 0#16⟩ .delta (bitsOf [true, false, false, true]) 4 = .ok (.delta 1 2) ∧
  decode ⟨true, 0#4, 0#16⟩ (.rdbits 3) (bitsOf [true, false, true]) 3 = .ok (.rdbits 3 5)

/-- 45_sequencer.md R211: the dispatch table, and that it alone decides which element is fetched. -/
def Obligations.PhaseAloneSelectsTheElement : Prop :=
  (∀ k : Nibble,
    select .header k = .hdr ∧ select .seekSkip k = .seekskip ∧ select .blockSync k = .bsync ∧
    select .blockIndex k = .bidx ∧ select .blockGps k = .gps ∧ select .blockTag k = .tag ∧
    select .frameK k = .frk ∧ (k ≠ 0#4 → select .frameDelta k = .delta) ∧
    (k = 0#4 → select .frameDelta k = .zdelta) ∧ select .frameEmit k = .emit ∧
    select .blockEnd k = .bend ∧ select .done k = .halt ∧ select .fault k = .halt) ∧
  ∀ (s : State) (i : Instr), fetch s = .next i →
    i.op = select s.phase s.width ∧ ∀ c, s.chan = some c → s.width = s.k c

/-- 45_sequencer.md R210: when the bits at `POS` decode to a well-formed instruction of the selected operation,
one step is that instruction's meaning, with nothing added. -/
def Obligations.StepRunsTheDecodedInstruction : Prop :=
  ∀ (s : State) (i : Instr), i.wellFormed s.ctx = true → (s.phase = .frameDelta → s.chan ≠ none) →
    decode s.ctx (select s.phase s.width) s.bitsHere s.bitsLeft = .ok i → step s = exec i s

/-- 45_sequencer.md R210, 30_encoding.md R90: when the stream holds the encoding of a well-formed instruction of
the operation that `PHASE` selects, one step is that instruction's meaning. The content of a seek table is
free. -/
def Obligations.StepPerformsTheElementThatTheStreamHolds : Prop :=
  ∀ (s : State) (i : Instr), i.wellFormed s.ctx = true → i.op = select s.phase s.width →
    (s.phase = .frameDelta → s.chan ≠ none) → (i = .seekskip ∨ Holds s.inp s.pos (encode s.ctx i)) →
      step s = exec i s

/-- The host's `withFetchWord` (assumption log 11): the very next step runs the instruction that the word of the
table decodes to. -/
def Obligations.TableWordRunsAsTheNextInstruction : Prop :=
  ∀ (s : State) (nbits w : Nat) (i : Instr), s.inp.wf = true → decodeTableWord nbits w = some i →
    step (s.withFetchWord nbits w) = exec i (s.withFetchWord nbits w)

/-! ### The bit reader -/

/-- `RDBITS n` performed on its own, with the value and the cursor of 40_bitreader.md R121. That it takes the trap entry
itself, which R120 leaves to the calling element, and delivers its value in the decoded field is the model's reading
(DEDUCED, assumption log 9); so is the form of the refusal beyond 32 bits (assumption log 10). -/
def Obligations.RdbitsReadsAnUnsignedField : Prop :=
  ∀ (n v : Nat) (s : State),
    (n ≤ 32 → s.pos + n ≤ 8 * s.inp.size → exec (.rdbits n v) s = .next { s with pos := s.pos + n }) ∧
    (n ≤ 32 → 8 * s.inp.size < s.pos + n → exec (.rdbits n v) s = .next (s.takeFault .eos)) ∧
    (32 < n → exec (.rdbits n v) s = .refused .widthOutsideContract) ∧
    (n ≤ 32 → decode s.ctx (.rdbits n) s.bitsHere s.bitsLeft =
      .ok (.rdbits n (∑ j ∈ Finset.range n, (s.inp.bit (s.pos + j)).toNat * 2 ^ j)))

/-- `RDUNARY` performed on its own, with the count and the cursor of 40_bitreader.md R122. That it takes the trap entry
itself, which R120 leaves to the calling element, and delivers its count in the decoded field is the model's reading
(DEDUCED, assumption log 9). That a stream without a stop bit still decodes, to a count that means nothing, is the
model's choice (DESIGN CHOICE, assumption log 3). -/
def Obligations.RdunaryCountsTheBitsBeforeTheStopBit : Prop :=
  ∀ (q : Nat) (s : State),
    (s.pos + q + 1 ≤ 8 * s.inp.size → exec (.rdunary q) s = .next { s with pos := s.pos + q + 1 }) ∧
    ((∀ j < q, s.inp.bit (s.pos + j) ≠ s.params.stopBit) → s.pos + q < 8 * s.inp.size →
      s.inp.bit (s.pos + q) = s.params.stopBit →
        decode s.ctx .rdunary s.bitsHere s.bitsLeft = .ok (.rdunary q)) ∧
    ((∀ j, s.pos + j < 8 * s.inp.size → s.inp.bit (s.pos + j) ≠ s.params.stopBit) →
      ∃ q', decode s.ctx .rdunary s.bitsHere s.bitsLeft = .ok (.rdunary q') ∧
        exec (.rdunary q') s = .next (s.takeFault .eos))

/-- `SKIPB n` performed on its own, with the cursor of 40_bitreader.md R123. That it takes the trap entry itself, which
R120 leaves to the calling element, is the model's reading (DEDUCED, assumption log 9). -/
def Obligations.SkipbPassesOverWholeBytes : Prop :=
  ∀ (n : Nat) (s : State),
    (s.pos + 8 * n ≤ 8 * s.inp.size → exec (.skipb n) s = .next { s with pos := s.pos + 8 * n }) ∧
    (8 * s.inp.size < s.pos + 8 * n → exec (.skipb n) s = .next (s.takeFault .eos))

/-! ### The header -/

/-- 41_header.md R141, with the checks in the order of R145 and the successor of 45_sequencer.md R213. The last
clause says where the ten fields come from. -/
def Obligations.HdrParsesAndValidatesTheHeader : Prop :=
  (∀ (f : Header) (s : State), 8 * s.inp.size < s.pos + 192 →
    exec (.hdr f) s = .next (s.takeFault .eos)) ∧
  (∀ (f : Header) (s : State), s.pos + 192 ≤ 8 * s.inp.size →
    exec (.hdr f) s =
      if f.magic ≠ 0x63614157#32 then .next ({ s with h := f }.takeFault .badMagic)
      else if 4 < f.version.toNat then .next ({ s with h := f }.takeFault .badVersion)
      else if f.channels ≠ 1#8 ∧ f.channels ≠ 2#8 then .next ({ s with h := f }.takeFault .badChannels)
      else if f.flags.toNat.testBit 5 = true ∧ f.seekSize = 0#16 then
        .next ({ s with h := f }.takeFault .badSeekSize)
      else .next { s with h := f, hValid := true, pos := s.pos + 192, phase := .seekSkip }) ∧
  (∀ s : State, s.phase = .header → ∃ f : Header, fetch s = .next (.hdr f) ∧
    f.magic.toNat = memRead s.inp.bit s.pos 32 ∧ f.version.toNat = memRead s.inp.bit (s.pos + 32) 8 ∧
    f.channels.toNat = memRead s.inp.bit (s.pos + 40) 8 ∧
    f.frameSize.toNat = memRead s.inp.bit (s.pos + 48) 16 ∧
    f.blockSize.toNat = memRead s.inp.bit (s.pos + 64) 16 ∧
    f.flags.toNat = memRead s.inp.bit (s.pos + 80) 16 ∧
    f.sampleRate.toNat = memRead s.inp.bit (s.pos + 96) 32 ∧
    f.total.toNat = memRead s.inp.bit (s.pos + 128) 32 ∧
    f.seekSize.toNat = memRead s.inp.bit (s.pos + 160) 16 ∧
    f.seekEntries.toNat = memRead s.inp.bit (s.pos + 176) 16)

/-- 41_header.md R142, R143: an accepted header completes, valid; any other is a FormatError that keeps the ten
fields for the host and leaves `H.VALID` and `POS` as they were (10_state.md R27). -/
def Obligations.HdrAcceptsExactlyTheValidHeaders : Prop :=
  ∀ (f : Header) (s : State), s.pos + 192 ≤ 8 * s.inp.size →
    (HeaderAccepted f →
      exec (.hdr f) s = .next { s with h := f, hValid := true, pos := s.pos + 192, phase := .seekSkip }) ∧
    (¬ HeaderAccepted f → ∃ c : Cause, c.code = 1#2 ∧
      exec (.hdr f) s = .next ({ s with h := f }.takeFault c))

/-- 41_header.md R148, with the successor of 45_sequencer.md R214. -/
def Obligations.SeekskipPassesOverTheSeekTable : Prop :=
  ∀ s : State,
    (8 * s.inp.size < s.pos + 32 * s.h.seekEntries.toNat →
      exec .seekskip s = .next (s.takeFault .eos)) ∧
    (s.pos + 32 * s.h.seekEntries.toNat ≤ 8 * s.inp.size → s.h.total ≠ 0#32 →
      exec .seekskip s = .next { s with pos := s.pos + 32 * s.h.seekEntries.toNat, phase := .blockSync }) ∧
    (s.pos + 32 * s.h.seekEntries.toNat ≤ 8 * s.inp.size → s.h.total = 0#32 →
      exec .seekskip s =
        .next { s with pos := s.pos + 32 * s.h.seekEntries.toNat, stDone := true, phase := .done })

/-! ### The block layer -/

/-- 42_block.md R162, with the successor of 45_sequencer.md R215, for an arbitrary `SYNC_PATTERN`. -/
def Obligations.BsyncChecksThePattern : Prop :=
  (∀ (p : Word) (s : State),
    (8 * s.inp.size < s.pos + 32 → exec (.bsync p) s = .next (s.takeFault .eos)) ∧
    (s.pos + 32 ≤ 8 * s.inp.size → p ≠ s.params.syncPattern →
      exec (.bsync p) s = .next (s.takeFault .badPattern)) ∧
    (s.pos + 32 ≤ 8 * s.inp.size → p = s.params.syncPattern →
      exec (.bsync p) s = .next { s with pos := s.pos + 32, phase := .blockIndex })) ∧
  ∀ s : State, s.phase = .blockSync →
    fetch s = .next (.bsync (BitVec.ofNat 32 (memRead s.inp.bit s.pos 32)))

/-- 42_block.md R163: the index must be `EXPECT`. The successors are those of 45_sequencer.md R216, with the
GPS cadence of 42_block.md R166. -/
def Obligations.BidxChecksTheIndexAndPicksTheSuccessor : Prop :=
  (∀ (x : Word) (s : State),
    (8 * s.inp.size < s.pos + 32 → exec (.bidx x) s = .next (s.takeFault .eos)) ∧
    (s.pos + 32 ≤ 8 * s.inp.size → x ≠ s.expect → exec (.bidx x) s = .next (s.takeFault .badIndex)) ∧
    (s.pos + 32 ≤ 8 * s.inp.size → x = s.expect → s.h.gpsp = true → s.h.seekSize ≠ 0#16 →
      s.expect.toNat % s.h.seekSize.toNat = 0 →
        exec (.bidx x) s = .next { s with pos := s.pos + 32, phase := .blockGps }) ∧
    (s.pos + 32 ≤ 8 * s.inp.size → x = s.expect →
      (s.h.gpsp = false ∨ (s.h.seekSize ≠ 0#16 ∧ s.expect.toNat % s.h.seekSize.toNat ≠ 0)) →
        exec (.bidx x) s =
          if s.h.tagp = true then .next { s with pos := s.pos + 32, phase := .blockTag }
          else .next { s with pos := s.pos + 32 }.enterFrames)) ∧
  ∀ s : State, s.phase = .blockIndex →
    fetch s = .next (.bidx (BitVec.ofNat 32 (memRead s.inp.bit s.pos 32)))

/-- The model's choice (assumption log 6) for a divisor of 0 in the GPS cadence, which no accepted header has
(41_header.md R143): the run goes on, with a free value in place of the remainder, to one of the successors of
45_sequencer.md R216. -/
def Obligations.BidxGoesOnWhereTheCadenceHasNoValue : Prop :=
  ∀ s : State, s.pos + 32 ≤ 8 * s.inp.size → s.h.gpsp = true → s.h.seekSize = 0#16 →
    exec (.bidx s.expect) s = .next { s with pos := s.pos + 32, phase := .blockGps } ∨
      exec (.bidx s.expect) s =
        if s.h.tagp = true then .next { s with pos := s.pos + 32, phase := .blockTag }
        else .next { s with pos := s.pos + 32 }.enterFrames

/-- 45_sequencer.md R218. -/
def Obligations.EnteringTheFramesOfABlock : Prop :=
  ∀ s : State,
    (s.h.blockSize = 0#16 → s.enterFrames = { s with frm := 0#16, phase := .blockEnd }) ∧
    (s.h.blockSize ≠ 0#16 → s.enterFrames = { s with frm := 0#16, ch := 0#2, phase := .frameK })

/-- 42_block.md R164: the two's-complement integers of the two fields are captured and recorded; the successor is
that of 45_sequencer.md R217. -/
def Obligations.GpsCapturesAndRecordsTheFix : Prop :=
  (∀ (a : BitVec 25) (o : BitVec 26) (s : State),
    (8 * s.inp.size < s.pos + 51 → exec (.gps a o) s = .next (s.takeFault .eos)) ∧
    (s.pos + 51 ≤ 8 * s.inp.size → ∀ u : State,
      u = { s with
        pos := s.pos + 51
        gpsLat := a.toInt
        gpsLon := o.toInt
        gpsBlk := s.expect
        gpsV := true
        side := s.side ++ [SideRec.gps s.expect a.toInt o.toInt]
        stUgps := true } →
      exec (.gps a o) s =
        if s.h.tagp = true then .next { u with phase := .blockTag } else .next u.enterFrames)) ∧
  ∀ s : State, s.phase = .blockGps →
    fetch s = .next (.gps (BitVec.ofNat 25 (memRead s.inp.bit s.pos 25))
      (BitVec.ofNat 26 (memRead s.inp.bit (s.pos + 25) 26)))

/-- 42_block.md R165, with the successor of 45_sequencer.md R217. -/
def Obligations.TagCapturesAndRecordsTheNibble : Prop :=
  (∀ (g : Nibble) (s : State),
    (8 * s.inp.size < s.pos + 4 → exec (.tag g) s = .next (s.takeFault .eos)) ∧
    (s.pos + 4 ≤ 8 * s.inp.size →
      exec (.tag g) s = .next { s with
        pos := s.pos + 4
        tag := g
        tagBlk := s.expect
        tagV := true
        side := s.side ++ [SideRec.tag s.expect g]
        stUtag := true }.enterFrames)) ∧
  ∀ s : State, s.phase = .blockTag → fetch s = .next (.tag (BitVec.ofNat 4 (memRead s.inp.bit s.pos 4)))

/-! ### The frame layer -/

/-- 43_frame.md R181, for both channels; what follows is 45_sequencer.md R219, which
`SuccessorOfARemainderWidth` states. -/
def Obligations.FrkReadsOneRemainderWidth : Prop :=
  (∀ (k : Nibble) (s : State),
    (s.ch = 0#2 ∨ s.ch = 1#2 → 8 * s.inp.size < s.pos + 4 → exec (.frk k) s = .next (s.takeFault .eos)) ∧
    (s.ch = 0#2 → s.pos + 4 ≤ 8 * s.inp.size →
      exec (.frk k) s = .next { s with
        pos := s.pos + 4
        k0 := k
        stUzero := s.stUzero || decide (k = 0#4) }.afterFrk) ∧
    (s.ch = 1#2 → s.pos + 4 ≤ 8 * s.inp.size →
      exec (.frk k) s = .next { s with
        pos := s.pos + 4
        k1 := k
        stUzero := s.stUzero || decide (k = 0#4) }.afterFrk)) ∧
  ∀ s : State, s.phase = .frameK → fetch s = .next (.frk (BitVec.ofNat 4 (memRead s.inp.bit s.pos 4)))

/-- 45_sequencer.md R219, wherever `CH` is in its range 0..2. -/
def Obligations.SuccessorOfARemainderWidth : Prop :=
  ∀ s : State, s.ch.toNat ≤ 2 →
    (s.ch.toNat + 1 < s.h.channels.toNat → s.afterFrk = { s with ch := s.ch + 1#2 }) ∧
    (s.h.channels.toNat ≤ s.ch.toNat + 1 → s.h.frameSize = 0#16 →
      s.afterFrk = { s with ch := 0#2, spos := 0#16, phase := .frameEmit }) ∧
    (s.h.channels.toNat ≤ s.ch.toNat + 1 → s.h.frameSize ≠ 0#16 →
      s.afterFrk = { s with ch := 0#2, spos := 0#16, phase := .frameDelta })

/-- 43_frame.md R183, for both channels, with the arithmetic of R182 and R187 written out; what follows is
45_sequencer.md R220, which `SuccessorOfASlot` states. The last clause says which codeword is performed: the one at `POS`, read with the width
of its own channel (R185); a stream without a stop bit is a TruncatedStreamError. -/
def Obligations.DeltaAddsTheDecodedDelta : Prop :=
  (∀ (q r m : Nat) (d sum : Int) (s : State), s.ch = 0#2 → s.k0 ≠ 0#4 →
    m = q * 2 ^ s.k0.toNat + r → (m % 2 = 0 → d = m / 2) → (m % 2 = 1 → d = -((m + 1) / 2)) →
    sum = s.acc0.toInt + d →
      (8 * s.inp.size < s.pos + q + 1 + s.k0.toNat → exec (.delta q r) s = .next (s.takeFault .eos)) ∧
      (s.pos + q + 1 + s.k0.toNat ≤ 8 * s.inp.size →
        exec (.delta q r) s = .next { s with
          pos := s.pos + q + 1 + s.k0.toNat
          acc0 := BitVec.ofInt 32 sum
          fb0 := insertEntry s.spos.toNat (BitVec.ofInt 32 sum) s.fb0
          stOvf := s.stOvf || decide (sum < -2 ^ 31 ∨ sum > 2 ^ 31 - 1) }.afterSlot)) ∧
  (∀ (q r m : Nat) (d sum : Int) (s : State), s.ch = 1#2 → s.k1 ≠ 0#4 →
    m = q * 2 ^ s.k1.toNat + r → (m % 2 = 0 → d = m / 2) → (m % 2 = 1 → d = -((m + 1) / 2)) →
    sum = s.acc1.toInt + d →
      (8 * s.inp.size < s.pos + q + 1 + s.k1.toNat → exec (.delta q r) s = .next (s.takeFault .eos)) ∧
      (s.pos + q + 1 + s.k1.toNat ≤ 8 * s.inp.size →
        exec (.delta q r) s = .next { s with
          pos := s.pos + q + 1 + s.k1.toNat
          acc1 := BitVec.ofInt 32 sum
          fb1 := insertEntry s.spos.toNat (BitVec.ofInt 32 sum) s.fb1
          stOvf := s.stOvf || decide (sum < -2 ^ 31 ∨ sum > 2 ^ 31 - 1) }.afterSlot)) ∧
  ∀ (s : State) (c : Chan), s.phase = .frameDelta → s.chan = some c → s.k c ≠ 0#4 →
    (∀ q, (∀ j < q, s.inp.bit (s.pos + j) ≠ s.params.stopBit) → s.pos + q < 8 * s.inp.size →
      s.inp.bit (s.pos + q) = s.params.stopBit →
        fetch s = .next (.delta q (memRead s.inp.bit (s.pos + q + 1) (s.k c).toNat))) ∧
    ((∀ j, s.pos + j < 8 * s.inp.size → s.inp.bit (s.pos + j) ≠ s.params.stopBit) →
      step s = .next (s.takeFault .eos))

/-- 43_frame.md R184, for both channels; what follows is 45_sequencer.md R220. -/
def Obligations.ZdeltaRepeatsTheAccumulator : Prop :=
  ∀ s : State,
    (s.ch = 0#2 → exec .zdelta s =
      .next { s with fb0 := insertEntry s.spos.toNat s.acc0 s.fb0 }.afterSlot) ∧
    (s.ch = 1#2 → exec .zdelta s =
      .next { s with fb1 := insertEntry s.spos.toNat s.acc1 s.fb1 }.afterSlot)

/-- 45_sequencer.md R220, wherever `CH` is in its range 0..2 and `SPOS` is a position of the frame. -/
def Obligations.SuccessorOfASlot : Prop :=
  ∀ s : State, s.ch.toNat ≤ 2 → s.spos.toNat < s.h.frameSize.toNat →
    (s.ch.toNat + 1 < s.h.channels.toNat → s.afterSlot = { s with ch := s.ch + 1#2 }) ∧
    (s.h.channels.toNat ≤ s.ch.toNat + 1 → s.spos.toNat + 1 < s.h.frameSize.toNat →
      s.afterSlot = { s with ch := 0#2, spos := s.spos + 1#16 }) ∧
    (s.h.channels.toNat ≤ s.ch.toNat + 1 → s.spos.toNat + 1 = s.h.frameSize.toNat →
      s.afterSlot = { s with ch := 0#2, spos := s.spos + 1#16, phase := .frameEmit })

/-- The model's choice where `CH` names no channel (assumption log 10): no register and no buffer of a third channel
exists, so the element stops; and `DELTA` with a width of 0, outside the contract of 43_frame.md R183, is
refused. No run reaches either (`EveryStepFromAGoodStateCompletes`). -/
def Obligations.NoElementOfAThirdChannelRuns : Prop :=
  (∀ (k : Nibble) (q r : Nat) (s : State), s.ch = 2#2 ∨ s.ch = 3#2 →
    exec (.frk k) s = .fault .noSuchChannel ∧ exec (.delta q r) s = .fault .noSuchChannel ∧
    exec .zdelta s = .fault .noSuchChannel ∧ (s.phase = .frameDelta → step s = .fault .noSuchChannel)) ∧
  ∀ (q r : Nat) (s : State) (c : Chan), s.chan = some c → s.k c = 0#4 →
    exec (.delta q r) s = .refused .widthOutsideContract

/-- 43_frame.md R182: the magnitude and the zigzag mapping. Its inverse, and that it is a bijection from the natural
numbers onto the integers, are the inference of R182 ("[derived: from the definition]"). -/
def Obligations.ZigzagIsABijectionOntoTheIntegers : Prop :=
  (∀ q k r : Nat, magnitude q k r = q * 2 ^ k + r) ∧
  (∀ m : Nat, (m % 2 = 0 → zigzag m = (m : Int) / 2) ∧ (m % 2 = 1 → zigzag m = -(((m : Int) + 1) / 2))) ∧
  (∀ d : Int, (0 ≤ d → zigzag (2 * d).toNat = d) ∧ (d < 0 → zigzag (-2 * d - 1).toNat = d)) ∧
  Function.Bijective zigzag

/-- Every magnitude has exactly one codeword at a given width: what 30_encoding.md R99 infers ("[derived: from the
magnitude formula]"). -/
def Obligations.EveryMagnitudeHasOneCodeword : Prop :=
  ∀ (k : Nibble) (m q r : Nat), k ≠ 0#4 →
    ((r < 2 ^ k.toNat ∧ magnitude q k.toNat r = m) ↔ (q = m / 2 ^ k.toNat ∧ r = m % 2 ^ k.toNat))

/-- 00_scope.md R10: the 32-bit wrap is the one congruent integer in the signed range, and sign extension is the
two's-complement reading of a pattern. -/
def Obligations.WrapAndSignExtensionAreTwosComplement : Prop :=
  (∀ z : Int, -2 ^ 31 ≤ (wrap32 z).toInt ∧ (wrap32 z).toInt < 2 ^ 31 ∧ (wrap32 z).toInt % 2 ^ 32 = z % 2 ^ 32) ∧
  (∀ (z : Int) (w : Word), w.toInt % 2 ^ 32 = z % 2 ^ 32 → w = wrap32 z) ∧
  ∀ n v : Nat, 0 < n → v < 2 ^ n →
    -2 ^ (n - 1) ≤ sext n v ∧ sext n v < 2 ^ (n - 1) ∧ sext n v % 2 ^ n = (v : Int)

/-- 10_state.md R33, 43_frame.md R185: an entry of the frame buffer reads as what was written there, and every
other entry of either channel as before. -/
def Obligations.FrameBufferReadsBackWhatWasWritten : Prop :=
  ∀ (s : State) (c : Chan) (v : Word) (c' i : Nat),
    (s.writeFb c v).readFb c' i =
      if ((c = .c0 ∧ c' = 0) ∨ (c = .c1 ∧ c' = 1)) ∧ i = s.spos.toNat then v else s.readFb c' i

/-! ### The emitter and the sequencer -/

/-- 44_emitter.md R202, with the values of R201 and the clipping of R203: of the frame's positions the first
`min(H.FRAMESIZE, H.TOTAL - PRODUCED)` are kept, and word `j` of what is appended is channel `j mod C` at position
`j div C`. What follows is 45_sequencer.md R221. -/
def Obligations.EmitAppendsTheFrameInterleaved : Prop :=
  ∀ (s : State) (kept : Nat),
    kept = min s.h.frameSize.toNat (s.h.total.toNat - s.produced) →
    ∃ ws : List Half,
      exec .emit s = .next { s with
        out := s.out ++ ws
        produced := s.produced + s.h.frameSize.toNat
        stOvf := s.stOvf || decide (∃ j < kept * s.h.channels.toNat,
          (s.readFb (j % s.h.channels.toNat) (j / s.h.channels.toNat)).toInt * 2 ^ (s.h.flags.toNat % 16)
              < -32768 ∨
          32767 < (s.readFb (j % s.h.channels.toNat) (j / s.h.channels.toNat)).toInt
              * 2 ^ (s.h.flags.toNat % 16)) }.afterEmit ∧
      ws.length = kept * s.h.channels.toNat ∧
      ∀ j < kept * s.h.channels.toNat, ∃ w, ws[j]? = some w ∧
        (w.toNat : Int) =
          (s.readFb (j % s.h.channels.toNat) (j / s.h.channels.toNat)).toInt
            * 2 ^ (s.h.flags.toNat % 16) % 2 ^ 16

/-- 45_sequencer.md R221, wherever `FRM` is a frame of the block. -/
def Obligations.SuccessorOfAnEmittedFrame : Prop :=
  ∀ s : State, s.frm.toNat < s.h.blockSize.toNat →
    (s.frm.toNat + 1 < s.h.blockSize.toNat →
      s.afterEmit = { s with frm := s.frm + 1#16, ch := 0#2, phase := .frameK }) ∧
    (s.frm.toNat + 1 = s.h.blockSize.toNat →
      s.afterEmit = { s with frm := s.frm + 1#16, phase := .blockEnd })

/-- 45_sequencer.md R222. -/
def Obligations.BendClosesTheBlock : Prop :=
  ∀ s : State,
    (s.produced ≥ s.h.total.toNat →
      exec .bend s = .next { s with
        expect := BitVec.ofNat 32 ((s.expect.toNat + 1) % 2 ^ 32)
        stDone := true
        phase := .done }) ∧
    (s.produced < s.h.total.toNat →
      exec .bend s = .next { s with
        expect := BitVec.ofNat 32 ((s.expect.toNat + 1) % 2 ^ 32)
        phase := .blockSync })

/-- `HALT` changes nothing, and no number of steps leaves a terminal state (45_sequencer.md R212, R223). The spec gives
those states no step and no successor; that a step which changes nothing stands for it is the model's choice (DESIGN
CHOICE, assumption log 8). -/
def Obligations.TerminalStatesAreNeverLeft : Prop :=
  (∀ s : State, exec .halt s = .next s) ∧
  ∀ (n : Nat) (s : State), s.Terminal → runFrom n s = .next s

/-! ### Faults -/

/-- 60_exceptions.md R250, R251: an instruction that takes a fault leaves exactly the state in which it began, with
the fault record, `ST.ERR` and `PHASE`; only `HDR`, on a FormatError, also leaves the ten fields it read. -/
def Obligations.FaultsArePreciseAndRecorded : Prop :=
  ∀ (i : Instr) (s t : State), exec i s = .next t → s.stErr = false → t.stErr = true →
    ∃ (c : Cause) (f : Header), (f = s.h ∨ (i = .hdr f ∧ c.code = 1#2)) ∧
      t = { s with
        h := f
        errCode := c.code
        errSub := c.sub
        errBlock := s.expect
        errBit := s.pos
        errByte := s.pos / 8
        stErr := true
        phase := .fault }

/-- 60_exceptions.md R241: the codes, and which instruction raises which cause. -/
def Obligations.EveryCauseHasItsCodeAndItsElement : Prop :=
  (Cause.badMagic.code = 1#2 ∧ Cause.badMagic.sub = 1#3 ∧ Cause.badVersion.code = 1#2 ∧
    Cause.badVersion.sub = 2#3 ∧ Cause.badChannels.code = 1#2 ∧ Cause.badChannels.sub = 3#3 ∧
    Cause.badSeekSize.code = 1#2 ∧ Cause.badSeekSize.sub = 4#3 ∧ Cause.badPattern.code = 2#2 ∧
    Cause.badPattern.sub = 1#3 ∧ Cause.badIndex.code = 2#2 ∧ Cause.badIndex.sub = 2#3 ∧
    Cause.eos.code = 3#2 ∧ Cause.eos.sub = 1#3) ∧
  ∀ (i : Instr) (s t : State), exec i s = .next t → s.stErr = false → t.stErr = true →
    (t.errCode = 1#2 → ∃ f, i = .hdr f) ∧
    (t.errCode = 2#2 ∧ t.errSub = 1#3 → ∃ p, i = .bsync p) ∧
    (t.errCode = 2#2 ∧ t.errSub = 2#3 → ∃ x, i = .bidx x) ∧
    (t.errCode = 3#2 → t.errSub = 1#3 ∧ 8 * s.inp.size < s.pos + i.length s.ctx) ∧
    t.errCode ≠ 0#2

/-! ### The whole machine -/

/-- The write half of 10_state.md R38: which instruction may change which piece of state, over all instructions and
all states; and no instruction changes the stream or the parameters (20_memory.md R60). -/
def Obligations.EachRegisterHasItsOnlyWriters : Prop :=
  ∀ (i : Instr) (s t : State), exec i s = .next t →
    ((∀ q r, i ≠ .delta q r) → t.acc0 = s.acc0 ∧ t.acc1 = s.acc1) ∧
    ((∀ k, i ≠ .frk k) → t.k0 = s.k0 ∧ t.k1 = s.k1 ∧ t.stUzero = s.stUzero) ∧
    ((∀ q r, i ≠ .delta q r) → i ≠ .zdelta → t.fb0 = s.fb0 ∧ t.fb1 = s.fb1) ∧
    ((∀ f, i ≠ .hdr f) → t.h = s.h ∧ t.hValid = s.hValid) ∧
    (i ≠ .bend → t.expect = s.expect) ∧
    (i ≠ .emit → t.produced = s.produced ∧ t.out = s.out) ∧
    ((∀ a o, i ≠ .gps a o) →
      t.gpsLat = s.gpsLat ∧ t.gpsLon = s.gpsLon ∧ t.gpsBlk = s.gpsBlk ∧ t.gpsV = s.gpsV ∧
      t.stUgps = s.stUgps) ∧
    ((∀ g, i ≠ .tag g) → t.tag = s.tag ∧ t.tagBlk = s.tagBlk ∧ t.tagV = s.tagV ∧ t.stUtag = s.stUtag) ∧
    ((∀ a o, i ≠ .gps a o) → (∀ g, i ≠ .tag g) → t.side = s.side) ∧
    ((∀ q r, i ≠ .delta q r) → i ≠ .emit → t.stOvf = s.stOvf) ∧
    (i ≠ .seekskip → i ≠ .bend → t.stDone = s.stDone) ∧
    (t.phase ≠ .fault → t.stErr = s.stErr ∧ t.errCode = s.errCode ∧ t.errSub = s.errSub ∧
      t.errBlock = s.errBlock ∧ t.errBit = s.errBit ∧ t.errByte = s.errByte) ∧
    (i.length s.ctx = 0 → t.pos = s.pos) ∧
    t.inp = s.inp ∧ t.params = s.params

/-- 20_memory.md R60, R73: `OUT` and `SIDE` are append-only, so a word or record once written is never rewritten;
10_state.md R26: no flag is ever cleared. -/
def Obligations.OutputsGrowAndFlagsStick : Prop :=
  ∀ (i : Instr) (s t : State), exec i s = .next t →
    s.out <+: t.out ∧ s.side <+: t.side ∧
    (s.stDone = true → t.stDone = true) ∧ (s.stErr = true → t.stErr = true) ∧
    (s.stOvf = true → t.stOvf = true) ∧ (s.stUgps = true → t.stUgps = true) ∧
    (s.stUtag = true → t.stUtag = true) ∧ (s.stUzero = true → t.stUzero = true)

/-- 10_state.md R23, 20_memory.md R73: the cursor moves forward by exactly the element's length, inside the stream, or
not at all. -/
def Obligations.CursorMovesForwardByTheElement : Prop :=
  ∀ (i : Instr) (s t : State), exec i s = .next t →
    t.pos = s.pos ∨ (t.pos = s.pos + i.length s.ctx ∧ t.pos ≤ 8 * s.inp.size)

/-- 10_state.md R26, R38, 20_memory.md R60, 42_block.md R167: the core reads no status flag, no fault record, no capture
register, and neither `OUT` nor `SIDE`: two states that agree on the rest step to states that agree on the
rest. -/
def Obligations.DecodingReadsNoOutput : Prop :=
  ∀ s s' t : State, s.decodingPart = s'.decodingPart → step s = .next t →
    ∃ t', step s' = .next t' ∧ t.decodingPart = t'.decodingPart

/-- 41_header.md R147: the flag `TRIG` changes nothing in decoding; nor do the reserved bits of 10_state.md R28. Two
headers that differ only there give the same step, apart from the recorded flags. -/
def Obligations.TriggeredFlagChangesNothing : Prop :=
  ∀ (s t : State) (fl : Half), s.phase ≠ .header → fl.toNat % 16 = s.h.flags.toNat % 16 →
    fl.toNat.testBit 5 = s.h.flags.toNat.testBit 5 → fl.toNat.testBit 6 = s.h.flags.toNat.testBit 6 →
    step s = .next t →
      step { s with h := { s.h with flags := fl } } = .next { t with h := { t.h with flags := fl } }

/-- 45_sequencer.md R222, 20_memory.md R73, 70_reset_and_hazards.md R287: a run that has taken no fault has looked at no
bit beyond its cursor: on any other stream with the same bits up to there it does the same. -/
def Obligations.NothingBeyondTheCursorMatters : Prop :=
  ∀ (n : Nat) (s t : State) (m : Memory), runFrom n s = .next t → t.phase ≠ .fault →
    (∀ i < t.pos, m.bit i = s.inp.bit i) → t.pos ≤ 8 * m.size →
      runFrom n { s with inp := m } = .next { t with inp := m }

/-- 20_memory.md R71, 41_header.md R148: the content of the seek table is never looked at. Two streams of one length that
differ only inside the table give runs that differ in nothing but the stream. -/
def Obligations.SeekTableContentIsNeverRead : Prop :=
  ∀ (n : Nat) (params : Params) (m m' : Memory) (t : State), m'.size = m.size →
    (∀ i, i < 192 ∨ 192 + 32 * memRead m.bit 176 16 ≤ i → m'.bit i = m.bit i) →
    runFrom n (State.start params m) = .next t →
      runFrom n (State.start params m') = .next { t with inp := m' }

/-! ### The invariant and the runs -/

/-- 10_state.md R37, 70_reset_and_hazards.md R281: the values of the table after reset, for the machine as it comes up
and for a reset of any state, whose stream and parameters the host presents. The registers to which the table gives
"none" or "unspecified" are not spoken of. That reset is a function on states is the model's choice (DESIGN CHOICE,
assumption log 18), and so is that the state holds the stream and the parameters, which it keeps (DESIGN CHOICE,
assumption log 12). -/
def Obligations.ResetGivesTheValuesOfTheTable : Prop :=
  ∀ s r : State, r = State.reset ∨ r = s.restart →
    r.acc0 = 0#32 ∧ r.acc1 = 0#32 ∧ r.k0 = 0#4 ∧ r.k1 = 0#4 ∧ r.pos = 0 ∧ r.phase = .header ∧
    r.phase.code = 0 ∧ r.frm = 0#16 ∧ r.spos = 0#16 ∧ r.ch = 0#2 ∧
    r.stDone = false ∧ r.stErr = false ∧ r.stOvf = false ∧ r.stUgps = false ∧ r.stUtag = false ∧
    r.stUzero = false ∧ r.hValid = false ∧ r.expect = 0#32 ∧ r.produced = 0 ∧ r.errCode = 0#2 ∧
    r.errSub = 0#3 ∧ r.errBlock = 0#32 ∧ r.errBit = 0 ∧ r.errByte = 0 ∧ r.gpsLat = 0 ∧ r.gpsLon = 0 ∧
    r.gpsBlk = 0#32 ∧ r.gpsV = false ∧ r.tag = 0#4 ∧ r.tagBlk = 0#32 ∧ r.tagV = false ∧
    r.out = [] ∧ r.outLen = 0 ∧ r.side = [] ∧ r.sideLen = 0 ∧
    s.restart.inp = s.inp ∧ s.restart.params = s.params

/-- The invariant holds when a run starts, on any stream in canonical form and for any parameters, and of the
machine as it comes out of reset. -/
def Obligations.EveryStartMeetsTheInvariant : Prop :=
  Inv State.reset ∧ ∀ (params : Params) (m : Memory), m.wf = true → Inv (State.start params m)

/-- Every step keeps the invariant, from every state that meets it. -/
def Obligations.EveryStepKeepsTheInvariant : Prop :=
  ∀ s t : State, Inv s → step s = .next t → Inv t

/-- 45_sequencer.md R210, 60_exceptions.md R240: from a state that meets the invariant the machine neither faults in the
model's sense nor refuses: every step has a next state. -/
def Obligations.EveryStepFromAGoodStateCompletes : Prop :=
  ∀ s : State, Inv s → ∃ t, step s = .next t

/-- However long a run from any stream, it never stops short of a next state; when it has ended in `DONE`, `OUT` has
exactly the declared length (44_emitter.md R204, R203); and `PRODUCED` stays below the bound that 10_state.md R30
infers ("[derived: from 45_sequencer.md rule R222]"). -/
def Obligations.DoneRunsHaveTheDeclaredLength : Prop :=
  ∀ (n : Nat) (params : Params) (m : Memory), m.wf = true →
    ∃ t, runFrom n (State.start params m) = .next t ∧
      (t.stDone = true → t.stErr = false ∧ t.hValid = true ∧
        t.outLen = t.h.total.toNat * t.h.channels.toNat) ∧
      (t.produced = 0 ∨
        t.produced ≤ t.h.total.toNat + t.h.blockSize.toNat * t.h.frameSize.toNat - 1)

/-- Every run ends, within the number of steps that 45_sequencer.md R226 infers from the successor rules ("[derived:
from 40_bitreader.md rule R124 and rules R213 to R222]"). -/
def Obligations.EveryRunEndsWithinItsBound : Prop :=
  ∀ (params : Params) (m : Memory), m.wf = true →
    ∃ (n : Nat) (t : State), runFrom n (State.start params m) = .next t ∧ t.Terminal ∧
      n ≤ 1 + 1 + (8 * m.size / 64 + 1) * (5 + t.h.blockSize.toNat * (3 + 2 * t.h.frameSize.toNat))

/-- 43_frame.md R183, R186: one channel. When the stream holds the codewords of any deltas, one for each position of
the frame, decoding the frame gives the running sums, wrapped to 32 bits, in the frame buffer, and the last of
them in the accumulator. -/
def Obligations.MonoFrameDecodesToItsRunningSums : Prop :=
  ∀ (s : State) (ds : List Int), s.phase = .frameDelta → s.ch = 0#2 → s.spos = 0#16 →
    s.h.channels = 1#8 → s.k0 ≠ 0#4 → ds.length = s.h.frameSize.toNat → ds ≠ [] →
    Holds s.inp s.pos (ds.flatMap (codeword s.params.stopBit s.k0)) →
      ∃ t, runFrom ds.length s = .next t ∧ t.phase = .frameEmit ∧
        t.pos = s.pos + (ds.flatMap (codeword s.params.stopBit s.k0)).length ∧
        t.acc0 = wrap32 (s.acc0.toInt + ds.sum) ∧ t.acc1 = s.acc1 ∧ t.out = s.out ∧
        (∀ i < ds.length, t.readFb 0 i = wrap32 (s.acc0.toInt + (ds.take (i + 1)).sum)) ∧
        ∀ i, t.readFb 1 i = s.readFb 1 i

/-- 43_frame.md R185, R183: two channels with codewords in both. The codewords are consumed in the order ch0(pos0),
ch1(pos0), ch0(pos1), ...; each channel's sums are its own. -/
def Obligations.StereoFrameKeepsTheChannelsApart : Prop :=
  ∀ (s : State) (ds : List (Int × Int)) (bits : List Bool),
    s.phase = .frameDelta → s.ch = 0#2 → s.spos = 0#16 →
    s.h.channels = 2#8 → s.k0 ≠ 0#4 → s.k1 ≠ 0#4 → ds.length = s.h.frameSize.toNat → ds ≠ [] →
    bits = ds.flatMap (fun d => codeword s.params.stopBit s.k0 d.1 ++ codeword s.params.stopBit s.k1 d.2) →
    Holds s.inp s.pos bits →
      ∃ t, runFrom (2 * ds.length) s = .next t ∧ t.phase = .frameEmit ∧ t.pos = s.pos + bits.length ∧
        t.acc0 = wrap32 (s.acc0.toInt + (ds.map Prod.fst).sum) ∧
        t.acc1 = wrap32 (s.acc1.toInt + (ds.map Prod.snd).sum) ∧
        ∀ i < ds.length,
          t.readFb 0 i = wrap32 (s.acc0.toInt + ((ds.take (i + 1)).map Prod.fst).sum) ∧
          t.readFb 1 i = wrap32 (s.acc1.toInt + ((ds.take (i + 1)).map Prod.snd).sum)

/-- 43_frame.md R184: a zero frame of one channel yields `H.FRAMESIZE` samples equal to the accumulator, consumes no bit
and leaves the accumulator alone. -/
def Obligations.ZeroFrameRepeatsTheAccumulator : Prop :=
  ∀ s : State, s.phase = .frameDelta → s.ch = 0#2 → s.spos = 0#16 → s.h.channels = 1#8 →
    s.k0 = 0#4 → 0 < s.h.frameSize.toNat →
      ∃ t, runFrom s.h.frameSize.toNat s = .next t ∧ t.phase = .frameEmit ∧ t.pos = s.pos ∧
        t.acc0 = s.acc0 ∧ t.stOvf = s.stOvf ∧ ∀ i < s.h.frameSize.toNat, t.readFb 0 i = s.acc0

/-- The round trip of 95_test_vectors.md S2 (43_frame.md R186, 44_emitter.md R201, R202), for every frame size, width,
lossy count and sequence of deltas: a stream of one channel and one block of one frame decodes to the running
sums of its deltas, rescaled, and ends in `DONE`. -/
def Obligations.OneBlockStreamDecodesToItsSamples : Prop :=
  ∀ (params : Params) (m : Memory) (f : Header) (k : Nibble) (ds : List Int),
    HeaderAccepted f → f.channels = 1#8 → f.blockSize = 1#16 → f.seekEntries = 0#16 → f.gpsp = false →
    f.tagp = false → k ≠ 0#4 → ds.length = f.frameSize.toNat → f.total.toNat = f.frameSize.toNat →
    ds ≠ [] →
    Holds m 0 (headerBits f ++ fieldBits 32 params.syncPattern.toNat ++ fieldBits 32 0
      ++ fieldBits 4 k.toNat ++ ds.flatMap (codeword params.stopBit k)) →
      ∃ t, runFrom (ds.length + 7) (State.start params m) = .next t ∧ t.phase = .done ∧
        t.stDone = true ∧ t.stErr = false ∧ t.expect = 1#32 ∧
        t.out = (List.range ds.length).map fun i =>
          wrap16 ((wrap32 (ds.take (i + 1)).sum).toInt * 2 ^ (f.flags.toNat % 16))
end

