-- ==== Sys2Proof/Laws/Decode.lean ====
section
/-! SUPPORT. The fields, the unary prefix and the encodings: their bounds and on which bits they depend. -/

namespace Sys2Proof

@[simp] theorem memRead_zero (bit : Nat → Bool) (p : Nat) : memRead bit p 0 = 0 := rfl

theorem memRead_succ (bit : Nat → Bool) (p n : Nat) :
    memRead bit p (n + 1) = memRead bit p n + (bit (p + n)).toNat * 2 ^ n := rfl

/-- An n-bit field is below `2^n`. -/
theorem memRead_lt (bit : Nat → Bool) (p n : Nat) : memRead bit p n < 2 ^ n := by
  induction n with
  | zero => simp
  | succ n ih =>
    have hb : (bit (p + n)).toNat ≤ 1 := Bool.toNat_le _
    have := Nat.mul_le_mul_right (2 ^ n) hb
    rw [memRead_succ, pow_succ]
    omega

/-- A field depends on its own bits only. -/
theorem memRead_congr {f g : Nat → Bool} {p p' n : Nat} (h : ∀ j < n, f (p + j) = g (p' + j)) :
    memRead f p n = memRead g p' n := by
  induction n with
  | zero => rfl
  | succ n ih =>
    rw [memRead_succ, memRead_succ, h n (Nat.lt_succ_self n), ih fun j hj => h j (Nat.lt_succ_of_lt hj)]

theorem testBit_mod_split (v n : Nat) : v % 2 ^ (n + 1) = v % 2 ^ n + (v.testBit n).toNat * 2 ^ n := by
  rw [Nat.mod_pow_succ, Nat.testBit_eq_decide_div_mod_eq]
  have : v / 2 ^ n % 2 = 0 ∨ v / 2 ^ n % 2 = 1 := Nat.mod_two_eq_zero_or_one _
  rcases this with h | h <;> simp [h]

/-- Reading the bits of a number gives the number, cut to the field. -/
theorem memRead_testBit (v n : Nat) {f : Nat → Bool} {p : Nat} (h : ∀ j < n, f (p + j) = v.testBit j) :
    memRead f p n = v % 2 ^ n := by
  induction n with
  | zero => simp [Nat.mod_one]
  | succ n ih =>
    rw [memRead_succ, h n (Nat.lt_succ_self n), ih fun j hj => h j (Nat.lt_succ_of_lt hj), testBit_mod_split]

theorem unaryRun_le (stop : Bool) (bit : Nat → Bool) (avail p : Nat) : unaryRun stop bit p avail ≤ avail := by
  induction avail generalizing p with
  | zero => simp [unaryRun]
  | succ n ih =>
    unfold unaryRun
    split
    · exact Nat.zero_le _
    · exact Nat.succ_le_succ (ih _)

/-- What a unary run is: `q` continue bits, and then the stop bit unless the bits are used up. -/
theorem unaryRun_spec (stop : Bool) (bit : Nat → Bool) (avail p : Nat) :
    (∀ j < unaryRun stop bit p avail, bit (p + j) ≠ stop) ∧
      (unaryRun stop bit p avail < avail → bit (p + unaryRun stop bit p avail) = stop) := by
  induction avail generalizing p with
  | zero => simp [unaryRun]
  | succ n ih =>
    unfold unaryRun
    split
    · rename_i h
      simp [h]
    · rename_i h
      obtain ⟨h1, h2⟩ := ih (p + 1)
      refine ⟨fun j hj => ?_, fun hlt => ?_⟩
      · cases j with
        | zero => simpa using h
        | succ j => simpa [Nat.add_assoc, Nat.add_comm 1 j] using h1 j (by omega)
      · have := h2 (by omega)
        rwa [Nat.add_assoc, Nat.add_comm 1] at this

/-- A run that ends inside the bits left is determined by its bits. -/
theorem unaryRun_eq {stop : Bool} {bit : Nat → Bool} {p q : Nat} : ∀ {avail : Nat}, q < avail →
    (∀ j < q, bit (p + j) ≠ stop) → bit (p + q) = stop → unaryRun stop bit p avail = q := by
  intro avail hq hc hs
  have hle := unaryRun_spec stop bit avail p
  rcases Nat.lt_trichotomy (unaryRun stop bit p avail) q with h | h | h
  · exact absurd (hle.2 (lt_trans h hq)) (hc _ h)
  · exact h
  · exact absurd hs (hle.1 _ h)

@[simp] theorem fieldBits_length (n v : Nat) : (fieldBits n v).length = n := by simp [fieldBits]

@[simp] theorem unaryBits_length (stop : Bool) (q : Nat) : (unaryBits stop q).length = q + 1 := by
  simp [unaryBits]

@[simp] theorem headerBits_length (f : Header) : (headerBits f).length = 192 := by simp [headerBits]

theorem bitsOf_append_left {a b : List Bool} {j : Nat} (h : j < a.length) : bitsOf (a ++ b) j = bitsOf a j := by
  simp [bitsOf, List.getD, List.getElem?_append_left h]

theorem bitsOf_append_right (a b : List Bool) (j : Nat) : bitsOf (a ++ b) (a.length + j) = bitsOf b j := by
  simp [bitsOf, List.getD, List.getElem?_append_right]

theorem bitsOf_fieldBits {n v j : Nat} (h : j < n) : bitsOf (fieldBits n v) j = v.testBit j := by
  simp [bitsOf, fieldBits, List.getD, h]

theorem bitsOf_unary_continue {stop : Bool} {q j : Nat} (h : j < q) : bitsOf (unaryBits stop q) j = !stop := by
  rw [unaryBits, bitsOf_append_left (by simpa using h)]
  simp [bitsOf, List.getD, h]

theorem bitsOf_unary_stop (stop : Bool) (q : Nat) : bitsOf (unaryBits stop q) q = stop := by
  simp [bitsOf, unaryBits, List.getD]

end Sys2Proof
end

