-- ==== Sys2Proof/Laws/State.lean ====
section
/-! SUPPORT. What each named update of the state does to each field. -/

namespace Sys2Proof.Machine

/-! ### `State.setAcc` -/

@[simp] theorem State.setAcc_acc0 (s : State) (c : Chan) (v : Word) :
    (s.setAcc c v).acc0 = if c = .c0 then v else s.acc0 := rfl
@[simp] theorem State.setAcc_acc1 (s : State) (c : Chan) (v : Word) :
    (s.setAcc c v).acc1 = if c = .c1 then v else s.acc1 := rfl
@[simp] theorem State.setAcc_k0 (s : State) (c : Chan) (v : Word) :
    (s.setAcc c v).k0 = s.k0 := rfl
@[simp] theorem State.setAcc_k1 (s : State) (c : Chan) (v : Word) :
    (s.setAcc c v).k1 = s.k1 := rfl
@[simp] theorem State.setAcc_pos (s : State) (c : Chan) (v : Word) :
    (s.setAcc c v).pos = s.pos := rfl
@[simp] theorem State.setAcc_phase (s : State) (c : Chan) (v : Word) :
    (s.setAcc c v).phase = s.phase := rfl
@[simp] theorem State.setAcc_frm (s : State) (c : Chan) (v : Word) :
    (s.setAcc c v).frm = s.frm := rfl
@[simp] theorem State.setAcc_spos (s : State) (c : Chan) (v : Word) :
    (s.setAcc c v).spos = s.spos := rfl
@[simp] theorem State.setAcc_ch (s : State) (c : Chan) (v : Word) :
    (s.setAcc c v).ch = s.ch := rfl
@[simp] theorem State.setAcc_stDone (s : State) (c : Chan) (v : Word) :
    (s.setAcc c v).stDone = s.stDone := rfl
@[simp] theorem State.setAcc_stErr (s : State) (c : Chan) (v : Word) :
    (s.setAcc c v).stErr = s.stErr := rfl
@[simp] theorem State.setAcc_stOvf (s : State) (c : Chan) (v : Word) :
    (s.setAcc c v).stOvf = s.stOvf := rfl
@[simp] theorem State.setAcc_stUgps (s : State) (c : Chan) (v : Word) :
    (s.setAcc c v).stUgps = s.stUgps := rfl
@[simp] theorem State.setAcc_stUtag (s : State) (c : Chan) (v : Word) :
    (s.setAcc c v).stUtag = s.stUtag := rfl
@[simp] theorem State.setAcc_stUzero (s : State) (c : Chan) (v : Word) :
    (s.setAcc c v).stUzero = s.stUzero := rfl
@[simp] theorem State.setAcc_h (s : State) (c : Chan) (v : Word) :
    (s.setAcc c v).h = s.h := rfl
@[simp] theorem State.setAcc_hValid (s : State) (c : Chan) (v : Word) :
    (s.setAcc c v).hValid = s.hValid := rfl
@[simp] theorem State.setAcc_expect (s : State) (c : Chan) (v : Word) :
    (s.setAcc c v).expect = s.expect := rfl
@[simp] theorem State.setAcc_produced (s : State) (c : Chan) (v : Word) :
    (s.setAcc c v).produced = s.produced := rfl
@[simp] theorem State.setAcc_errCode (s : State) (c : Chan) (v : Word) :
    (s.setAcc c v).errCode = s.errCode := rfl
@[simp] theorem State.setAcc_errSub (s : State) (c : Chan) (v : Word) :
    (s.setAcc c v).errSub = s.errSub := rfl
@[simp] theorem State.setAcc_errBlock (s : State) (c : Chan) (v : Word) :
    (s.setAcc c v).errBlock = s.errBlock := rfl
@[simp] theorem State.setAcc_errBit (s : State) (c : Chan) (v : Word) :
    (s.setAcc c v).errBit = s.errBit := rfl
@[simp] theorem State.setAcc_errByte (s : State) (c : Chan) (v : Word) :
    (s.setAcc c v).errByte = s.errByte := rfl
@[simp] theorem State.setAcc_gpsLat (s : State) (c : Chan) (v : Word) :
    (s.setAcc c v).gpsLat = s.gpsLat := rfl
@[simp] theorem State.setAcc_gpsLon (s : State) (c : Chan) (v : Word) :
    (s.setAcc c v).gpsLon = s.gpsLon := rfl
@[simp] theorem State.setAcc_gpsBlk (s : State) (c : Chan) (v : Word) :
    (s.setAcc c v).gpsBlk = s.gpsBlk := rfl
@[simp] theorem State.setAcc_gpsV (s : State) (c : Chan) (v : Word) :
    (s.setAcc c v).gpsV = s.gpsV := rfl
@[simp] theorem State.setAcc_tag (s : State) (c : Chan) (v : Word) :
    (s.setAcc c v).tag = s.tag := rfl
@[simp] theorem State.setAcc_tagBlk (s : State) (c : Chan) (v : Word) :
    (s.setAcc c v).tagBlk = s.tagBlk := rfl
@[simp] theorem State.setAcc_tagV (s : State) (c : Chan) (v : Word) :
    (s.setAcc c v).tagV = s.tagV := rfl
@[simp] theorem State.setAcc_fb0 (s : State) (c : Chan) (v : Word) :
    (s.setAcc c v).fb0 = s.fb0 := rfl
@[simp] theorem State.setAcc_fb1 (s : State) (c : Chan) (v : Word) :
    (s.setAcc c v).fb1 = s.fb1 := rfl
@[simp] theorem State.setAcc_out (s : State) (c : Chan) (v : Word) :
    (s.setAcc c v).out = s.out := rfl
@[simp] theorem State.setAcc_side (s : State) (c : Chan) (v : Word) :
    (s.setAcc c v).side = s.side := rfl
@[simp] theorem State.setAcc_params (s : State) (c : Chan) (v : Word) :
    (s.setAcc c v).params = s.params := rfl
@[simp] theorem State.setAcc_inp (s : State) (c : Chan) (v : Word) :
    (s.setAcc c v).inp = s.inp := rfl

/-! ### `State.setK` -/

@[simp] theorem State.setK_acc0 (s : State) (c : Chan) (v : Nibble) :
    (s.setK c v).acc0 = s.acc0 := rfl
@[simp] theorem State.setK_acc1 (s : State) (c : Chan) (v : Nibble) :
    (s.setK c v).acc1 = s.acc1 := rfl
@[simp] theorem State.setK_k0 (s : State) (c : Chan) (v : Nibble) :
    (s.setK c v).k0 = if c = .c0 then v else s.k0 := rfl
@[simp] theorem State.setK_k1 (s : State) (c : Chan) (v : Nibble) :
    (s.setK c v).k1 = if c = .c1 then v else s.k1 := rfl
@[simp] theorem State.setK_pos (s : State) (c : Chan) (v : Nibble) :
    (s.setK c v).pos = s.pos := rfl
@[simp] theorem State.setK_phase (s : State) (c : Chan) (v : Nibble) :
    (s.setK c v).phase = s.phase := rfl
@[simp] theorem State.setK_frm (s : State) (c : Chan) (v : Nibble) :
    (s.setK c v).frm = s.frm := rfl
@[simp] theorem State.setK_spos (s : State) (c : Chan) (v : Nibble) :
    (s.setK c v).spos = s.spos := rfl
@[simp] theorem State.setK_ch (s : State) (c : Chan) (v : Nibble) :
    (s.setK c v).ch = s.ch := rfl
@[simp] theorem State.setK_stDone (s : State) (c : Chan) (v : Nibble) :
    (s.setK c v).stDone = s.stDone := rfl
@[simp] theorem State.setK_stErr (s : State) (c : Chan) (v : Nibble) :
    (s.setK c v).stErr = s.stErr := rfl
@[simp] theorem State.setK_stOvf (s : State) (c : Chan) (v : Nibble) :
    (s.setK c v).stOvf = s.stOvf := rfl
@[simp] theorem State.setK_stUgps (s : State) (c : Chan) (v : Nibble) :
    (s.setK c v).stUgps = s.stUgps := rfl
@[simp] theorem State.setK_stUtag (s : State) (c : Chan) (v : Nibble) :
    (s.setK c v).stUtag = s.stUtag := rfl
@[simp] theorem State.setK_stUzero (s : State) (c : Chan) (v : Nibble) :
    (s.setK c v).stUzero = s.stUzero := rfl
@[simp] theorem State.setK_h (s : State) (c : Chan) (v : Nibble) :
    (s.setK c v).h = s.h := rfl
@[simp] theorem State.setK_hValid (s : State) (c : Chan) (v : Nibble) :
    (s.setK c v).hValid = s.hValid := rfl
@[simp] theorem State.setK_expect (s : State) (c : Chan) (v : Nibble) :
    (s.setK c v).expect = s.expect := rfl
@[simp] theorem State.setK_produced (s : State) (c : Chan) (v : Nibble) :
    (s.setK c v).produced = s.produced := rfl
@[simp] theorem State.setK_errCode (s : State) (c : Chan) (v : Nibble) :
    (s.setK c v).errCode = s.errCode := rfl
@[simp] theorem State.setK_errSub (s : State) (c : Chan) (v : Nibble) :
    (s.setK c v).errSub = s.errSub := rfl
@[simp] theorem State.setK_errBlock (s : State) (c : Chan) (v : Nibble) :
    (s.setK c v).errBlock = s.errBlock := rfl
@[simp] theorem State.setK_errBit (s : State) (c : Chan) (v : Nibble) :
    (s.setK c v).errBit = s.errBit := rfl
@[simp] theorem State.setK_errByte (s : State) (c : Chan) (v : Nibble) :
    (s.setK c v).errByte = s.errByte := rfl
@[simp] theorem State.setK_gpsLat (s : State) (c : Chan) (v : Nibble) :
    (s.setK c v).gpsLat = s.gpsLat := rfl
@[simp] theorem State.setK_gpsLon (s : State) (c : Chan) (v : Nibble) :
    (s.setK c v).gpsLon = s.gpsLon := rfl
@[simp] theorem State.setK_gpsBlk (s : State) (c : Chan) (v : Nibble) :
    (s.setK c v).gpsBlk = s.gpsBlk := rfl
@[simp] theorem State.setK_gpsV (s : State) (c : Chan) (v : Nibble) :
    (s.setK c v).gpsV = s.gpsV := rfl
@[simp] theorem State.setK_tag (s : State) (c : Chan) (v : Nibble) :
    (s.setK c v).tag = s.tag := rfl
@[simp] theorem State.setK_tagBlk (s : State) (c : Chan) (v : Nibble) :
    (s.setK c v).tagBlk = s.tagBlk := rfl
@[simp] theorem State.setK_tagV (s : State) (c : Chan) (v : Nibble) :
    (s.setK c v).tagV = s.tagV := rfl
@[simp] theorem State.setK_fb0 (s : State) (c : Chan) (v : Nibble) :
    (s.setK c v).fb0 = s.fb0 := rfl
@[simp] theorem State.setK_fb1 (s : State) (c : Chan) (v : Nibble) :
    (s.setK c v).fb1 = s.fb1 := rfl
@[simp] theorem State.setK_out (s : State) (c : Chan) (v : Nibble) :
    (s.setK c v).out = s.out := rfl
@[simp] theorem State.setK_side (s : State) (c : Chan) (v : Nibble) :
    (s.setK c v).side = s.side := rfl
@[simp] theorem State.setK_params (s : State) (c : Chan) (v : Nibble) :
    (s.setK c v).params = s.params := rfl
@[simp] theorem State.setK_inp (s : State) (c : Chan) (v : Nibble) :
    (s.setK c v).inp = s.inp := rfl

/-! ### `State.writeFb` -/

@[simp] theorem State.writeFb_acc0 (s : State) (c : Chan) (v : Word) :
    (s.writeFb c v).acc0 = s.acc0 := rfl
@[simp] theorem State.writeFb_acc1 (s : State) (c : Chan) (v : Word) :
    (s.writeFb c v).acc1 = s.acc1 := rfl
@[simp] theorem State.writeFb_k0 (s : State) (c : Chan) (v : Word) :
    (s.writeFb c v).k0 = s.k0 := rfl
@[simp] theorem State.writeFb_k1 (s : State) (c : Chan) (v : Word) :
    (s.writeFb c v).k1 = s.k1 := rfl
@[simp] theorem State.writeFb_pos (s : State) (c : Chan) (v : Word) :
    (s.writeFb c v).pos = s.pos := rfl
@[simp] theorem State.writeFb_phase (s : State) (c : Chan) (v : Word) :
    (s.writeFb c v).phase = s.phase := rfl
@[simp] theorem State.writeFb_frm (s : State) (c : Chan) (v : Word) :
    (s.writeFb c v).frm = s.frm := rfl
@[simp] theorem State.writeFb_spos (s : State) (c : Chan) (v : Word) :
    (s.writeFb c v).spos = s.spos := rfl
@[simp] theorem State.writeFb_ch (s : State) (c : Chan) (v : Word) :
    (s.writeFb c v).ch = s.ch := rfl
@[simp] theorem State.writeFb_stDone (s : State) (c : Chan) (v : Word) :
    (s.writeFb c v).stDone = s.stDone := rfl
@[simp] theorem State.writeFb_stErr (s : State) (c : Chan) (v : Word) :
    (s.writeFb c v).stErr = s.stErr := rfl
@[simp] theorem State.writeFb_stOvf (s : State) (c : Chan) (v : Word) :
    (s.writeFb c v).stOvf = s.stOvf := rfl
@[simp] theorem State.writeFb_stUgps (s : State) (c : Chan) (v : Word) :
    (s.writeFb c v).stUgps = s.stUgps := rfl
@[simp] theorem State.writeFb_stUtag (s : State) (c : Chan) (v : Word) :
    (s.writeFb c v).stUtag = s.stUtag := rfl
@[simp] theorem State.writeFb_stUzero (s : State) (c : Chan) (v : Word) :
    (s.writeFb c v).stUzero = s.stUzero := rfl
@[simp] theorem State.writeFb_h (s : State) (c : Chan) (v : Word) :
    (s.writeFb c v).h = s.h := rfl
@[simp] theorem State.writeFb_hValid (s : State) (c : Chan) (v : Word) :
    (s.writeFb c v).hValid = s.hValid := rfl
@[simp] theorem State.writeFb_expect (s : State) (c : Chan) (v : Word) :
    (s.writeFb c v).expect = s.expect := rfl
@[simp] theorem State.writeFb_produced (s : State) (c : Chan) (v : Word) :
    (s.writeFb c v).produced = s.produced := rfl
@[simp] theorem State.writeFb_errCode (s : State) (c : Chan) (v : Word) :
    (s.writeFb c v).errCode = s.errCode := rfl
@[simp] theorem State.writeFb_errSub (s : State) (c : Chan) (v : Word) :
    (s.writeFb c v).errSub = s.errSub := rfl
@[simp] theorem State.writeFb_errBlock (s : State) (c : Chan) (v : Word) :
    (s.writeFb c v).errBlock = s.errBlock := rfl
@[simp] theorem State.writeFb_errBit (s : State) (c : Chan) (v : Word) :
    (s.writeFb c v).errBit = s.errBit := rfl
@[simp] theorem State.writeFb_errByte (s : State) (c : Chan) (v : Word) :
    (s.writeFb c v).errByte = s.errByte := rfl
@[simp] theorem State.writeFb_gpsLat (s : State) (c : Chan) (v : Word) :
    (s.writeFb c v).gpsLat = s.gpsLat := rfl
@[simp] theorem State.writeFb_gpsLon (s : State) (c : Chan) (v : Word) :
    (s.writeFb c v).gpsLon = s.gpsLon := rfl
@[simp] theorem State.writeFb_gpsBlk (s : State) (c : Chan) (v : Word) :
    (s.writeFb c v).gpsBlk = s.gpsBlk := rfl
@[simp] theorem State.writeFb_gpsV (s : State) (c : Chan) (v : Word) :
    (s.writeFb c v).gpsV = s.gpsV := rfl
@[simp] theorem State.writeFb_tag (s : State) (c : Chan) (v : Word) :
    (s.writeFb c v).tag = s.tag := rfl
@[simp] theorem State.writeFb_tagBlk (s : State) (c : Chan) (v : Word) :
    (s.writeFb c v).tagBlk = s.tagBlk := rfl
@[simp] theorem State.writeFb_tagV (s : State) (c : Chan) (v : Word) :
    (s.writeFb c v).tagV = s.tagV := rfl
@[simp] theorem State.writeFb_fb0 (s : State) (c : Chan) (v : Word) :
    (s.writeFb c v).fb0 = if c = .c0 then insertEntry s.spos.toNat v s.fb0 else s.fb0 := rfl
@[simp] theorem State.writeFb_fb1 (s : State) (c : Chan) (v : Word) :
    (s.writeFb c v).fb1 = if c = .c1 then insertEntry s.spos.toNat v s.fb1 else s.fb1 := rfl
@[simp] theorem State.writeFb_out (s : State) (c : Chan) (v : Word) :
    (s.writeFb c v).out = s.out := rfl
@[simp] theorem State.writeFb_side (s : State) (c : Chan) (v : Word) :
    (s.writeFb c v).side = s.side := rfl
@[simp] theorem State.writeFb_params (s : State) (c : Chan) (v : Word) :
    (s.writeFb c v).params = s.params := rfl
@[simp] theorem State.writeFb_inp (s : State) (c : Chan) (v : Word) :
    (s.writeFb c v).inp = s.inp := rfl

/-! ### `State.noteOvf` -/

@[simp] theorem State.noteOvf_acc0 (s : State) (b : Bool) :
    (s.noteOvf b).acc0 = s.acc0 := rfl
@[simp] theorem State.noteOvf_acc1 (s : State) (b : Bool) :
    (s.noteOvf b).acc1 = s.acc1 := rfl
@[simp] theorem State.noteOvf_k0 (s : State) (b : Bool) :
    (s.noteOvf b).k0 = s.k0 := rfl
@[simp] theorem State.noteOvf_k1 (s : State) (b : Bool) :
    (s.noteOvf b).k1 = s.k1 := rfl
@[simp] theorem State.noteOvf_pos (s : State) (b : Bool) :
    (s.noteOvf b).pos = s.pos := rfl
@[simp] theorem State.noteOvf_phase (s : State) (b : Bool) :
    (s.noteOvf b).phase = s.phase := rfl
@[simp] theorem State.noteOvf_frm (s : State) (b : Bool) :
    (s.noteOvf b).frm = s.frm := rfl
@[simp] theorem State.noteOvf_spos (s : State) (b : Bool) :
    (s.noteOvf b).spos = s.spos := rfl
@[simp] theorem State.noteOvf_ch (s : State) (b : Bool) :
    (s.noteOvf b).ch = s.ch := rfl
@[simp] theorem State.noteOvf_stDone (s : State) (b : Bool) :
    (s.noteOvf b).stDone = s.stDone := rfl
@[simp] theorem State.noteOvf_stErr (s : State) (b : Bool) :
    (s.noteOvf b).stErr = s.stErr := rfl
@[simp] theorem State.noteOvf_stOvf (s : State) (b : Bool) :
    (s.noteOvf b).stOvf = (s.stOvf || b) := rfl
@[simp] theorem State.noteOvf_stUgps (s : State) (b : Bool) :
    (s.noteOvf b).stUgps = s.stUgps := rfl
@[simp] theorem State.noteOvf_stUtag (s : State) (b : Bool) :
    (s.noteOvf b).stUtag = s.stUtag := rfl
@[simp] theorem State.noteOvf_stUzero (s : State) (b : Bool) :
    (s.noteOvf b).stUzero = s.stUzero := rfl
@[simp] theorem State.noteOvf_h (s : State) (b : Bool) :
    (s.noteOvf b).h = s.h := rfl
@[simp] theorem State.noteOvf_hValid (s : State) (b : Bool) :
    (s.noteOvf b).hValid = s.hValid := rfl
@[simp] theorem State.noteOvf_expect (s : State) (b : Bool) :
    (s.noteOvf b).expect = s.expect := rfl
@[simp] theorem State.noteOvf_produced (s : State) (b : Bool) :
    (s.noteOvf b).produced = s.produced := rfl
@[simp] theorem State.noteOvf_errCode (s : State) (b : Bool) :
    (s.noteOvf b).errCode = s.errCode := rfl
@[simp] theorem State.noteOvf_errSub (s : State) (b : Bool) :
    (s.noteOvf b).errSub = s.errSub := rfl
@[simp] theorem State.noteOvf_errBlock (s : State) (b : Bool) :
    (s.noteOvf b).errBlock = s.errBlock := rfl
@[simp] theorem State.noteOvf_errBit (s : State) (b : Bool) :
    (s.noteOvf b).errBit = s.errBit := rfl
@[simp] theorem State.noteOvf_errByte (s : State) (b : Bool) :
    (s.noteOvf b).errByte = s.errByte := rfl
@[simp] theorem State.noteOvf_gpsLat (s : State) (b : Bool) :
    (s.noteOvf b).gpsLat = s.gpsLat := rfl
@[simp] theorem State.noteOvf_gpsLon (s : State) (b : Bool) :
    (s.noteOvf b).gpsLon = s.gpsLon := rfl
@[simp] theorem State.noteOvf_gpsBlk (s : State) (b : Bool) :
    (s.noteOvf b).gpsBlk = s.gpsBlk := rfl
@[simp] theorem State.noteOvf_gpsV (s : State) (b : Bool) :
    (s.noteOvf b).gpsV = s.gpsV := rfl
@[simp] theorem State.noteOvf_tag (s : State) (b : Bool) :
    (s.noteOvf b).tag = s.tag := rfl
@[simp] theorem State.noteOvf_tagBlk (s : State) (b : Bool) :
    (s.noteOvf b).tagBlk = s.tagBlk := rfl
@[simp] theorem State.noteOvf_tagV (s : State) (b : Bool) :
    (s.noteOvf b).tagV = s.tagV := rfl
@[simp] theorem State.noteOvf_fb0 (s : State) (b : Bool) :
    (s.noteOvf b).fb0 = s.fb0 := rfl
@[simp] theorem State.noteOvf_fb1 (s : State) (b : Bool) :
    (s.noteOvf b).fb1 = s.fb1 := rfl
@[simp] theorem State.noteOvf_out (s : State) (b : Bool) :
    (s.noteOvf b).out = s.out := rfl
@[simp] theorem State.noteOvf_side (s : State) (b : Bool) :
    (s.noteOvf b).side = s.side := rfl
@[simp] theorem State.noteOvf_params (s : State) (b : Bool) :
    (s.noteOvf b).params = s.params := rfl
@[simp] theorem State.noteOvf_inp (s : State) (b : Bool) :
    (s.noteOvf b).inp = s.inp := rfl

/-! ### `State.goto` -/

@[simp] theorem State.goto_acc0 (s : State) (ph : Phase) :
    (s.goto ph).acc0 = s.acc0 := rfl
@[simp] theorem State.goto_acc1 (s : State) (ph : Phase) :
    (s.goto ph).acc1 = s.acc1 := rfl
@[simp] theorem State.goto_k0 (s : State) (ph : Phase) :
    (s.goto ph).k0 = s.k0 := rfl
@[simp] theorem State.goto_k1 (s : State) (ph : Phase) :
    (s.goto ph).k1 = s.k1 := rfl
@[simp] theorem State.goto_pos (s : State) (ph : Phase) :
    (s.goto ph).pos = s.pos := rfl
@[simp] theorem State.goto_phase (s : State) (ph : Phase) :
    (s.goto ph).phase = ph := rfl
@[simp] theorem State.goto_frm (s : State) (ph : Phase) :
    (s.goto ph).frm = s.frm := rfl
@[simp] theorem State.goto_spos (s : State) (ph : Phase) :
    (s.goto ph).spos = s.spos := rfl
@[simp] theorem State.goto_ch (s : State) (ph : Phase) :
    (s.goto ph).ch = s.ch := rfl
@[simp] theorem State.goto_stDone (s : State) (ph : Phase) :
    (s.goto ph).stDone = s.stDone := rfl
@[simp] theorem State.goto_stErr (s : State) (ph : Phase) :
    (s.goto ph).stErr = s.stErr := rfl
@[simp] theorem State.goto_stOvf (s : State) (ph : Phase) :
    (s.goto ph).stOvf = s.stOvf := rfl
@[simp] theorem State.goto_stUgps (s : State) (ph : Phase) :
    (s.goto ph).stUgps = s.stUgps := rfl
@[simp] theorem State.goto_stUtag (s : State) (ph : Phase) :
    (s.goto ph).stUtag = s.stUtag := rfl
@[simp] theorem State.goto_stUzero (s : State) (ph : Phase) :
    (s.goto ph).stUzero = s.stUzero := rfl
@[simp] theorem State.goto_h (s : State) (ph : Phase) :
    (s.goto ph).h = s.h := rfl
@[simp] theorem State.goto_hValid (s : State) (ph : Phase) :
    (s.goto ph).hValid = s.hValid := rfl
@[simp] theorem State.goto_expect (s : State) (ph : Phase) :
    (s.goto ph).expect = s.expect := rfl
@[simp] theorem State.goto_produced (s : State) (ph : Phase) :
    (s.goto ph).produced = s.produced := rfl
@[simp] theorem State.goto_errCode (s : State) (ph : Phase) :
    (s.goto ph).errCode = s.errCode := rfl
@[simp] theorem State.goto_errSub (s : State) (ph : Phase) :
    (s.goto ph).errSub = s.errSub := rfl
@[simp] theorem State.goto_errBlock (s : State) (ph : Phase) :
    (s.goto ph).errBlock = s.errBlock := rfl
@[simp] theorem State.goto_errBit (s : State) (ph : Phase) :
    (s.goto ph).errBit = s.errBit := rfl
@[simp] theorem State.goto_errByte (s : State) (ph : Phase) :
    (s.goto ph).errByte = s.errByte := rfl
@[simp] theorem State.goto_gpsLat (s : State) (ph : Phase) :
    (s.goto ph).gpsLat = s.gpsLat := rfl
@[simp] theorem State.goto_gpsLon (s : State) (ph : Phase) :
    (s.goto ph).gpsLon = s.gpsLon := rfl
@[simp] theorem State.goto_gpsBlk (s : State) (ph : Phase) :
    (s.goto ph).gpsBlk = s.gpsBlk := rfl
@[simp] theorem State.goto_gpsV (s : State) (ph : Phase) :
    (s.goto ph).gpsV = s.gpsV := rfl
@[simp] theorem State.goto_tag (s : State) (ph : Phase) :
    (s.goto ph).tag = s.tag := rfl
@[simp] theorem State.goto_tagBlk (s : State) (ph : Phase) :
    (s.goto ph).tagBlk = s.tagBlk := rfl
@[simp] theorem State.goto_tagV (s : State) (ph : Phase) :
    (s.goto ph).tagV = s.tagV := rfl
@[simp] theorem State.goto_fb0 (s : State) (ph : Phase) :
    (s.goto ph).fb0 = s.fb0 := rfl
@[simp] theorem State.goto_fb1 (s : State) (ph : Phase) :
    (s.goto ph).fb1 = s.fb1 := rfl
@[simp] theorem State.goto_out (s : State) (ph : Phase) :
    (s.goto ph).out = s.out := rfl
@[simp] theorem State.goto_side (s : State) (ph : Phase) :
    (s.goto ph).side = s.side := rfl
@[simp] theorem State.goto_params (s : State) (ph : Phase) :
    (s.goto ph).params = s.params := rfl
@[simp] theorem State.goto_inp (s : State) (ph : Phase) :
    (s.goto ph).inp = s.inp := rfl

/-! ### `State.advance` -/

@[simp] theorem State.advance_acc0 (s : State) (n : Nat) :
    (s.advance n).acc0 = s.acc0 := rfl
@[simp] theorem State.advance_acc1 (s : State) (n : Nat) :
    (s.advance n).acc1 = s.acc1 := rfl
@[simp] theorem State.advance_k0 (s : State) (n : Nat) :
    (s.advance n).k0 = s.k0 := rfl
@[simp] theorem State.advance_k1 (s : State) (n : Nat) :
    (s.advance n).k1 = s.k1 := rfl
@[simp] theorem State.advance_pos (s : State) (n : Nat) :
    (s.advance n).pos = s.pos + n := rfl
@[simp] theorem State.advance_phase (s : State) (n : Nat) :
    (s.advance n).phase = s.phase := rfl
@[simp] theorem State.advance_frm (s : State) (n : Nat) :
    (s.advance n).frm = s.frm := rfl
@[simp] theorem State.advance_spos (s : State) (n : Nat) :
    (s.advance n).spos = s.spos := rfl
@[simp] theorem State.advance_ch (s : State) (n : Nat) :
    (s.advance n).ch = s.ch := rfl
@[simp] theorem State.advance_stDone (s : State) (n : Nat) :
    (s.advance n).stDone = s.stDone := rfl
@[simp] theorem State.advance_stErr (s : State) (n : Nat) :
    (s.advance n).stErr = s.stErr := rfl
@[simp] theorem State.advance_stOvf (s : State) (n : Nat) :
    (s.advance n).stOvf = s.stOvf := rfl
@[simp] theorem State.advance_stUgps (s : State) (n : Nat) :
    (s.advance n).stUgps = s.stUgps := rfl
@[simp] theorem State.advance_stUtag (s : State) (n : Nat) :
    (s.advance n).stUtag = s.stUtag := rfl
@[simp] theorem State.advance_stUzero (s : State) (n : Nat) :
    (s.advance n).stUzero = s.stUzero := rfl
@[simp] theorem State.advance_h (s : State) (n : Nat) :
    (s.advance n).h = s.h := rfl
@[simp] theorem State.advance_hValid (s : State) (n : Nat) :
    (s.advance n).hValid = s.hValid := rfl
@[simp] theorem State.advance_expect (s : State) (n : Nat) :
    (s.advance n).expect = s.expect := rfl
@[simp] theorem State.advance_produced (s : State) (n : Nat) :
    (s.advance n).produced = s.produced := rfl
@[simp] theorem State.advance_errCode (s : State) (n : Nat) :
    (s.advance n).errCode = s.errCode := rfl
@[simp] theorem State.advance_errSub (s : State) (n : Nat) :
    (s.advance n).errSub = s.errSub := rfl
@[simp] theorem State.advance_errBlock (s : State) (n : Nat) :
    (s.advance n).errBlock = s.errBlock := rfl
@[simp] theorem State.advance_errBit (s : State) (n : Nat) :
    (s.advance n).errBit = s.errBit := rfl
@[simp] theorem State.advance_errByte (s : State) (n : Nat) :
    (s.advance n).errByte = s.errByte := rfl
@[simp] theorem State.advance_gpsLat (s : State) (n : Nat) :
    (s.advance n).gpsLat = s.gpsLat := rfl
@[simp] theorem State.advance_gpsLon (s : State) (n : Nat) :
    (s.advance n).gpsLon = s.gpsLon := rfl
@[simp] theorem State.advance_gpsBlk (s : State) (n : Nat) :
    (s.advance n).gpsBlk = s.gpsBlk := rfl
@[simp] theorem State.advance_gpsV (s : State) (n : Nat) :
    (s.advance n).gpsV = s.gpsV := rfl
@[simp] theorem State.advance_tag (s : State) (n : Nat) :
    (s.advance n).tag = s.tag := rfl
@[simp] theorem State.advance_tagBlk (s : State) (n : Nat) :
    (s.advance n).tagBlk = s.tagBlk := rfl
@[simp] theorem State.advance_tagV (s : State) (n : Nat) :
    (s.advance n).tagV = s.tagV := rfl
@[simp] theorem State.advance_fb0 (s : State) (n : Nat) :
    (s.advance n).fb0 = s.fb0 := rfl
@[simp] theorem State.advance_fb1 (s : State) (n : Nat) :
    (s.advance n).fb1 = s.fb1 := rfl
@[simp] theorem State.advance_out (s : State) (n : Nat) :
    (s.advance n).out = s.out := rfl
@[simp] theorem State.advance_side (s : State) (n : Nat) :
    (s.advance n).side = s.side := rfl
@[simp] theorem State.advance_params (s : State) (n : Nat) :
    (s.advance n).params = s.params := rfl
@[simp] theorem State.advance_inp (s : State) (n : Nat) :
    (s.advance n).inp = s.inp := rfl

/-! ### `State.takeFault` -/

@[simp] theorem State.takeFault_acc0 (s : State) (c : Cause) :
    (s.takeFault c).acc0 = s.acc0 := rfl
@[simp] theorem State.takeFault_acc1 (s : State) (c : Cause) :
    (s.takeFault c).acc1 = s.acc1 := rfl
@[simp] theorem State.takeFault_k0 (s : State) (c : Cause) :
    (s.takeFault c).k0 = s.k0 := rfl
@[simp] theorem State.takeFault_k1 (s : State) (c : Cause) :
    (s.takeFault c).k1 = s.k1 := rfl
@[simp] theorem State.takeFault_pos (s : State) (c : Cause) :
    (s.takeFault c).pos = s.pos := rfl
@[simp] theorem State.takeFault_phase (s : State) (c : Cause) :
    (s.takeFault c).phase = .fault := rfl
@[simp] theorem State.takeFault_frm (s : State) (c : Cause) :
    (s.takeFault c).frm = s.frm := rfl
@[simp] theorem State.takeFault_spos (s : State) (c : Cause) :
    (s.takeFault c).spos = s.spos := rfl
@[simp] theorem State.takeFault_ch (s : State) (c : Cause) :
    (s.takeFault c).ch = s.ch := rfl
@[simp] theorem State.takeFault_stDone (s : State) (c : Cause) :
    (s.takeFault c).stDone = s.stDone := rfl
@[simp] theorem State.takeFault_stErr (s : State) (c : Cause) :
    (s.takeFault c).stErr = true := rfl
@[simp] theorem State.takeFault_stOvf (s : State) (c : Cause) :
    (s.takeFault c).stOvf = s.stOvf := rfl
@[simp] theorem State.takeFault_stUgps (s : State) (c : Cause) :
    (s.takeFault c).stUgps = s.stUgps := rfl
@[simp] theorem State.takeFault_stUtag (s : State) (c : Cause) :
    (s.takeFault c).stUtag = s.stUtag := rfl
@[simp] theorem State.takeFault_stUzero (s : State) (c : Cause) :
    (s.takeFault c).stUzero = s.stUzero := rfl
@[simp] theorem State.takeFault_h (s : State) (c : Cause) :
    (s.takeFault c).h = s.h := rfl
@[simp] theorem State.takeFault_hValid (s : State) (c : Cause) :
    (s.takeFault c).hValid = s.hValid := rfl
@[simp] theorem State.takeFault_expect (s : State) (c : Cause) :
    (s.takeFault c).expect = s.expect := rfl
@[simp] theorem State.takeFault_produced (s : State) (c : Cause) :
    (s.takeFault c).produced = s.produced := rfl
@[simp] theorem State.takeFault_errCode (s : State) (c : Cause) :
    (s.takeFault c).errCode = c.code := rfl
@[simp] theorem State.takeFault_errSub (s : State) (c : Cause) :
    (s.takeFault c).errSub = c.sub := rfl
@[simp] theorem State.takeFault_errBlock (s : State) (c : Cause) :
    (s.takeFault c).errBlock = s.expect := rfl
@[simp] theorem State.takeFault_errBit (s : State) (c : Cause) :
    (s.takeFault c).errBit = s.pos := rfl
@[simp] theorem State.takeFault_errByte (s : State) (c : Cause) :
    (s.takeFault c).errByte = s.pos / 8 := rfl
@[simp] theorem State.takeFault_gpsLat (s : State) (c : Cause) :
    (s.takeFault c).gpsLat = s.gpsLat := rfl
@[simp] theorem State.takeFault_gpsLon (s : State) (c : Cause) :
    (s.takeFault c).gpsLon = s.gpsLon := rfl
@[simp] theorem State.takeFault_gpsBlk (s : State) (c : Cause) :
    (s.takeFault c).gpsBlk = s.gpsBlk := rfl
@[simp] theorem State.takeFault_gpsV (s : State) (c : Cause) :
    (s.takeFault c).gpsV = s.gpsV := rfl
@[simp] theorem State.takeFault_tag (s : State) (c : Cause) :
    (s.takeFault c).tag = s.tag := rfl
@[simp] theorem State.takeFault_tagBlk (s : State) (c : Cause) :
    (s.takeFault c).tagBlk = s.tagBlk := rfl
@[simp] theorem State.takeFault_tagV (s : State) (c : Cause) :
    (s.takeFault c).tagV = s.tagV := rfl
@[simp] theorem State.takeFault_fb0 (s : State) (c : Cause) :
    (s.takeFault c).fb0 = s.fb0 := rfl
@[simp] theorem State.takeFault_fb1 (s : State) (c : Cause) :
    (s.takeFault c).fb1 = s.fb1 := rfl
@[simp] theorem State.takeFault_out (s : State) (c : Cause) :
    (s.takeFault c).out = s.out := rfl
@[simp] theorem State.takeFault_side (s : State) (c : Cause) :
    (s.takeFault c).side = s.side := rfl
@[simp] theorem State.takeFault_params (s : State) (c : Cause) :
    (s.takeFault c).params = s.params := rfl
@[simp] theorem State.takeFault_inp (s : State) (c : Cause) :
    (s.takeFault c).inp = s.inp := rfl

/-! ### `State.captureGps` -/

@[simp] theorem State.captureGps_acc0 (s : State) (lat : Int) (lon : Int) :
    (s.captureGps lat lon).acc0 = s.acc0 := rfl
@[simp] theorem State.captureGps_acc1 (s : State) (lat : Int) (lon : Int) :
    (s.captureGps lat lon).acc1 = s.acc1 := rfl
@[simp] theorem State.captureGps_k0 (s : State) (lat : Int) (lon : Int) :
    (s.captureGps lat lon).k0 = s.k0 := rfl
@[simp] theorem State.captureGps_k1 (s : State) (lat : Int) (lon : Int) :
    (s.captureGps lat lon).k1 = s.k1 := rfl
@[simp] theorem State.captureGps_pos (s : State) (lat : Int) (lon : Int) :
    (s.captureGps lat lon).pos = s.pos := rfl
@[simp] theorem State.captureGps_phase (s : State) (lat : Int) (lon : Int) :
    (s.captureGps lat lon).phase = s.phase := rfl
@[simp] theorem State.captureGps_frm (s : State) (lat : Int) (lon : Int) :
    (s.captureGps lat lon).frm = s.frm := rfl
@[simp] theorem State.captureGps_spos (s : State) (lat : Int) (lon : Int) :
    (s.captureGps lat lon).spos = s.spos := rfl
@[simp] theorem State.captureGps_ch (s : State) (lat : Int) (lon : Int) :
    (s.captureGps lat lon).ch = s.ch := rfl
@[simp] theorem State.captureGps_stDone (s : State) (lat : Int) (lon : Int) :
    (s.captureGps lat lon).stDone = s.stDone := rfl
@[simp] theorem State.captureGps_stErr (s : State) (lat : Int) (lon : Int) :
    (s.captureGps lat lon).stErr = s.stErr := rfl
@[simp] theorem State.captureGps_stOvf (s : State) (lat : Int) (lon : Int) :
    (s.captureGps lat lon).stOvf = s.stOvf := rfl
@[simp] theorem State.captureGps_stUgps (s : State) (lat : Int) (lon : Int) :
    (s.captureGps lat lon).stUgps = true := rfl
@[simp] theorem State.captureGps_stUtag (s : State) (lat : Int) (lon : Int) :
    (s.captureGps lat lon).stUtag = s.stUtag := rfl
@[simp] theorem State.captureGps_stUzero (s : State) (lat : Int) (lon : Int) :
    (s.captureGps lat lon).stUzero = s.stUzero := rfl
@[simp] theorem State.captureGps_h (s : State) (lat : Int) (lon : Int) :
    (s.captureGps lat lon).h = s.h := rfl
@[simp] theorem State.captureGps_hValid (s : State) (lat : Int) (lon : Int) :
    (s.captureGps lat lon).hValid = s.hValid := rfl
@[simp] theorem State.captureGps_expect (s : State) (lat : Int) (lon : Int) :
    (s.captureGps lat lon).expect = s.expect := rfl
@[simp] theorem State.captureGps_produced (s : State) (lat : Int) (lon : Int) :
    (s.captureGps lat lon).produced = s.produced := rfl
@[simp] theorem State.captureGps_errCode (s : State) (lat : Int) (lon : Int) :
    (s.captureGps lat lon).errCode = s.errCode := rfl
@[simp] theorem State.captureGps_errSub (s : State) (lat : Int) (lon : Int) :
    (s.captureGps lat lon).errSub = s.errSub := rfl
@[simp] theorem State.captureGps_errBlock (s : State) (lat : Int) (lon : Int) :
    (s.captureGps lat lon).errBlock = s.errBlock := rfl
@[simp] theorem State.captureGps_errBit (s : State) (lat : Int) (lon : Int) :
    (s.captureGps lat lon).errBit = s.errBit := rfl
@[simp] theorem State.captureGps_errByte (s : State) (lat : Int) (lon : Int) :
    (s.captureGps lat lon).errByte = s.errByte := rfl
@[simp] theorem State.captureGps_gpsLat (s : State) (lat : Int) (lon : Int) :
    (s.captureGps lat lon).gpsLat = lat := rfl
@[simp] theorem State.captureGps_gpsLon (s : State) (lat : Int) (lon : Int) :
    (s.captureGps lat lon).gpsLon = lon := rfl
@[simp] theorem State.captureGps_gpsBlk (s : State) (lat : Int) (lon : Int) :
    (s.captureGps lat lon).gpsBlk = s.expect := rfl
@[simp] theorem State.captureGps_gpsV (s : State) (lat : Int) (lon : Int) :
    (s.captureGps lat lon).gpsV = true := rfl
@[simp] theorem State.captureGps_tag (s : State) (lat : Int) (lon : Int) :
    (s.captureGps lat lon).tag = s.tag := rfl
@[simp] theorem State.captureGps_tagBlk (s : State) (lat : Int) (lon : Int) :
    (s.captureGps lat lon).tagBlk = s.tagBlk := rfl
@[simp] theorem State.captureGps_tagV (s : State) (lat : Int) (lon : Int) :
    (s.captureGps lat lon).tagV = s.tagV := rfl
@[simp] theorem State.captureGps_fb0 (s : State) (lat : Int) (lon : Int) :
    (s.captureGps lat lon).fb0 = s.fb0 := rfl
@[simp] theorem State.captureGps_fb1 (s : State) (lat : Int) (lon : Int) :
    (s.captureGps lat lon).fb1 = s.fb1 := rfl
@[simp] theorem State.captureGps_out (s : State) (lat : Int) (lon : Int) :
    (s.captureGps lat lon).out = s.out := rfl
@[simp] theorem State.captureGps_side (s : State) (lat : Int) (lon : Int) :
    (s.captureGps lat lon).side = s.side ++ [.gps s.expect lat lon] := rfl
@[simp] theorem State.captureGps_params (s : State) (lat : Int) (lon : Int) :
    (s.captureGps lat lon).params = s.params := rfl
@[simp] theorem State.captureGps_inp (s : State) (lat : Int) (lon : Int) :
    (s.captureGps lat lon).inp = s.inp := rfl

/-! ### `State.captureTag` -/

@[simp] theorem State.captureTag_acc0 (s : State) (g : Nibble) :
    (s.captureTag g).acc0 = s.acc0 := rfl
@[simp] theorem State.captureTag_acc1 (s : State) (g : Nibble) :
    (s.captureTag g).acc1 = s.acc1 := rfl
@[simp] theorem State.captureTag_k0 (s : State) (g : Nibble) :
    (s.captureTag g).k0 = s.k0 := rfl
@[simp] theorem State.captureTag_k1 (s : State) (g : Nibble) :
    (s.captureTag g).k1 = s.k1 := rfl
@[simp] theorem State.captureTag_pos (s : State) (g : Nibble) :
    (s.captureTag g).pos = s.pos := rfl
@[simp] theorem State.captureTag_phase (s : State) (g : Nibble) :
    (s.captureTag g).phase = s.phase := rfl
@[simp] theorem State.captureTag_frm (s : State) (g : Nibble) :
    (s.captureTag g).frm = s.frm := rfl
@[simp] theorem State.captureTag_spos (s : State) (g : Nibble) :
    (s.captureTag g).spos = s.spos := rfl
@[simp] theorem State.captureTag_ch (s : State) (g : Nibble) :
    (s.captureTag g).ch = s.ch := rfl
@[simp] theorem State.captureTag_stDone (s : State) (g : Nibble) :
    (s.captureTag g).stDone = s.stDone := rfl
@[simp] theorem State.captureTag_stErr (s : State) (g : Nibble) :
    (s.captureTag g).stErr = s.stErr := rfl
@[simp] theorem State.captureTag_stOvf (s : State) (g : Nibble) :
    (s.captureTag g).stOvf = s.stOvf := rfl
@[simp] theorem State.captureTag_stUgps (s : State) (g : Nibble) :
    (s.captureTag g).stUgps = s.stUgps := rfl
@[simp] theorem State.captureTag_stUtag (s : State) (g : Nibble) :
    (s.captureTag g).stUtag = true := rfl
@[simp] theorem State.captureTag_stUzero (s : State) (g : Nibble) :
    (s.captureTag g).stUzero = s.stUzero := rfl
@[simp] theorem State.captureTag_h (s : State) (g : Nibble) :
    (s.captureTag g).h = s.h := rfl
@[simp] theorem State.captureTag_hValid (s : State) (g : Nibble) :
    (s.captureTag g).hValid = s.hValid := rfl
@[simp] theorem State.captureTag_expect (s : State) (g : Nibble) :
    (s.captureTag g).expect = s.expect := rfl
@[simp] theorem State.captureTag_produced (s : State) (g : Nibble) :
    (s.captureTag g).produced = s.produced := rfl
@[simp] theorem State.captureTag_errCode (s : State) (g : Nibble) :
    (s.captureTag g).errCode = s.errCode := rfl
@[simp] theorem State.captureTag_errSub (s : State) (g : Nibble) :
    (s.captureTag g).errSub = s.errSub := rfl
@[simp] theorem State.captureTag_errBlock (s : State) (g : Nibble) :
    (s.captureTag g).errBlock = s.errBlock := rfl
@[simp] theorem State.captureTag_errBit (s : State) (g : Nibble) :
    (s.captureTag g).errBit = s.errBit := rfl
@[simp] theorem State.captureTag_errByte (s : State) (g : Nibble) :
    (s.captureTag g).errByte = s.errByte := rfl
@[simp] theorem State.captureTag_gpsLat (s : State) (g : Nibble) :
    (s.captureTag g).gpsLat = s.gpsLat := rfl
@[simp] theorem State.captureTag_gpsLon (s : State) (g : Nibble) :
    (s.captureTag g).gpsLon = s.gpsLon := rfl
@[simp] theorem State.captureTag_gpsBlk (s : State) (g : Nibble) :
    (s.captureTag g).gpsBlk = s.gpsBlk := rfl
@[simp] theorem State.captureTag_gpsV (s : State) (g : Nibble) :
    (s.captureTag g).gpsV = s.gpsV := rfl
@[simp] theorem State.captureTag_tag (s : State) (g : Nibble) :
    (s.captureTag g).tag = g := rfl
@[simp] theorem State.captureTag_tagBlk (s : State) (g : Nibble) :
    (s.captureTag g).tagBlk = s.expect := rfl
@[simp] theorem State.captureTag_tagV (s : State) (g : Nibble) :
    (s.captureTag g).tagV = true := rfl
@[simp] theorem State.captureTag_fb0 (s : State) (g : Nibble) :
    (s.captureTag g).fb0 = s.fb0 := rfl
@[simp] theorem State.captureTag_fb1 (s : State) (g : Nibble) :
    (s.captureTag g).fb1 = s.fb1 := rfl
@[simp] theorem State.captureTag_out (s : State) (g : Nibble) :
    (s.captureTag g).out = s.out := rfl
@[simp] theorem State.captureTag_side (s : State) (g : Nibble) :
    (s.captureTag g).side = s.side ++ [.tag s.expect g] := rfl
@[simp] theorem State.captureTag_params (s : State) (g : Nibble) :
    (s.captureTag g).params = s.params := rfl
@[simp] theorem State.captureTag_inp (s : State) (g : Nibble) :
    (s.captureTag g).inp = s.inp := rfl

/-! ### `State.enterFrames` -/

@[simp] theorem State.enterFrames_acc0 (s : State) : s.enterFrames.acc0 = s.acc0 := by
  unfold State.enterFrames; split_ifs <;> rfl
@[simp] theorem State.enterFrames_acc1 (s : State) : s.enterFrames.acc1 = s.acc1 := by
  unfold State.enterFrames; split_ifs <;> rfl
@[simp] theorem State.enterFrames_k0 (s : State) : s.enterFrames.k0 = s.k0 := by
  unfold State.enterFrames; split_ifs <;> rfl
@[simp] theorem State.enterFrames_k1 (s : State) : s.enterFrames.k1 = s.k1 := by
  unfold State.enterFrames; split_ifs <;> rfl
@[simp] theorem State.enterFrames_pos (s : State) : s.enterFrames.pos = s.pos := by
  unfold State.enterFrames; split_ifs <;> rfl
@[simp] theorem State.enterFrames_spos (s : State) : s.enterFrames.spos = s.spos := by
  unfold State.enterFrames; split_ifs <;> rfl
@[simp] theorem State.enterFrames_stDone (s : State) : s.enterFrames.stDone = s.stDone := by
  unfold State.enterFrames; split_ifs <;> rfl
@[simp] theorem State.enterFrames_stErr (s : State) : s.enterFrames.stErr = s.stErr := by
  unfold State.enterFrames; split_ifs <;> rfl
@[simp] theorem State.enterFrames_stOvf (s : State) : s.enterFrames.stOvf = s.stOvf := by
  unfold State.enterFrames; split_ifs <;> rfl
@[simp] theorem State.enterFrames_stUgps (s : State) : s.enterFrames.stUgps = s.stUgps := by
  unfold State.enterFrames; split_ifs <;> rfl
@[simp] theorem State.enterFrames_stUtag (s : State) : s.enterFrames.stUtag = s.stUtag := by
  unfold State.enterFrames; split_ifs <;> rfl
@[simp] theorem State.enterFrames_stUzero (s : State) : s.enterFrames.stUzero = s.stUzero := by
  unfold State.enterFrames; split_ifs <;> rfl
@[simp] theorem State.enterFrames_h (s : State) : s.enterFrames.h = s.h := by
  unfold State.enterFrames; split_ifs <;> rfl
@[simp] theorem State.enterFrames_hValid (s : State) : s.enterFrames.hValid = s.hValid := by
  unfold State.enterFrames; split_ifs <;> rfl
@[simp] theorem State.enterFrames_expect (s : State) : s.enterFrames.expect = s.expect := by
  unfold State.enterFrames; split_ifs <;> rfl
@[simp] theorem State.enterFrames_produced (s : State) : s.enterFrames.produced = s.produced := by
  unfold State.enterFrames; split_ifs <;> rfl
@[simp] theorem State.enterFrames_errCode (s : State) : s.enterFrames.errCode = s.errCode := by
  unfold State.enterFrames; split_ifs <;> rfl
@[simp] theorem State.enterFrames_errSub (s : State) : s.enterFrames.errSub = s.errSub := by
  unfold State.enterFrames; split_ifs <;> rfl
@[simp] theorem State.enterFrames_errBlock (s : State) : s.enterFrames.errBlock = s.errBlock := by
  unfold State.enterFrames; split_ifs <;> rfl
@[simp] theorem State.enterFrames_errBit (s : State) : s.enterFrames.errBit = s.errBit := by
  unfold State.enterFrames; split_ifs <;> rfl
@[simp] theorem State.enterFrames_errByte (s : State) : s.enterFrames.errByte = s.errByte := by
  unfold State.enterFrames; split_ifs <;> rfl
@[simp] theorem State.enterFrames_gpsLat (s : State) : s.enterFrames.gpsLat = s.gpsLat := by
  unfold State.enterFrames; split_ifs <;> rfl
@[simp] theorem State.enterFrames_gpsLon (s : State) : s.enterFrames.gpsLon = s.gpsLon := by
  unfold State.enterFrames; split_ifs <;> rfl
@[simp] theorem State.enterFrames_gpsBlk (s : State) : s.enterFrames.gpsBlk = s.gpsBlk := by
  unfold State.enterFrames; split_ifs <;> rfl
@[simp] theorem State.enterFrames_gpsV (s : State) : s.enterFrames.gpsV = s.gpsV := by
  unfold State.enterFrames; split_ifs <;> rfl
@[simp] theorem State.enterFrames_tag (s : State) : s.enterFrames.tag = s.tag := by
  unfold State.enterFrames; split_ifs <;> rfl
@[simp] theorem State.enterFrames_tagBlk (s : State) : s.enterFrames.tagBlk = s.tagBlk := by
  unfold State.enterFrames; split_ifs <;> rfl
@[simp] theorem State.enterFrames_tagV (s : State) : s.enterFrames.tagV = s.tagV := by
  unfold State.enterFrames; split_ifs <;> rfl
@[simp] theorem State.enterFrames_fb0 (s : State) : s.enterFrames.fb0 = s.fb0 := by
  unfold State.enterFrames; split_ifs <;> rfl
@[simp] theorem State.enterFrames_fb1 (s : State) : s.enterFrames.fb1 = s.fb1 := by
  unfold State.enterFrames; split_ifs <;> rfl
@[simp] theorem State.enterFrames_out (s : State) : s.enterFrames.out = s.out := by
  unfold State.enterFrames; split_ifs <;> rfl
@[simp] theorem State.enterFrames_side (s : State) : s.enterFrames.side = s.side := by
  unfold State.enterFrames; split_ifs <;> rfl
@[simp] theorem State.enterFrames_params (s : State) : s.enterFrames.params = s.params := by
  unfold State.enterFrames; split_ifs <;> rfl
@[simp] theorem State.enterFrames_inp (s : State) : s.enterFrames.inp = s.inp := by
  unfold State.enterFrames; split_ifs <;> rfl

/-! ### `State.afterSeekSkip` -/

@[simp] theorem State.afterSeekSkip_acc0 (s : State) : s.afterSeekSkip.acc0 = s.acc0 := by
  unfold State.afterSeekSkip; split_ifs <;> rfl
@[simp] theorem State.afterSeekSkip_acc1 (s : State) : s.afterSeekSkip.acc1 = s.acc1 := by
  unfold State.afterSeekSkip; split_ifs <;> rfl
@[simp] theorem State.afterSeekSkip_k0 (s : State) : s.afterSeekSkip.k0 = s.k0 := by
  unfold State.afterSeekSkip; split_ifs <;> rfl
@[simp] theorem State.afterSeekSkip_k1 (s : State) : s.afterSeekSkip.k1 = s.k1 := by
  unfold State.afterSeekSkip; split_ifs <;> rfl
@[simp] theorem State.afterSeekSkip_pos (s : State) : s.afterSeekSkip.pos = s.pos := by
  unfold State.afterSeekSkip; split_ifs <;> rfl
@[simp] theorem State.afterSeekSkip_frm (s : State) : s.afterSeekSkip.frm = s.frm := by
  unfold State.afterSeekSkip; split_ifs <;> rfl
@[simp] theorem State.afterSeekSkip_spos (s : State) : s.afterSeekSkip.spos = s.spos := by
  unfold State.afterSeekSkip; split_ifs <;> rfl
@[simp] theorem State.afterSeekSkip_ch (s : State) : s.afterSeekSkip.ch = s.ch := by
  unfold State.afterSeekSkip; split_ifs <;> rfl
@[simp] theorem State.afterSeekSkip_stErr (s : State) : s.afterSeekSkip.stErr = s.stErr := by
  unfold State.afterSeekSkip; split_ifs <;> rfl
@[simp] theorem State.afterSeekSkip_stOvf (s : State) : s.afterSeekSkip.stOvf = s.stOvf := by
  unfold State.afterSeekSkip; split_ifs <;> rfl
@[simp] theorem State.afterSeekSkip_stUgps (s : State) : s.afterSeekSkip.stUgps = s.stUgps := by
  unfold State.afterSeekSkip; split_ifs <;> rfl
@[simp] theorem State.afterSeekSkip_stUtag (s : State) : s.afterSeekSkip.stUtag = s.stUtag := by
  unfold State.afterSeekSkip; split_ifs <;> rfl
@[simp] theorem State.afterSeekSkip_stUzero (s : State) : s.afterSeekSkip.stUzero = s.stUzero := by
  unfold State.afterSeekSkip; split_ifs <;> rfl
@[simp] theorem State.afterSeekSkip_h (s : State) : s.afterSeekSkip.h = s.h := by
  unfold State.afterSeekSkip; split_ifs <;> rfl
@[simp] theorem State.afterSeekSkip_hValid (s : State) : s.afterSeekSkip.hValid = s.hValid := by
  unfold State.afterSeekSkip; split_ifs <;> rfl
@[simp] theorem State.afterSeekSkip_expect (s : State) : s.afterSeekSkip.expect = s.expect := by
  unfold State.afterSeekSkip; split_ifs <;> rfl
@[simp] theorem State.afterSeekSkip_produced (s : State) : s.afterSeekSkip.produced = s.produced := by
  unfold State.afterSeekSkip; split_ifs <;> rfl
@[simp] theorem State.afterSeekSkip_errCode (s : State) : s.afterSeekSkip.errCode = s.errCode := by
  unfold State.afterSeekSkip; split_ifs <;> rfl
@[simp] theorem State.afterSeekSkip_errSub (s : State) : s.afterSeekSkip.errSub = s.errSub := by
  unfold State.afterSeekSkip; split_ifs <;> rfl
@[simp] theorem State.afterSeekSkip_errBlock (s : State) : s.afterSeekSkip.errBlock = s.errBlock := by
  unfold State.afterSeekSkip; split_ifs <;> rfl
@[simp] theorem State.afterSeekSkip_errBit (s : State) : s.afterSeekSkip.errBit = s.errBit := by
  unfold State.afterSeekSkip; split_ifs <;> rfl
@[simp] theorem State.afterSeekSkip_errByte (s : State) : s.afterSeekSkip.errByte = s.errByte := by
  unfold State.afterSeekSkip; split_ifs <;> rfl
@[simp] theorem State.afterSeekSkip_gpsLat (s : State) : s.afterSeekSkip.gpsLat = s.gpsLat := by
  unfold State.afterSeekSkip; split_ifs <;> rfl
@[simp] theorem State.afterSeekSkip_gpsLon (s : State) : s.afterSeekSkip.gpsLon = s.gpsLon := by
  unfold State.afterSeekSkip; split_ifs <;> rfl
@[simp] theorem State.afterSeekSkip_gpsBlk (s : State) : s.afterSeekSkip.gpsBlk = s.gpsBlk := by
  unfold State.afterSeekSkip; split_ifs <;> rfl
@[simp] theorem State.afterSeekSkip_gpsV (s : State) : s.afterSeekSkip.gpsV = s.gpsV := by
  unfold State.afterSeekSkip; split_ifs <;> rfl
@[simp] theorem State.afterSeekSkip_tag (s : State) : s.afterSeekSkip.tag = s.tag := by
  unfold State.afterSeekSkip; split_ifs <;> rfl
@[simp] theorem State.afterSeekSkip_tagBlk (s : State) : s.afterSeekSkip.tagBlk = s.tagBlk := by
  unfold State.afterSeekSkip; split_ifs <;> rfl
@[simp] theorem State.afterSeekSkip_tagV (s : State) : s.afterSeekSkip.tagV = s.tagV := by
  unfold State.afterSeekSkip; split_ifs <;> rfl
@[simp] theorem State.afterSeekSkip_fb0 (s : State) : s.afterSeekSkip.fb0 = s.fb0 := by
  unfold State.afterSeekSkip; split_ifs <;> rfl
@[simp] theorem State.afterSeekSkip_fb1 (s : State) : s.afterSeekSkip.fb1 = s.fb1 := by
  unfold State.afterSeekSkip; split_ifs <;> rfl
@[simp] theorem State.afterSeekSkip_out (s : State) : s.afterSeekSkip.out = s.out := by
  unfold State.afterSeekSkip; split_ifs <;> rfl
@[simp] theorem State.afterSeekSkip_side (s : State) : s.afterSeekSkip.side = s.side := by
  unfold State.afterSeekSkip; split_ifs <;> rfl
@[simp] theorem State.afterSeekSkip_params (s : State) : s.afterSeekSkip.params = s.params := by
  unfold State.afterSeekSkip; split_ifs <;> rfl
@[simp] theorem State.afterSeekSkip_inp (s : State) : s.afterSeekSkip.inp = s.inp := by
  unfold State.afterSeekSkip; split_ifs <;> rfl

/-! ### `State.afterBidx` -/

@[simp] theorem State.afterBidx_acc0 (s : State) : s.afterBidx.acc0 = s.acc0 := by
  unfold State.afterBidx; split_ifs <;> simp
@[simp] theorem State.afterBidx_acc1 (s : State) : s.afterBidx.acc1 = s.acc1 := by
  unfold State.afterBidx; split_ifs <;> simp
@[simp] theorem State.afterBidx_k0 (s : State) : s.afterBidx.k0 = s.k0 := by
  unfold State.afterBidx; split_ifs <;> simp
@[simp] theorem State.afterBidx_k1 (s : State) : s.afterBidx.k1 = s.k1 := by
  unfold State.afterBidx; split_ifs <;> simp
@[simp] theorem State.afterBidx_pos (s : State) : s.afterBidx.pos = s.pos := by
  unfold State.afterBidx; split_ifs <;> simp
@[simp] theorem State.afterBidx_spos (s : State) : s.afterBidx.spos = s.spos := by
  unfold State.afterBidx; split_ifs <;> simp
@[simp] theorem State.afterBidx_stDone (s : State) : s.afterBidx.stDone = s.stDone := by
  unfold State.afterBidx; split_ifs <;> simp
@[simp] theorem State.afterBidx_stErr (s : State) : s.afterBidx.stErr = s.stErr := by
  unfold State.afterBidx; split_ifs <;> simp
@[simp] theorem State.afterBidx_stOvf (s : State) : s.afterBidx.stOvf = s.stOvf := by
  unfold State.afterBidx; split_ifs <;> simp
@[simp] theorem State.afterBidx_stUgps (s : State) : s.afterBidx.stUgps = s.stUgps := by
  unfold State.afterBidx; split_ifs <;> simp
@[simp] theorem State.afterBidx_stUtag (s : State) : s.afterBidx.stUtag = s.stUtag := by
  unfold State.afterBidx; split_ifs <;> simp
@[simp] theorem State.afterBidx_stUzero (s : State) : s.afterBidx.stUzero = s.stUzero := by
  unfold State.afterBidx; split_ifs <;> simp
@[simp] theorem State.afterBidx_h (s : State) : s.afterBidx.h = s.h := by
  unfold State.afterBidx; split_ifs <;> simp
@[simp] theorem State.afterBidx_hValid (s : State) : s.afterBidx.hValid = s.hValid := by
  unfold State.afterBidx; split_ifs <;> simp
@[simp] theorem State.afterBidx_expect (s : State) : s.afterBidx.expect = s.expect := by
  unfold State.afterBidx; split_ifs <;> simp
@[simp] theorem State.afterBidx_produced (s : State) : s.afterBidx.produced = s.produced := by
  unfold State.afterBidx; split_ifs <;> simp
@[simp] theorem State.afterBidx_errCode (s : State) : s.afterBidx.errCode = s.errCode := by
  unfold State.afterBidx; split_ifs <;> simp
@[simp] theorem State.afterBidx_errSub (s : State) : s.afterBidx.errSub = s.errSub := by
  unfold State.afterBidx; split_ifs <;> simp
@[simp] theorem State.afterBidx_errBlock (s : State) : s.afterBidx.errBlock = s.errBlock := by
  unfold State.afterBidx; split_ifs <;> simp
@[simp] theorem State.afterBidx_errBit (s : State) : s.afterBidx.errBit = s.errBit := by
  unfold State.afterBidx; split_ifs <;> simp
@[simp] theorem State.afterBidx_errByte (s : State) : s.afterBidx.errByte = s.errByte := by
  unfold State.afterBidx; split_ifs <;> simp
@[simp] theorem State.afterBidx_gpsLat (s : State) : s.afterBidx.gpsLat = s.gpsLat := by
  unfold State.afterBidx; split_ifs <;> simp
@[simp] theorem State.afterBidx_gpsLon (s : State) : s.afterBidx.gpsLon = s.gpsLon := by
  unfold State.afterBidx; split_ifs <;> simp
@[simp] theorem State.afterBidx_gpsBlk (s : State) : s.afterBidx.gpsBlk = s.gpsBlk := by
  unfold State.afterBidx; split_ifs <;> simp
@[simp] theorem State.afterBidx_gpsV (s : State) : s.afterBidx.gpsV = s.gpsV := by
  unfold State.afterBidx; split_ifs <;> simp
@[simp] theorem State.afterBidx_tag (s : State) : s.afterBidx.tag = s.tag := by
  unfold State.afterBidx; split_ifs <;> simp
@[simp] theorem State.afterBidx_tagBlk (s : State) : s.afterBidx.tagBlk = s.tagBlk := by
  unfold State.afterBidx; split_ifs <;> simp
@[simp] theorem State.afterBidx_tagV (s : State) : s.afterBidx.tagV = s.tagV := by
  unfold State.afterBidx; split_ifs <;> simp
@[simp] theorem State.afterBidx_fb0 (s : State) : s.afterBidx.fb0 = s.fb0 := by
  unfold State.afterBidx; split_ifs <;> simp
@[simp] theorem State.afterBidx_fb1 (s : State) : s.afterBidx.fb1 = s.fb1 := by
  unfold State.afterBidx; split_ifs <;> simp
@[simp] theorem State.afterBidx_out (s : State) : s.afterBidx.out = s.out := by
  unfold State.afterBidx; split_ifs <;> simp
@[simp] theorem State.afterBidx_side (s : State) : s.afterBidx.side = s.side := by
  unfold State.afterBidx; split_ifs <;> simp
@[simp] theorem State.afterBidx_params (s : State) : s.afterBidx.params = s.params := by
  unfold State.afterBidx; split_ifs <;> simp
@[simp] theorem State.afterBidx_inp (s : State) : s.afterBidx.inp = s.inp := by
  unfold State.afterBidx; split_ifs <;> simp

/-! ### `State.afterGps` -/

@[simp] theorem State.afterGps_acc0 (s : State) : s.afterGps.acc0 = s.acc0 := by
  unfold State.afterGps; split_ifs <;> simp
@[simp] theorem State.afterGps_acc1 (s : State) : s.afterGps.acc1 = s.acc1 := by
  unfold State.afterGps; split_ifs <;> simp
@[simp] theorem State.afterGps_k0 (s : State) : s.afterGps.k0 = s.k0 := by
  unfold State.afterGps; split_ifs <;> simp
@[simp] theorem State.afterGps_k1 (s : State) : s.afterGps.k1 = s.k1 := by
  unfold State.afterGps; split_ifs <;> simp
@[simp] theorem State.afterGps_pos (s : State) : s.afterGps.pos = s.pos := by
  unfold State.afterGps; split_ifs <;> simp
@[simp] theorem State.afterGps_spos (s : State) : s.afterGps.spos = s.spos := by
  unfold State.afterGps; split_ifs <;> simp
@[simp] theorem State.afterGps_stDone (s : State) : s.afterGps.stDone = s.stDone := by
  unfold State.afterGps; split_ifs <;> simp
@[simp] theorem State.afterGps_stErr (s : State) : s.afterGps.stErr = s.stErr := by
  unfold State.afterGps; split_ifs <;> simp
@[simp] theorem State.afterGps_stOvf (s : State) : s.afterGps.stOvf = s.stOvf := by
  unfold State.afterGps; split_ifs <;> simp
@[simp] theorem State.afterGps_stUgps (s : State) : s.afterGps.stUgps = s.stUgps := by
  unfold State.afterGps; split_ifs <;> simp
@[simp] theorem State.afterGps_stUtag (s : State) : s.afterGps.stUtag = s.stUtag := by
  unfold State.afterGps; split_ifs <;> simp
@[simp] theorem State.afterGps_stUzero (s : State) : s.afterGps.stUzero = s.stUzero := by
  unfold State.afterGps; split_ifs <;> simp
@[simp] theorem State.afterGps_h (s : State) : s.afterGps.h = s.h := by
  unfold State.afterGps; split_ifs <;> simp
@[simp] theorem State.afterGps_hValid (s : State) : s.afterGps.hValid = s.hValid := by
  unfold State.afterGps; split_ifs <;> simp
@[simp] theorem State.afterGps_expect (s : State) : s.afterGps.expect = s.expect := by
  unfold State.afterGps; split_ifs <;> simp
@[simp] theorem State.afterGps_produced (s : State) : s.afterGps.produced = s.produced := by
  unfold State.afterGps; split_ifs <;> simp
@[simp] theorem State.afterGps_errCode (s : State) : s.afterGps.errCode = s.errCode := by
  unfold State.afterGps; split_ifs <;> simp
@[simp] theorem State.afterGps_errSub (s : State) : s.afterGps.errSub = s.errSub := by
  unfold State.afterGps; split_ifs <;> simp
@[simp] theorem State.afterGps_errBlock (s : State) : s.afterGps.errBlock = s.errBlock := by
  unfold State.afterGps; split_ifs <;> simp
@[simp] theorem State.afterGps_errBit (s : State) : s.afterGps.errBit = s.errBit := by
  unfold State.afterGps; split_ifs <;> simp
@[simp] theorem State.afterGps_errByte (s : State) : s.afterGps.errByte = s.errByte := by
  unfold State.afterGps; split_ifs <;> simp
@[simp] theorem State.afterGps_gpsLat (s : State) : s.afterGps.gpsLat = s.gpsLat := by
  unfold State.afterGps; split_ifs <;> simp
@[simp] theorem State.afterGps_gpsLon (s : State) : s.afterGps.gpsLon = s.gpsLon := by
  unfold State.afterGps; split_ifs <;> simp
@[simp] theorem State.afterGps_gpsBlk (s : State) : s.afterGps.gpsBlk = s.gpsBlk := by
  unfold State.afterGps; split_ifs <;> simp
@[simp] theorem State.afterGps_gpsV (s : State) : s.afterGps.gpsV = s.gpsV := by
  unfold State.afterGps; split_ifs <;> simp
@[simp] theorem State.afterGps_tag (s : State) : s.afterGps.tag = s.tag := by
  unfold State.afterGps; split_ifs <;> simp
@[simp] theorem State.afterGps_tagBlk (s : State) : s.afterGps.tagBlk = s.tagBlk := by
  unfold State.afterGps; split_ifs <;> simp
@[simp] theorem State.afterGps_tagV (s : State) : s.afterGps.tagV = s.tagV := by
  unfold State.afterGps; split_ifs <;> simp
@[simp] theorem State.afterGps_fb0 (s : State) : s.afterGps.fb0 = s.fb0 := by
  unfold State.afterGps; split_ifs <;> simp
@[simp] theorem State.afterGps_fb1 (s : State) : s.afterGps.fb1 = s.fb1 := by
  unfold State.afterGps; split_ifs <;> simp
@[simp] theorem State.afterGps_out (s : State) : s.afterGps.out = s.out := by
  unfold State.afterGps; split_ifs <;> simp
@[simp] theorem State.afterGps_side (s : State) : s.afterGps.side = s.side := by
  unfold State.afterGps; split_ifs <;> simp
@[simp] theorem State.afterGps_params (s : State) : s.afterGps.params = s.params := by
  unfold State.afterGps; split_ifs <;> simp
@[simp] theorem State.afterGps_inp (s : State) : s.afterGps.inp = s.inp := by
  unfold State.afterGps; split_ifs <;> simp

/-! ### `State.afterFrk` -/

@[simp] theorem State.afterFrk_acc0 (s : State) : s.afterFrk.acc0 = s.acc0 := by
  unfold State.afterFrk; dsimp only; split_ifs <;> rfl
@[simp] theorem State.afterFrk_acc1 (s : State) : s.afterFrk.acc1 = s.acc1 := by
  unfold State.afterFrk; dsimp only; split_ifs <;> rfl
@[simp] theorem State.afterFrk_k0 (s : State) : s.afterFrk.k0 = s.k0 := by
  unfold State.afterFrk; dsimp only; split_ifs <;> rfl
@[simp] theorem State.afterFrk_k1 (s : State) : s.afterFrk.k1 = s.k1 := by
  unfold State.afterFrk; dsimp only; split_ifs <;> rfl
@[simp] theorem State.afterFrk_pos (s : State) : s.afterFrk.pos = s.pos := by
  unfold State.afterFrk; dsimp only; split_ifs <;> rfl
@[simp] theorem State.afterFrk_frm (s : State) : s.afterFrk.frm = s.frm := by
  unfold State.afterFrk; dsimp only; split_ifs <;> rfl
@[simp] theorem State.afterFrk_stDone (s : State) : s.afterFrk.stDone = s.stDone := by
  unfold State.afterFrk; dsimp only; split_ifs <;> rfl
@[simp] theorem State.afterFrk_stErr (s : State) : s.afterFrk.stErr = s.stErr := by
  unfold State.afterFrk; dsimp only; split_ifs <;> rfl
@[simp] theorem State.afterFrk_stOvf (s : State) : s.afterFrk.stOvf = s.stOvf := by
  unfold State.afterFrk; dsimp only; split_ifs <;> rfl
@[simp] theorem State.afterFrk_stUgps (s : State) : s.afterFrk.stUgps = s.stUgps := by
  unfold State.afterFrk; dsimp only; split_ifs <;> rfl
@[simp] theorem State.afterFrk_stUtag (s : State) : s.afterFrk.stUtag = s.stUtag := by
  unfold State.afterFrk; dsimp only; split_ifs <;> rfl
@[simp] theorem State.afterFrk_stUzero (s : State) : s.afterFrk.stUzero = s.stUzero := by
  unfold State.afterFrk; dsimp only; split_ifs <;> rfl
@[simp] theorem State.afterFrk_h (s : State) : s.afterFrk.h = s.h := by
  unfold State.afterFrk; dsimp only; split_ifs <;> rfl
@[simp] theorem State.afterFrk_hValid (s : State) : s.afterFrk.hValid = s.hValid := by
  unfold State.afterFrk; dsimp only; split_ifs <;> rfl
@[simp] theorem State.afterFrk_expect (s : State) : s.afterFrk.expect = s.expect := by
  unfold State.afterFrk; dsimp only; split_ifs <;> rfl
@[simp] theorem State.afterFrk_produced (s : State) : s.afterFrk.produced = s.produced := by
  unfold State.afterFrk; dsimp only; split_ifs <;> rfl
@[simp] theorem State.afterFrk_errCode (s : State) : s.afterFrk.errCode = s.errCode := by
  unfold State.afterFrk; dsimp only; split_ifs <;> rfl
@[simp] theorem State.afterFrk_errSub (s : State) : s.afterFrk.errSub = s.errSub := by
  unfold State.afterFrk; dsimp only; split_ifs <;> rfl
@[simp] theorem State.afterFrk_errBlock (s : State) : s.afterFrk.errBlock = s.errBlock := by
  unfold State.afterFrk; dsimp only; split_ifs <;> rfl
@[simp] theorem State.afterFrk_errBit (s : State) : s.afterFrk.errBit = s.errBit := by
  unfold State.afterFrk; dsimp only; split_ifs <;> rfl
@[simp] theorem State.afterFrk_errByte (s : State) : s.afterFrk.errByte = s.errByte := by
  unfold State.afterFrk; dsimp only; split_ifs <;> rfl
@[simp] theorem State.afterFrk_gpsLat (s : State) : s.afterFrk.gpsLat = s.gpsLat := by
  unfold State.afterFrk; dsimp only; split_ifs <;> rfl
@[simp] theorem State.afterFrk_gpsLon (s : State) : s.afterFrk.gpsLon = s.gpsLon := by
  unfold State.afterFrk; dsimp only; split_ifs <;> rfl
@[simp] theorem State.afterFrk_gpsBlk (s : State) : s.afterFrk.gpsBlk = s.gpsBlk := by
  unfold State.afterFrk; dsimp only; split_ifs <;> rfl
@[simp] theorem State.afterFrk_gpsV (s : State) : s.afterFrk.gpsV = s.gpsV := by
  unfold State.afterFrk; dsimp only; split_ifs <;> rfl
@[simp] theorem State.afterFrk_tag (s : State) : s.afterFrk.tag = s.tag := by
  unfold State.afterFrk; dsimp only; split_ifs <;> rfl
@[simp] theorem State.afterFrk_tagBlk (s : State) : s.afterFrk.tagBlk = s.tagBlk := by
  unfold State.afterFrk; dsimp only; split_ifs <;> rfl
@[simp] theorem State.afterFrk_tagV (s : State) : s.afterFrk.tagV = s.tagV := by
  unfold State.afterFrk; dsimp only; split_ifs <;> rfl
@[simp] theorem State.afterFrk_fb0 (s : State) : s.afterFrk.fb0 = s.fb0 := by
  unfold State.afterFrk; dsimp only; split_ifs <;> rfl
@[simp] theorem State.afterFrk_fb1 (s : State) : s.afterFrk.fb1 = s.fb1 := by
  unfold State.afterFrk; dsimp only; split_ifs <;> rfl
@[simp] theorem State.afterFrk_out (s : State) : s.afterFrk.out = s.out := by
  unfold State.afterFrk; dsimp only; split_ifs <;> rfl
@[simp] theorem State.afterFrk_side (s : State) : s.afterFrk.side = s.side := by
  unfold State.afterFrk; dsimp only; split_ifs <;> rfl
@[simp] theorem State.afterFrk_params (s : State) : s.afterFrk.params = s.params := by
  unfold State.afterFrk; dsimp only; split_ifs <;> rfl
@[simp] theorem State.afterFrk_inp (s : State) : s.afterFrk.inp = s.inp := by
  unfold State.afterFrk; dsimp only; split_ifs <;> rfl

/-! ### `State.afterSlot` -/

@[simp] theorem State.afterSlot_acc0 (s : State) : s.afterSlot.acc0 = s.acc0 := by
  unfold State.afterSlot; dsimp only; split_ifs <;> rfl
@[simp] theorem State.afterSlot_acc1 (s : State) : s.afterSlot.acc1 = s.acc1 := by
  unfold State.afterSlot; dsimp only; split_ifs <;> rfl
@[simp] theorem State.afterSlot_k0 (s : State) : s.afterSlot.k0 = s.k0 := by
  unfold State.afterSlot; dsimp only; split_ifs <;> rfl
@[simp] theorem State.afterSlot_k1 (s : State) : s.afterSlot.k1 = s.k1 := by
  unfold State.afterSlot; dsimp only; split_ifs <;> rfl
@[simp] theorem State.afterSlot_pos (s : State) : s.afterSlot.pos = s.pos := by
  unfold State.afterSlot; dsimp only; split_ifs <;> rfl
@[simp] theorem State.afterSlot_frm (s : State) : s.afterSlot.frm = s.frm := by
  unfold State.afterSlot; dsimp only; split_ifs <;> rfl
@[simp] theorem State.afterSlot_stDone (s : State) : s.afterSlot.stDone = s.stDone := by
  unfold State.afterSlot; dsimp only; split_ifs <;> rfl
@[simp] theorem State.afterSlot_stErr (s : State) : s.afterSlot.stErr = s.stErr := by
  unfold State.afterSlot; dsimp only; split_ifs <;> rfl
@[simp] theorem State.afterSlot_stOvf (s : State) : s.afterSlot.stOvf = s.stOvf := by
  unfold State.afterSlot; dsimp only; split_ifs <;> rfl
@[simp] theorem State.afterSlot_stUgps (s : State) : s.afterSlot.stUgps = s.stUgps := by
  unfold State.afterSlot; dsimp only; split_ifs <;> rfl
@[simp] theorem State.afterSlot_stUtag (s : State) : s.afterSlot.stUtag = s.stUtag := by
  unfold State.afterSlot; dsimp only; split_ifs <;> rfl
@[simp] theorem State.afterSlot_stUzero (s : State) : s.afterSlot.stUzero = s.stUzero := by
  unfold State.afterSlot; dsimp only; split_ifs <;> rfl
@[simp] theorem State.afterSlot_h (s : State) : s.afterSlot.h = s.h := by
  unfold State.afterSlot; dsimp only; split_ifs <;> rfl
@[simp] theorem State.afterSlot_hValid (s : State) : s.afterSlot.hValid = s.hValid := by
  unfold State.afterSlot; dsimp only; split_ifs <;> rfl
@[simp] theorem State.afterSlot_expect (s : State) : s.afterSlot.expect = s.expect := by
  unfold State.afterSlot; dsimp only; split_ifs <;> rfl
@[simp] theorem State.afterSlot_produced (s : State) : s.afterSlot.produced = s.produced := by
  unfold State.afterSlot; dsimp only; split_ifs <;> rfl
@[simp] theorem State.afterSlot_errCode (s : State) : s.afterSlot.errCode = s.errCode := by
  unfold State.afterSlot; dsimp only; split_ifs <;> rfl
@[simp] theorem State.afterSlot_errSub (s : State) : s.afterSlot.errSub = s.errSub := by
  unfold State.afterSlot; dsimp only; split_ifs <;> rfl
@[simp] theorem State.afterSlot_errBlock (s : State) : s.afterSlot.errBlock = s.errBlock := by
  unfold State.afterSlot; dsimp only; split_ifs <;> rfl
@[simp] theorem State.afterSlot_errBit (s : State) : s.afterSlot.errBit = s.errBit := by
  unfold State.afterSlot; dsimp only; split_ifs <;> rfl
@[simp] theorem State.afterSlot_errByte (s : State) : s.afterSlot.errByte = s.errByte := by
  unfold State.afterSlot; dsimp only; split_ifs <;> rfl
@[simp] theorem State.afterSlot_gpsLat (s : State) : s.afterSlot.gpsLat = s.gpsLat := by
  unfold State.afterSlot; dsimp only; split_ifs <;> rfl
@[simp] theorem State.afterSlot_gpsLon (s : State) : s.afterSlot.gpsLon = s.gpsLon := by
  unfold State.afterSlot; dsimp only; split_ifs <;> rfl
@[simp] theorem State.afterSlot_gpsBlk (s : State) : s.afterSlot.gpsBlk = s.gpsBlk := by
  unfold State.afterSlot; dsimp only; split_ifs <;> rfl
@[simp] theorem State.afterSlot_gpsV (s : State) : s.afterSlot.gpsV = s.gpsV := by
  unfold State.afterSlot; dsimp only; split_ifs <;> rfl
@[simp] theorem State.afterSlot_tag (s : State) : s.afterSlot.tag = s.tag := by
  unfold State.afterSlot; dsimp only; split_ifs <;> rfl
@[simp] theorem State.afterSlot_tagBlk (s : State) : s.afterSlot.tagBlk = s.tagBlk := by
  unfold State.afterSlot; dsimp only; split_ifs <;> rfl
@[simp] theorem State.afterSlot_tagV (s : State) : s.afterSlot.tagV = s.tagV := by
  unfold State.afterSlot; dsimp only; split_ifs <;> rfl
@[simp] theorem State.afterSlot_fb0 (s : State) : s.afterSlot.fb0 = s.fb0 := by
  unfold State.afterSlot; dsimp only; split_ifs <;> rfl
@[simp] theorem State.afterSlot_fb1 (s : State) : s.afterSlot.fb1 = s.fb1 := by
  unfold State.afterSlot; dsimp only; split_ifs <;> rfl
@[simp] theorem State.afterSlot_out (s : State) : s.afterSlot.out = s.out := by
  unfold State.afterSlot; dsimp only; split_ifs <;> rfl
@[simp] theorem State.afterSlot_side (s : State) : s.afterSlot.side = s.side := by
  unfold State.afterSlot; dsimp only; split_ifs <;> rfl
@[simp] theorem State.afterSlot_params (s : State) : s.afterSlot.params = s.params := by
  unfold State.afterSlot; dsimp only; split_ifs <;> rfl
@[simp] theorem State.afterSlot_inp (s : State) : s.afterSlot.inp = s.inp := by
  unfold State.afterSlot; dsimp only; split_ifs <;> rfl

/-! ### `State.afterEmit` -/

@[simp] theorem State.afterEmit_acc0 (s : State) : s.afterEmit.acc0 = s.acc0 := by
  unfold State.afterEmit; dsimp only; split_ifs <;> rfl
@[simp] theorem State.afterEmit_acc1 (s : State) : s.afterEmit.acc1 = s.acc1 := by
  unfold State.afterEmit; dsimp only; split_ifs <;> rfl
@[simp] theorem State.afterEmit_k0 (s : State) : s.afterEmit.k0 = s.k0 := by
  unfold State.afterEmit; dsimp only; split_ifs <;> rfl
@[simp] theorem State.afterEmit_k1 (s : State) : s.afterEmit.k1 = s.k1 := by
  unfold State.afterEmit; dsimp only; split_ifs <;> rfl
@[simp] theorem State.afterEmit_pos (s : State) : s.afterEmit.pos = s.pos := by
  unfold State.afterEmit; dsimp only; split_ifs <;> rfl
@[simp] theorem State.afterEmit_spos (s : State) : s.afterEmit.spos = s.spos := by
  unfold State.afterEmit; dsimp only; split_ifs <;> rfl
@[simp] theorem State.afterEmit_stDone (s : State) : s.afterEmit.stDone = s.stDone := by
  unfold State.afterEmit; dsimp only; split_ifs <;> rfl
@[simp] theorem State.afterEmit_stErr (s : State) : s.afterEmit.stErr = s.stErr := by
  unfold State.afterEmit; dsimp only; split_ifs <;> rfl
@[simp] theorem State.afterEmit_stOvf (s : State) : s.afterEmit.stOvf = s.stOvf := by
  unfold State.afterEmit; dsimp only; split_ifs <;> rfl
@[simp] theorem State.afterEmit_stUgps (s : State) : s.afterEmit.stUgps = s.stUgps := by
  unfold State.afterEmit; dsimp only; split_ifs <;> rfl
@[simp] theorem State.afterEmit_stUtag (s : State) : s.afterEmit.stUtag = s.stUtag := by
  unfold State.afterEmit; dsimp only; split_ifs <;> rfl
@[simp] theorem State.afterEmit_stUzero (s : State) : s.afterEmit.stUzero = s.stUzero := by
  unfold State.afterEmit; dsimp only; split_ifs <;> rfl
@[simp] theorem State.afterEmit_h (s : State) : s.afterEmit.h = s.h := by
  unfold State.afterEmit; dsimp only; split_ifs <;> rfl
@[simp] theorem State.afterEmit_hValid (s : State) : s.afterEmit.hValid = s.hValid := by
  unfold State.afterEmit; dsimp only; split_ifs <;> rfl
@[simp] theorem State.afterEmit_expect (s : State) : s.afterEmit.expect = s.expect := by
  unfold State.afterEmit; dsimp only; split_ifs <;> rfl
@[simp] theorem State.afterEmit_produced (s : State) : s.afterEmit.produced = s.produced := by
  unfold State.afterEmit; dsimp only; split_ifs <;> rfl
@[simp] theorem State.afterEmit_errCode (s : State) : s.afterEmit.errCode = s.errCode := by
  unfold State.afterEmit; dsimp only; split_ifs <;> rfl
@[simp] theorem State.afterEmit_errSub (s : State) : s.afterEmit.errSub = s.errSub := by
  unfold State.afterEmit; dsimp only; split_ifs <;> rfl
@[simp] theorem State.afterEmit_errBlock (s : State) : s.afterEmit.errBlock = s.errBlock := by
  unfold State.afterEmit; dsimp only; split_ifs <;> rfl
@[simp] theorem State.afterEmit_errBit (s : State) : s.afterEmit.errBit = s.errBit := by
  unfold State.afterEmit; dsimp only; split_ifs <;> rfl
@[simp] theorem State.afterEmit_errByte (s : State) : s.afterEmit.errByte = s.errByte := by
  unfold State.afterEmit; dsimp only; split_ifs <;> rfl
@[simp] theorem State.afterEmit_gpsLat (s : State) : s.afterEmit.gpsLat = s.gpsLat := by
  unfold State.afterEmit; dsimp only; split_ifs <;> rfl
@[simp] theorem State.afterEmit_gpsLon (s : State) : s.afterEmit.gpsLon = s.gpsLon := by
  unfold State.afterEmit; dsimp only; split_ifs <;> rfl
@[simp] theorem State.afterEmit_gpsBlk (s : State) : s.afterEmit.gpsBlk = s.gpsBlk := by
  unfold State.afterEmit; dsimp only; split_ifs <;> rfl
@[simp] theorem State.afterEmit_gpsV (s : State) : s.afterEmit.gpsV = s.gpsV := by
  unfold State.afterEmit; dsimp only; split_ifs <;> rfl
@[simp] theorem State.afterEmit_tag (s : State) : s.afterEmit.tag = s.tag := by
  unfold State.afterEmit; dsimp only; split_ifs <;> rfl
@[simp] theorem State.afterEmit_tagBlk (s : State) : s.afterEmit.tagBlk = s.tagBlk := by
  unfold State.afterEmit; dsimp only; split_ifs <;> rfl
@[simp] theorem State.afterEmit_tagV (s : State) : s.afterEmit.tagV = s.tagV := by
  unfold State.afterEmit; dsimp only; split_ifs <;> rfl
@[simp] theorem State.afterEmit_fb0 (s : State) : s.afterEmit.fb0 = s.fb0 := by
  unfold State.afterEmit; dsimp only; split_ifs <;> rfl
@[simp] theorem State.afterEmit_fb1 (s : State) : s.afterEmit.fb1 = s.fb1 := by
  unfold State.afterEmit; dsimp only; split_ifs <;> rfl
@[simp] theorem State.afterEmit_out (s : State) : s.afterEmit.out = s.out := by
  unfold State.afterEmit; dsimp only; split_ifs <;> rfl
@[simp] theorem State.afterEmit_side (s : State) : s.afterEmit.side = s.side := by
  unfold State.afterEmit; dsimp only; split_ifs <;> rfl
@[simp] theorem State.afterEmit_params (s : State) : s.afterEmit.params = s.params := by
  unfold State.afterEmit; dsimp only; split_ifs <;> rfl
@[simp] theorem State.afterEmit_inp (s : State) : s.afterEmit.inp = s.inp := by
  unfold State.afterEmit; dsimp only; split_ifs <;> rfl

end Sys2Proof.Machine
end

