-- ==== Sys2Proof/Laws/Exec.lean ====
section
/-! SUPPORT. What each shared operation and each meaning can answer, said once: if it answers `next t`, one of the
cases holds. -/

namespace Sys2Proof.Machine

/-! ### The successor rules -/

theorem State.enterFrames_cases (s : State) :
    (s.h.blockSize = 0#16 ∧ s.enterFrames = { s with frm := 0#16, phase := .blockEnd }) ∨
      (s.h.blockSize ≠ 0#16 ∧ s.enterFrames = { s with frm := 0#16, ch := 0#2, phase := .frameK }) := by
  unfold State.enterFrames
  split_ifs with h <;> simp [h]

theorem State.afterSeekSkip_cases (s : State) :
    (s.h.total = 0#32 ∧ s.afterSeekSkip = { s with stDone := true, phase := .done }) ∨
      (s.h.total ≠ 0#32 ∧ s.afterSeekSkip = s.goto .blockSync) := by
  unfold State.afterSeekSkip
  split_ifs with h <;> simp [h]

theorem State.afterBidx_cases (s : State) :
    (gpsDue s.h s.expect = true ∧ s.afterBidx = s.goto .blockGps) ∨
      (gpsDue s.h s.expect = false ∧ s.h.tagp = true ∧ s.afterBidx = s.goto .blockTag) ∨
      (gpsDue s.h s.expect = false ∧ s.h.tagp = false ∧ s.afterBidx = s.enterFrames) := by
  unfold State.afterBidx
  split_ifs with h1 h2 <;> simp_all

theorem State.afterGps_cases (s : State) :
    (s.h.tagp = true ∧ s.afterGps = s.goto .blockTag) ∨ (s.h.tagp = false ∧ s.afterGps = s.enterFrames) := by
  unfold State.afterGps
  split_ifs with h <;> simp_all

theorem State.afterFrk_cases (s : State) :
    ((s.ch + 1#2).toNat < s.h.channels.toNat ∧ s.afterFrk = { s with ch := s.ch + 1#2 }) ∨
      (¬ (s.ch + 1#2).toNat < s.h.channels.toNat ∧ s.h.frameSize = 0#16 ∧
        s.afterFrk = { s with ch := 0#2, spos := 0#16, phase := .frameEmit }) ∨
      (¬ (s.ch + 1#2).toNat < s.h.channels.toNat ∧ s.h.frameSize ≠ 0#16 ∧
        s.afterFrk = { s with ch := 0#2, spos := 0#16, phase := .frameDelta }) := by
  unfold State.afterFrk
  by_cases h1 : (s.ch + 1#2).toNat < s.h.channels.toNat
  · exact .inl ⟨h1, if_pos h1⟩
  · by_cases h2 : s.h.frameSize = 0#16
    · refine .inr (.inl ⟨h1, h2, ?_⟩)
      simp only [if_neg h1, if_pos h2]
    · refine .inr (.inr ⟨h1, h2, ?_⟩)
      simp only [if_neg h1, if_neg h2]

theorem State.afterSlot_cases (s : State) :
    ((s.ch + 1#2).toNat < s.h.channels.toNat ∧ s.afterSlot = { s with ch := s.ch + 1#2 }) ∨
      (¬ (s.ch + 1#2).toNat < s.h.channels.toNat ∧ s.spos + 1#16 < s.h.frameSize ∧
        s.afterSlot = { s with ch := 0#2, spos := s.spos + 1#16 }) ∨
      (¬ (s.ch + 1#2).toNat < s.h.channels.toNat ∧ ¬ s.spos + 1#16 < s.h.frameSize ∧
        s.afterSlot = { s with ch := 0#2, spos := s.spos + 1#16, phase := .frameEmit }) := by
  unfold State.afterSlot
  by_cases h1 : (s.ch + 1#2).toNat < s.h.channels.toNat
  · exact .inl ⟨h1, if_pos h1⟩
  · by_cases h2 : s.spos + 1#16 < s.h.frameSize
    · refine .inr (.inl ⟨h1, h2, ?_⟩)
      simp only [if_neg h1, if_pos h2]
    · refine .inr (.inr ⟨h1, h2, ?_⟩)
      simp only [if_neg h1, if_neg h2]

theorem State.afterEmit_cases (s : State) :
    (s.frm + 1#16 < s.h.blockSize ∧
        s.afterEmit = { s with frm := s.frm + 1#16, ch := 0#2, phase := .frameK }) ∨
      (¬ s.frm + 1#16 < s.h.blockSize ∧ s.afterEmit = { s with frm := s.frm + 1#16, phase := .blockEnd }) := by
  unfold State.afterEmit
  by_cases h : s.frm + 1#16 < s.h.blockSize
  · exact .inl ⟨h, if_pos h⟩
  · exact .inr ⟨h, if_neg h⟩

/-! ### Registers and the frame buffer -/

theorem State.chan_eq_none {s : State} : s.chan = none ↔ s.ch ≠ 0#2 ∧ s.ch ≠ 1#2 := by
  unfold State.chan
  split_ifs <;> simp_all

theorem State.chan_eq_c0 {s : State} : s.chan = some .c0 ↔ s.ch = 0#2 := by
  unfold State.chan
  split_ifs <;> simp_all

theorem State.chan_eq_c1 {s : State} : s.chan = some .c1 ↔ s.ch = 1#2 := by
  unfold State.chan
  split_ifs <;> simp_all

@[simp] theorem State.acc_setAcc (s : State) (c c' : Chan) (v : Word) :
    (s.setAcc c v).acc c' = if c' = c then v else s.acc c' := by
  cases c <;> cases c' <;> rfl

@[simp] theorem State.k_setK (s : State) (c c' : Chan) (v : Nibble) :
    (s.setK c v).k c' = if c' = c then v else s.k c' := by
  cases c <;> cases c' <;> rfl

@[simp] theorem State.lacks_eq_true {s : State} {n : Nat} : s.lacks n = true ↔ s.inp.bitLength < s.pos + n := by
  simp [State.lacks]

@[simp] theorem State.lacks_eq_false {s : State} {n : Nat} : s.lacks n = false ↔ s.pos + n ≤ s.inp.bitLength := by
  simp [State.lacks]

/-! ### The meanings -/

theorem execRdbits_cases {n : Nat} {s t : State} (h : execRdbits n s = .next t) :
    n ≤ 32 ∧ ((s.inp.bitLength < s.pos + n ∧ t = s.takeFault .eos) ∨
      (s.pos + n ≤ s.inp.bitLength ∧ t = s.advance n)) := by
  unfold execRdbits at h
  split_ifs at h with h1 h2
  · cases h; exact ⟨by omega, .inl ⟨by simpa using h2, rfl⟩⟩
  · cases h; exact ⟨by omega, .inr ⟨by simpa using h2, rfl⟩⟩

theorem execRdunary_cases {q : Nat} {s t : State} (h : execRdunary q s = .next t) :
    (s.inp.bitLength < s.pos + (q + 1) ∧ t = s.takeFault .eos) ∨
      (s.pos + (q + 1) ≤ s.inp.bitLength ∧ t = s.advance (q + 1)) := by
  unfold execRdunary at h
  split_ifs at h with h1
  · cases h; exact .inl ⟨by simpa using h1, rfl⟩
  · cases h; exact .inr ⟨by simpa using h1, rfl⟩

theorem execSkipb_cases {n : Nat} {s t : State} (h : execSkipb n s = .next t) :
    (s.inp.bitLength < s.pos + 8 * n ∧ t = s.takeFault .eos) ∨
      (s.pos + 8 * n ≤ s.inp.bitLength ∧ t = s.advance (8 * n)) := by
  unfold execSkipb at h
  split_ifs at h with h1
  · cases h; exact .inl ⟨by simpa using h1, rfl⟩
  · cases h; exact .inr ⟨by simpa using h1, rfl⟩

/-- Exactly the accepted headers raise no FormatError. -/
theorem headerFault_eq_none {f : Header} : headerFault f = none ↔ HeaderAccepted f := by
  unfold headerFault HeaderAccepted headerMagic maxVersion
  by_cases h1 : f.magic = 0x63614157#32
  · by_cases h2 : 4 < f.version.toNat
    · simp [h1, h2]
    · have h2' : f.version.toNat ≤ 4 := by omega
      by_cases h3 : f.channels = 1#8
      · by_cases h4 : f.gpsp = true <;> by_cases h5 : f.seekSize = 0#16 <;>
          simp [h1, h2, h2', h3, h4, h5]
      · by_cases h3' : f.channels = 2#8
        · by_cases h4 : f.gpsp = true <;> by_cases h5 : f.seekSize = 0#16 <;>
            simp [h1, h2, h2', h3', h4, h5]
        · simp [h1, h2, h3, h3']
  · simp [h1]

theorem execHdr_cases {f : Header} {s t : State} (h : execHdr f s = .next t) :
    (s.inp.bitLength < s.pos + 192 ∧ t = s.takeFault .eos) ∨
      (s.pos + 192 ≤ s.inp.bitLength ∧ ∃ c, headerFault f = some c ∧ t = { s with h := f }.takeFault c) ∨
      (s.pos + 192 ≤ s.inp.bitLength ∧ headerFault f = none ∧
        t = ({ s with h := f, hValid := true }.advance 192).goto .seekSkip) := by
  unfold execHdr at h
  split_ifs at h with h1
  · cases h; exact .inl ⟨by simpa using h1, rfl⟩
  · have h1' : s.pos + 192 ≤ s.inp.bitLength := by simpa using h1
    split at h
    · cases h; exact .inr (.inl ⟨h1', _, by assumption, rfl⟩)
    · cases h; exact .inr (.inr ⟨h1', by assumption, rfl⟩)

theorem execSeekskip_cases {s t : State} (h : execSeekskip s = .next t) :
    (s.inp.bitLength < s.pos + 8 * (4 * s.h.seekEntries.toNat) ∧ t = s.takeFault .eos) ∨
      (s.pos + 8 * (4 * s.h.seekEntries.toNat) ≤ s.inp.bitLength ∧
        t = (s.advance (8 * (4 * s.h.seekEntries.toNat))).afterSeekSkip) := by
  unfold execSeekskip at h
  dsimp only at h
  split_ifs at h with h1
  · cases h; exact .inl ⟨by simpa using h1, rfl⟩
  · cases h; exact .inr ⟨by simpa using h1, rfl⟩

theorem execBsync_cases {p : Word} {s t : State} (h : execBsync p s = .next t) :
    (s.inp.bitLength < s.pos + 32 ∧ t = s.takeFault .eos) ∨
      (s.pos + 32 ≤ s.inp.bitLength ∧ p ≠ s.params.syncPattern ∧ t = s.takeFault .badPattern) ∨
      (s.pos + 32 ≤ s.inp.bitLength ∧ p = s.params.syncPattern ∧ t = (s.advance 32).goto .blockIndex) := by
  unfold execBsync at h
  split_ifs at h with h1 h2
  · cases h; exact .inl ⟨by simpa using h1, rfl⟩
  · cases h; exact .inr (.inl ⟨by simpa using h1, h2, rfl⟩)
  · cases h; exact .inr (.inr ⟨by simpa using h1, not_not.mp h2, rfl⟩)

theorem execBidx_cases {x : Word} {s t : State} (h : execBidx x s = .next t) :
    (s.inp.bitLength < s.pos + 32 ∧ t = s.takeFault .eos) ∨
      (s.pos + 32 ≤ s.inp.bitLength ∧ x ≠ s.expect ∧ t = s.takeFault .badIndex) ∨
      (s.pos + 32 ≤ s.inp.bitLength ∧ x = s.expect ∧ t = (s.advance 32).afterBidx) := by
  unfold execBidx at h
  split_ifs at h with h1 h2
  · cases h; exact .inl ⟨by simpa using h1, rfl⟩
  · cases h; exact .inr (.inl ⟨by simpa using h1, h2, rfl⟩)
  · cases h; exact .inr (.inr ⟨by simpa using h1, not_not.mp h2, rfl⟩)

theorem execGps_cases {a : BitVec 25} {o : BitVec 26} {s t : State} (h : execGps a o s = .next t) :
    (s.inp.bitLength < s.pos + 51 ∧ t = s.takeFault .eos) ∨
      (s.pos + 51 ≤ s.inp.bitLength ∧
        t = ((s.advance 51).captureGps (sext 25 a.toNat) (sext 26 o.toNat)).afterGps) := by
  unfold execGps at h
  split_ifs at h with h1
  · cases h; exact .inl ⟨by simpa using h1, rfl⟩
  · cases h; exact .inr ⟨by simpa using h1, rfl⟩

theorem execTag_cases {g : Nibble} {s t : State} (h : execTag g s = .next t) :
    (s.inp.bitLength < s.pos + 4 ∧ t = s.takeFault .eos) ∨
      (s.pos + 4 ≤ s.inp.bitLength ∧ t = ((s.advance 4).captureTag g).enterFrames) := by
  unfold execTag at h
  split_ifs at h with h1
  · cases h; exact .inl ⟨by simpa using h1, rfl⟩
  · cases h; exact .inr ⟨by simpa using h1, rfl⟩

theorem execFrk_cases {k : Nibble} {s t : State} (h : execFrk k s = .next t) :
    ∃ c, s.chan = some c ∧
      ((s.inp.bitLength < s.pos + 4 ∧ t = s.takeFault .eos) ∨
        (s.pos + 4 ≤ s.inp.bitLength ∧
          t = { (s.advance 4).setK c k with stUzero := s.stUzero || marksZeroFrame k }.afterFrk)) := by
  unfold execFrk at h
  split at h
  · cases h
  · rename_i c hc
    refine ⟨c, hc, ?_⟩
    split_ifs at h with h1
    · cases h; exact .inl ⟨by simpa using h1, rfl⟩
    · cases h; exact .inr ⟨by simpa using h1, rfl⟩

theorem execDelta_cases {q r : Nat} {s t : State} (h : execDelta q r s = .next t) :
    ∃ c, s.chan = some c ∧ (s.k c).toNat ≠ 0 ∧
      ((s.inp.bitLength < s.pos + (q + 1 + (s.k c).toNat) ∧ t = s.takeFault .eos) ∨
        (s.pos + (q + 1 + (s.k c).toNat) ≤ s.inp.bitLength ∧
          ∃ sum, sum = (s.acc c).toInt + zigzag (magnitude q (s.k c).toNat r) ∧
            t = ((((s.advance (q + 1 + (s.k c).toNat)).noteOvf (sumOverflows sum)).setAcc c
              (wrap32 sum)).writeFb c (wrap32 sum)).afterSlot)) := by
  unfold execDelta at h
  split at h
  · cases h
  · rename_i c hc
    refine ⟨c, hc, ?_⟩
    dsimp only at h
    split_ifs at h with h1 h2
    · cases h; exact ⟨h1, .inl ⟨by simpa using h2, rfl⟩⟩
    · cases h; exact ⟨h1, .inr ⟨by simpa using h2, _, rfl, rfl⟩⟩

theorem execZdelta_cases {s t : State} (h : execZdelta s = .next t) :
    ∃ c, s.chan = some c ∧ t = (s.writeFb c (s.acc c)).afterSlot := by
  unfold execZdelta at h
  split at h
  · cases h
  · rename_i c hc
    cases h; exact ⟨c, hc, rfl⟩

theorem execEmit_cases {s t : State} (h : execEmit s = .next t) :
    t = { s.noteOvf (s.emitted.any sampleOverflows) with
      out := s.out ++ s.emitted.map wrap16
      produced := s.produced + s.h.frameSize.toNat }.afterEmit := by
  cases h; rfl

theorem execBend_cases {s t : State} (h : execBend s = .next t) :
    (s.h.total.toNat ≤ s.produced ∧ t = { s with expect := s.expect + 1#32, stDone := true, phase := .done }) ∨
      (s.produced < s.h.total.toNat ∧ t = { s with expect := s.expect + 1#32, phase := .blockSync }) := by
  unfold execBend at h
  dsimp only at h
  split_ifs at h with h1
  · cases h; exact .inl ⟨h1, rfl⟩
  · cases h; exact .inr ⟨by omega, rfl⟩

/-! ### Fetching and stepping -/

theorem fetch_cases {s : State} {i : Instr} (h : fetch s = .next i) :
    (s.phase = .frameDelta → s.chan ≠ none) ∧
      decode s.ctx (select s.phase s.width) s.bitsHere s.bitsLeft = .ok i := by
  unfold fetch at h
  split_ifs at h with h1
  refine ⟨fun hp hc => h1 ⟨hp, hc⟩, ?_⟩
  split at h
  · cases h; assumption
  · cases h

theorem step_cases {s t : State} (h : step s = .next t) : ∃ i, fetch s = .next i ∧ exec i s = .next t := by
  unfold step at h
  split at h
  · exact ⟨_, by assumption, h⟩
  · cases h
  · cases h

end Sys2Proof.Machine
end

