-- ==== Sys2Proof/Laws/Memory.lean ====
section
/-! SUPPORT. The stream's cells and the frame buffer's entries: reading after writing, and the canonical forms
that every operation keeps. -/

namespace Sys2Proof.Machine

/-! ### Cells -/

theorem cellsRise_mono {size size' : Nat} (hs : size ≤ size') :
    ∀ {lo lo' : Nat} {l : List Host.Cell}, lo' ≤ lo → cellsRise size lo l = true → cellsRise size' lo' l = true
  | _, _, [], _, _ => rfl
  | lo, lo', (a, b) :: rest, hl, h => by
    simp only [cellsRise, Bool.and_eq_true, decide_eq_true_eq] at h ⊢
    obtain ⟨⟨⟨h1, h2⟩, h3⟩, h4⟩ := h
    exact ⟨⟨⟨by omega, by omega⟩, h3⟩, cellsRise_mono hs le_rfl h4⟩

theorem lookupCell_below {size : Nat} :
    ∀ {lo a : Nat} {l : List Host.Cell}, cellsRise size lo l = true → a < lo → lookupCell a l = 0#8
  | _, _, [], _, _ => rfl
  | lo, a, (x, b) :: rest, h, ha => by
    simp only [cellsRise, Bool.and_eq_true, decide_eq_true_eq] at h
    obtain ⟨⟨⟨h1, -⟩, -⟩, h4⟩ := h
    have hx : x ≠ a := by omega
    simp only [lookupCell, if_neg hx]
    exact lookupCell_below h4 (by omega)

theorem lookupCell_insertCell {size : Nat} (a : Nat) (b : Byte) (a' : Nat) :
    ∀ {lo : Nat} {l : List Host.Cell}, cellsRise size lo l = true →
      lookupCell a' (insertCell a b l) = if a' = a then b else lookupCell a' l
  | _, [], _ => by
    by_cases hb : b = 0#8 <;> by_cases ha : a' = a <;>
      simp [insertCell, lookupCell, hb, ha, eq_comm (a := a)]
  | lo, (x, y) :: rest, h => by
    have h' := h
    simp only [cellsRise, Bool.and_eq_true, decide_eq_true_eq] at h
    obtain ⟨⟨⟨-, -⟩, -⟩, h4⟩ := h
    have ih := lookupCell_insertCell a b a' h4
    rcases Nat.lt_trichotomy a x with hlt | heq | hgt
    · have hself : lookupCell a ((x, y) :: rest) = 0#8 := by
        have hx : x ≠ a := by omega
        simp only [lookupCell, if_neg hx]
        exact lookupCell_below h4 (by omega)
      by_cases hb : b = 0#8
      · by_cases ha : a' = a
        · subst ha; simp [insertCell, hlt, hb, hself]
        · simp [insertCell, hlt, hb, ha]
      · by_cases ha : a' = a
        · subst ha; simp [insertCell, hlt, hb, lookupCell]
        · have ha2 : a ≠ a' := Ne.symm ha
          simp [insertCell, hlt, hb, lookupCell, ha, ha2]
    · subst heq
      by_cases hb : b = 0#8
      · by_cases ha : a' = a
        · subst ha
          simp [insertCell, hb, lookupCell_below h4 (Nat.lt_succ_self _)]
        · have ha2 : a ≠ a' := Ne.symm ha
          simp [insertCell, hb, lookupCell, ha, ha2]
      · by_cases ha : a' = a
        · subst ha; simp [insertCell, hb, lookupCell]
        · have ha2 : a ≠ a' := Ne.symm ha
          simp [insertCell, hb, lookupCell, ha, ha2]
    · have h1 : ¬ a < x := by omega
      have h2 : a ≠ x := by omega
      simp only [insertCell, if_neg h1, if_neg h2, lookupCell, ih]
      by_cases hx : x = a'
      · subst hx; simp [Ne.symm h2]
      · simp [hx]

theorem cellsRise_insertCell {size a : Nat} (b : Byte) (ha : a < size) :
    ∀ {lo : Nat} {l : List Host.Cell}, lo ≤ a → cellsRise size lo l = true →
      cellsRise size lo (insertCell a b l) = true
  | lo, [], hlo, _ => by
    by_cases hb : b = 0#8 <;> simp [insertCell, cellsRise, hb, hlo, ha]
  | lo, (x, y) :: rest, hlo, h => by
    simp only [cellsRise, Bool.and_eq_true, decide_eq_true_eq] at h
    obtain ⟨⟨⟨h1, h2⟩, h3⟩, h4⟩ := h
    rcases Nat.lt_trichotomy a x with hlt | heq | hgt
    · have hax : a + 1 ≤ x := hlt
      by_cases hb : b = 0#8 <;> simp [insertCell, hlt, hb, cellsRise, h1, h2, h3, h4, hlo, ha, hax]
    · subst heq
      by_cases hb : b = 0#8
      · simp only [insertCell, lt_irrefl, if_false, if_pos hb]
        exact cellsRise_mono le_rfl (by omega) h4
      · simp [insertCell, hb, cellsRise, h1, h2, h4]
    · have n1 : ¬ a < x := by omega
      have n2 : a ≠ x := by omega
      simp only [insertCell, if_neg n1, if_neg n2, cellsRise, Bool.and_eq_true, decide_eq_true_eq]
      exact ⟨⟨⟨h1, h2⟩, h3⟩, cellsRise_insertCell b ha (by omega) h4⟩

/-! ### The stream -/

theorem Memory.wf_empty : Memory.empty.wf = true := rfl

theorem State.reset_inp_wf : State.reset.inp.wf = true := rfl

@[simp] theorem Memory.put_size (m : Memory) (a : Nat) (b : Byte) : (m.put a b).size = max m.size (a + 1) := rfl

/-- Storing a byte keeps the canonical form. -/
theorem Memory.wf_put {m : Memory} (h : m.wf = true) (a : Nat) (b : Byte) : (m.put a b).wf = true :=
  cellsRise_insertCell b (Nat.lt_of_lt_of_le (Nat.lt_succ_self a) (le_max_right _ _)) (Nat.zero_le a)
    (cellsRise_mono (le_max_left _ _) le_rfl h)

/-- A byte reads back, and every other byte is as before. -/
theorem Memory.byte_put {m : Memory} (h : m.wf = true) (a : Nat) (b : Byte) (a' : Nat) :
    (m.put a b).byte a' = if a' = a then b else m.byte a' :=
  lookupCell_insertCell a b a' h

/-- There is no byte that is not 0 at the end of the stream or beyond. -/
theorem cellsRise_lookup_end {size : Nat} :
    ∀ {lo a : Nat} {l : List Host.Cell}, cellsRise size lo l = true → size ≤ a → lookupCell a l = 0#8
  | _, _, [], _, _ => rfl
  | lo, a, (x, b) :: rest, h, ha => by
    simp only [cellsRise, Bool.and_eq_true, decide_eq_true_eq] at h
    obtain ⟨⟨⟨-, h2⟩, -⟩, h4⟩ := h
    have hx : x ≠ a := by omega
    simp only [lookupCell, if_neg hx]
    exact cellsRise_lookup_end h4 ha

theorem Memory.byte_end {m : Memory} (h : m.wf = true) {a : Nat} (ha : m.size ≤ a) : m.byte a = 0#8 :=
  cellsRise_lookup_end h ha

theorem Memory.wf_foldl_put {α : Type} (f : α → Nat) (g : α → Byte) (l : List α) :
    ∀ {m : Memory}, m.wf = true → (l.foldl (fun acc x => acc.put (f x) (g x)) m).wf = true := by
  induction l with
  | nil => exact fun h => h
  | cons x l ih => exact fun h => ih (Memory.wf_put h _ _)

/-- Storing a field of bits keeps the canonical form. -/
theorem Memory.wf_place {m : Memory} (h : m.wf = true) (p n : Nat) (bit : Nat → Bool) :
    (m.place p n bit).wf = true :=
  Memory.wf_foldl_put (fun a => a) (fun a => packByte fun i =>
    let j := 8 * a + i
    if p ≤ j ∧ j < p + n then bit (j - p) else m.bit j) _ h

/-- The stream of any bytes is in its canonical form. -/
theorem Memory.wf_ofBytes (bytes : List Byte) : (Memory.ofBytes bytes).wf = true :=
  Memory.wf_foldl_put (fun ba : Byte × Nat => ba.2) (fun ba => ba.1) _ Memory.wf_empty

/-! ### The frame buffer -/

theorem lookupEntry_insertEntry (i : Nat) (v : Word) (i' : Nat) :
    ∀ l : List (Nat × Word),
      lookupEntry i' (insertEntry i v l) = if i' = i then some v else lookupEntry i' l
  | [] => by
    by_cases h : i' = i <;> simp [insertEntry, lookupEntry, h, eq_comm (a := i)]
  | (x, y) :: rest => by
    have ih := lookupEntry_insertEntry i v i' rest
    rcases Nat.lt_trichotomy i x with hlt | heq | hgt
    · by_cases h : i' = i
      · subst h; simp [insertEntry, lookupEntry, hlt]
      · have h2 : i ≠ i' := Ne.symm h
        simp [insertEntry, lookupEntry, hlt, h, h2]
    · subst heq
      by_cases h : i' = i
      · subst h; simp [insertEntry, lookupEntry]
      · have h2 : i ≠ i' := Ne.symm h
        simp [insertEntry, lookupEntry, h, h2]
    · have h1 : ¬ i < x := by omega
      have h2 : i ≠ x := by omega
      simp only [insertEntry, if_neg h1, if_neg h2, lookupEntry, ih]
      by_cases hx : x = i'
      · subst hx; simp [Ne.symm h2]
      · simp [hx]

theorem entriesRise_mono : ∀ {lo lo' : Nat} {l : List (Nat × Word)}, lo' ≤ lo →
    entriesRise lo l = true → entriesRise lo' l = true
  | _, _, [], _, _ => rfl
  | lo, lo', (i, v) :: rest, hl, h => by
    simp only [entriesRise, Bool.and_eq_true, decide_eq_true_eq] at h ⊢
    exact ⟨le_trans hl h.1, h.2⟩

/-- Writing an entry keeps the indices strictly rising. -/
theorem entriesRise_insertEntry {i : Nat} (v : Word) : ∀ {lo : Nat} {l : List (Nat × Word)}, lo ≤ i →
    entriesRise lo l = true → entriesRise lo (insertEntry i v l) = true
  | lo, [], hlo, _ => by simp [insertEntry, entriesRise, hlo]
  | lo, (x, y) :: rest, hlo, h => by
    simp only [entriesRise, Bool.and_eq_true, decide_eq_true_eq] at h
    obtain ⟨h1, h2⟩ := h
    rcases Nat.lt_trichotomy i x with hlt | heq | hgt
    · have hix : i + 1 ≤ x := hlt
      simp [insertEntry, hlt, entriesRise, hlo, hix, h2]
    · subst heq
      simp [insertEntry, entriesRise, h1, h2]
    · have n1 : ¬ i < x := by omega
      have n2 : i ≠ x := by omega
      simp only [insertEntry, if_neg n1, if_neg n2, entriesRise, Bool.and_eq_true, decide_eq_true_eq]
      exact ⟨h1, entriesRise_insertEntry v (by omega) h2⟩

end Sys2Proof.Machine
end

