-- ==== Sys2Proof/Laws/PerInstr.lean ====
section
/-! SUPPORT. Statements about every instruction as syntax, one lemma for each constructor. -/

namespace Sys2Proof.Laws

/-- The encoding of an instruction has the length that 30_encoding.md R91 and R100 give it. -/
def EncodedLength.Statement (i : Instr) : Prop := ∀ cx : Ctx, (encode cx i).length = i.length cx

theorem EncodedLength.rdbits (n v : Nat) : EncodedLength.Statement (.rdbits n v) := fun _ => fieldBits_length n v

theorem EncodedLength.rdunary (q : Nat) : EncodedLength.Statement (.rdunary q) := fun cx =>
  unaryBits_length cx.stopBit q

theorem EncodedLength.skipb (n : Nat) : EncodedLength.Statement (.skipb n) := fun _ => List.length_replicate

theorem EncodedLength.hdr (f : Header) : EncodedLength.Statement (.hdr f) := fun _ => headerBits_length f

theorem EncodedLength.seekskip : EncodedLength.Statement .seekskip := fun _ => List.length_replicate

theorem EncodedLength.bsync (p : Word) : EncodedLength.Statement (.bsync p) := fun _ => fieldBits_length 32 _

theorem EncodedLength.bidx (x : Word) : EncodedLength.Statement (.bidx x) := fun _ => fieldBits_length 32 _

theorem EncodedLength.gps (a : BitVec 25) (o : BitVec 26) : EncodedLength.Statement (.gps a o) := fun _ => by
  simp [encode, Instr.length]

theorem EncodedLength.tag (g : Nibble) : EncodedLength.Statement (.tag g) := fun _ => fieldBits_length 4 _

theorem EncodedLength.frk (k : Nibble) : EncodedLength.Statement (.frk k) := fun _ => fieldBits_length 4 _

theorem EncodedLength.delta (q r : Nat) : EncodedLength.Statement (.delta q r) := fun _ => by
  simp [encode, Instr.length]

theorem EncodedLength.zdelta : EncodedLength.Statement .zdelta := fun _ => rfl

theorem EncodedLength.emit : EncodedLength.Statement .emit := fun _ => rfl

theorem EncodedLength.bend : EncodedLength.Statement .bend := fun _ => rfl

theorem EncodedLength.halt : EncodedLength.Statement .halt := fun _ => rfl

end Sys2Proof.Laws
end

