-- ==== Sys2Proof/Tests/Slice0.lean ====
section
/-! SUPPORT. The model's own tests. The expected results stand in the spec: 95_test_vectors.md (the vector is named
at each test) or the example of the instruction's rule. Then one witness for the hypotheses of each statement. -/

namespace Sys2Proof.Tests

open Sys2Proof.Machine

/-! ### Helpers -/

/-- Stream bits written as 0 and 1, first consumed bit leftmost. -/
def bits (l : List Nat) : List Bool := l.map (· == 1)

/-- The registers that `DELTA` and `SEEKSKIP` are read with. -/
def cx (k : Nibble) : Ctx := { stopBit := true, k := k, seekEntries := 2#16 }

/-- What the decoder reads from the given bits. -/
def read (k : Nibble) (op : Op) (l : List Nat) : Option Instr :=
  match decode (cx k) op (bitsOf (bits l)) l.length with
  | .ok i => some i
  | .error _ => none

/-- A field of the next state. -/
def after {α : Type} (f : State → α) : Result → Option α
  | .next t => some (f t)
  | _ => none

/-- The header of program P1 (vector H1). -/
def header1 : Header where
  magic := 0x63614157#32
  version := 1#8
  channels := 1#8
  frameSize := 4#16
  blockSize := 1#16
  flags := 0#16
  sampleRate := 8000#32
  total := 4#32
  seekSize := 1#16
  seekEntries := 0#16

/-- A state in the middle of a run: the given stream, cursor and phase, with the parameters that 95_test_vectors.md
uses. -/
def at_ (ph : Phase) (h : Header) (pos : Nat) (bytes : List Byte) : State :=
  { State.reset with
    phase := ph
    h := h
    hValid := true
    pos := pos
    params := { syncPattern := 0x00018000#32, stopBit := true }
    inp := Memory.ofBytes bytes }

/-! ### WellFormed: one ill-formed term for each check -/

theorem test_wellFormed_refuses_rdbits_33 : (Instr.rdbits 33 0).wellFormed (cx 2#4) = false := by decide
theorem test_wellFormed_refuses_value_beyond_field : (Instr.rdbits 3 8).wellFormed (cx 2#4) = false := by decide
theorem test_wellFormed_refuses_width_0 : (Instr.delta 1 0).wellFormed (cx 0#4) = false := by decide
theorem test_wellFormed_refuses_remainder_beyond_width : (Instr.delta 1 4).wellFormed (cx 2#4) = false := by
  decide
theorem test_wellFormed_accepts_codeword : (Instr.delta 1 3).wellFormed (cx 2#4) = true := by decide

/-! ### Decode: every constructor, from bits written out -/

/-- Vector BR1, first call. -/
theorem test_decode_rdbits : read 0#4 (.rdbits 3) [1, 0, 1] = some (.rdbits 3 5) := by decide
/-- 40_bitreader.md R121: more than 32 bits are refused. -/
theorem test_decode_rdbits_33 : read 0#4 (.rdbits 33) [] = none := by decide
/-- Vector BR4. -/
theorem test_decode_rdunary : read 0#4 .rdunary [0, 0, 0, 1, 0, 0, 0, 0] = some (.rdunary 3) := by decide
theorem test_decode_skipb : read 0#4 (.skipb 1) [1, 1, 1, 1, 1, 1, 1, 1] = some (.skipb 1) := by decide
/-- 30_encoding.md R93: the pattern string of format H, filled in for program P1 (vector H1). -/
theorem test_decode_hdr :
    read 0#4 .hdr
      ([1,1,1,0,1,0,1,0, 1,0,0,0,0,0,1,0, 1,0,0,0,0,1,1,0, 1,1,0,0,0,1,1,0] ++
       [1,0,0,0,0,0,0,0, 1,0,0,0,0,0,0,0, 0,0,1,0,0,0,0,0,0,0,0,0,0,0,0,0, 1,0,0,0,0,0,0,0,0,0,0,0,0,0,0,0,
        0,0,0,0, 0, 0, 0, 0,0,0,0,0,0,0,0,0] ++
       [0,0,0,0,0,0,1,0,1,1,1,1,1,0,0,0,0,0,0,0,0,0,0,0,0,0,0,0,0,0,0,0] ++
       [0,0,1,0,0,0,0,0,0,0,0,0,0,0,0,0,0,0,0,0,0,0,0,0,0,0,0,0,0,0,0,0] ++
       [1,0,0,0,0,0,0,0,0,0,0,0,0,0,0,0, 0,0,0,0,0,0,0,0,0,0,0,0,0,0,0,0]) = some (.hdr header1) := by
  decide
/-- 30_encoding.md R94: two entries, not examined. -/
theorem test_decode_seekskip : read 0#4 .seekskip [1, 0, 1] = some .seekskip := by decide
/-- 42_block.md R162: the bytes 00 80 01 00. -/
theorem test_decode_bsync :
    read 0#4 .bsync [0,0,0,0,0,0,0,0, 0,0,0,0,0,0,0,1, 1,0,0,0,0,0,0,0, 0,0,0,0,0,0,0,0] =
      some (.bsync 0x00018000#32) := by decide
/-- 42_block.md R163: the bytes 02 00 00 00. -/
theorem test_decode_bidx :
    read 0#4 .bidx [0,1,0,0,0,0,0,0, 0,0,0,0,0,0,0,0, 0,0,0,0,0,0,0,0, 0,0,0,0,0,0,0,0] =
      some (.bidx 2#32) := by decide
/-- Vector B1. -/
theorem test_decode_gps :
    read 0#4 .gps ([0,0,0,0,0,0,1,0,0,1,1,0,1,0,0,0,0,0,0,0,0,0,1,0,0] ++
      [0,0,0,0,0,1,0,0,0,0,0,1,1,0,0,1,0,1,0,1,0,0,1,1,1,1]) =
      some (.gps 0x0401640#25 0x3CA9820#26) := by decide
/-- Vector B4. -/
theorem test_decode_tag : read 0#4 .tag [0, 1, 0, 0] = some (.tag 2#4) := by decide
/-- Vector F5. -/
theorem test_decode_frk : read 0#4 .frk [0, 1, 0, 0] = some (.frk 2#4) := by decide
/-- Vector F2, `m = 13`, `k = 3`: `01 101`. -/
theorem test_decode_delta : read 3#4 .delta [0, 1, 1, 0, 1] = some (.delta 1 5) := by decide
theorem test_decode_delta_width_0 : read 0#4 .delta [1] = none := by decide
theorem test_decode_zdelta : read 0#4 (select .frameDelta 0#4) [] = some .zdelta := by decide
theorem test_decode_emit : read 0#4 (select .frameEmit 0#4) [] = some .emit := by decide
theorem test_decode_bend : read 0#4 (select .blockEnd 0#4) [] = some .bend := by decide
theorem test_decode_halt : read 0#4 (select .done 0#4) [] = some .halt := by decide
/-- 30_encoding.md R93: the row of `HDR` in the opcode table, operand bits 0. -/
theorem test_decodeTableWord_hdr :
    (decodeTableWord 32 0x63614157).map Instr.op = some .hdr := by decide
/-- The next step runs a word that is stored where the machine fetches: the channel count 0 is then BAD_CHANNELS. -/
theorem test_withFetchWord_hdr :
    after (fun t => (t.errCode, t.errSub, t.h.magic)) (step (State.reset.withFetchWord 32 0x63614157)) =
      some (1#2, 3#3, 0x63614157#32) := by decide +kernel

/-! ### The meanings, one step each -/

/-- Vector BR1, fourth call. -/
theorem test_rdbits :
    read 0#4 (.rdbits 12) [1,1,0,0, 0,0,0,0,1,1,1,1] = some (.rdbits 12 3843) ∧
      after State.pos (exec (.rdbits 12 3843) (at_ .header header1 12 [0xB5, 0x3C, 0xF0, 0x0F])) = some 24 := by
  decide
/-- Vector BR3. -/
theorem test_rdbits_truncated :
    after (fun t => (t.pos, t.phase, t.errCode, t.errBit, t.errByte))
      (exec (.rdbits 5 0) (at_ .header header1 28 [0xB5, 0x3C, 0xF0, 0x0F])) =
      some (28, .fault, 3#2, 28, 3) := by decide
/-- Vector BR4, first call. -/
theorem test_rdunary : after State.pos (exec (.rdunary 3) (at_ .header header1 0 [0x08])) = some 4 := by decide
/-- Vector BR4, second call: `0000` and the end of the stream. -/
theorem test_rdunary_truncated :
    unaryRun true (at_ .header header1 4 [0x08]).bitsHere 0 4 = 4 ∧
      after (fun t => (t.pos, t.errCode)) (exec (.rdunary 4) (at_ .header header1 4 [0x08])) = some (4, 3#2) := by
  decide
/-- Vector BR7, unaligned. -/
theorem test_skipb :
    after State.pos (exec (.skipb 2) (at_ .header header1 5 [0, 0, 0])) = some 21 ∧
      after State.pos (exec (.skipb 0) (at_ .header header1 8 [0])) = some 8 := by decide
/-- Vector BR7: one byte too few. -/
theorem test_skipb_truncated :
    after (fun t => (t.pos, t.stErr)) (exec (.skipb 3) (at_ .header header1 5 [0, 0, 0])) = some (5, true) := by
  decide
/-- Vector H1. -/
theorem test_hdr :
    after (fun t => (t.h.total, t.hValid, t.pos, t.phase))
      (exec (.hdr header1) { State.reset with inp := ⟨[], 24⟩ }) = some (4#32, true, 192, .seekSkip) := by decide
/-- Vector H8, last case but for the flags: the channel count is judged before the seek size; vector H9: the fields
stay. -/
theorem test_hdr_check_order :
    after (fun t => (t.errCode, t.errSub, t.hValid, t.pos, t.h.channels))
      (exec (.hdr { header1 with channels := 7#8, flags := 0x20#16, seekSize := 0#16 })
        { State.reset with inp := ⟨[], 24⟩ }) = some (1#2, 3#3, false, 0, 7#8) := by decide
/-- Program P7c. -/
theorem test_seekskip_total_0 :
    after (fun t => (t.pos, t.phase, t.stDone))
      (exec .seekskip { at_ .seekSkip { header1 with total := 0#32, seekEntries := 2#16 } 192 [] with
        inp := ⟨[], 32⟩ }) = some (256, .done, true) := by decide
/-- Program P7b. -/
theorem test_seekskip_truncated :
    after (fun t => (t.pos, t.errBit, t.errByte, t.hValid))
      (exec .seekskip { at_ .seekSkip { header1 with seekEntries := 2#16 } 192 [] with inp := ⟨[], 31⟩ }) =
      some (192, 192, 24, true) := by decide
/-- 42_block.md R162. -/
theorem test_bsync :
    after (fun t => (t.pos, t.phase)) (step (at_ .blockSync header1 0 [0x00, 0x80, 0x01, 0x00])) =
      some (32, .blockIndex) := by decide
/-- Vector B6. -/
theorem test_bsync_bad_pattern :
    after (fun t => (t.pos, t.errCode, t.errSub)) (step (at_ .blockSync header1 0 [0x00, 0x80, 0x01, 0x01])) =
      some (0, 2#2, 1#3) := by decide
/-- Vector B3, seek size 3 at block 3. -/
theorem test_bidx_gps_due :
    after (fun t => (t.pos, t.phase, t.expect))
      (step { at_ .blockIndex { header1 with flags := 0x60#16, seekSize := 3#16 } 0 [3, 0, 0, 0] with
        expect := 3#32 }) = some (32, .blockGps, 3#32) := by decide
/-- Vector B7. -/
theorem test_bidx_bad_index :
    after (fun t => (t.errSub, t.errBlock))
      (step { at_ .blockIndex header1 0 [2, 0, 0, 0] with expect := 1#32 }) = some (2#3, 1#32) := by decide
/-- Vector B1. -/
theorem test_gps :
    after (fun t => (t.gpsLat, t.gpsLon, t.side, t.pos, t.phase))
      (step (at_ .blockGps { header1 with flags := 0x60#16 } 0 [0x40, 0x16, 0x40, 0x40, 0x30, 0x95, 0x07])) =
      some (4200000, -3500000, [.gps 0#32 4200000 (-3500000)], 51, .blockTag) := by decide
/-- Vector B2. -/
theorem test_sext :
    sext 25 0x0FFFFFF = 16777215 ∧ sext 25 0x1000000 = -16777216 ∧ sext 25 0x176ABC0 = -9000000 ∧
      sext 26 0x2000000 = -33554432 ∧ sext 26 0x2ED5780 = -18000000 := by decide
/-- Vector B4. -/
theorem test_tag :
    after (fun t => (t.tag, t.tagV, t.stUtag, t.phase)) (step (at_ .blockTag header1 0 [0x0F])) =
      some (15#4, true, true, .frameK) := by decide
/-- 45_sequencer.md R218: a block of no frames (program P11). -/
theorem test_tag_empty_block :
    after State.phase (step (at_ .blockTag { header1 with blockSize := 0#16 } 0 [0x02])) = some .blockEnd := by
  decide
/-- Vector F5. -/
theorem test_frk :
    after (fun t => (t.k0, t.stUzero, t.pos, t.phase)) (step (at_ .frameK header1 0 [0x02])) =
      some (2#4, false, 4, .frameDelta) := by decide
/-- Vector F5: the zero-frame marker; with two channels the second nibble is next. -/
theorem test_frk_zero_stereo :
    after (fun t => (t.k0, t.stUzero, t.ch, t.phase)) (step (at_ .frameK { header1 with channels := 2#8 } 0 [0x00])) =
      some (0#4, true, 1#2, .frameK) := by decide
/-- The example of 43_frame.md R183: bits `0,1,0,1`. -/
theorem test_delta :
    after (fun t => (t.acc0, t.fb0, t.pos, t.stOvf, t.spos))
      (step { at_ .frameDelta header1 0 [0x0A] with k0 := 2#4 }) =
      some (3#32, [(0, 3#32)], 4, false, 1#16) := by decide
/-- Vector F4: the sum wraps. -/
theorem test_delta_wraps :
    after (fun t => (t.acc1.toInt, t.acc0, t.stOvf, t.phase))
      (exec (.delta 1 0) { at_ .frameDelta { header1 with channels := 2#8, frameSize := 1#16 } 0 [0] with
        k1 := 1#4, ch := 1#2, acc1 := 0x7FFFFFFF#32 }) =
      some (-2147483648, 0#32, true, .frameEmit) := by decide
/-- Vector F6. -/
theorem test_zdelta :
    after (fun t => (t.acc0, t.fb0, t.pos)) (step { at_ .frameDelta header1 7 [0] with acc0 := 4#32 }) =
      some (4#32, [(0, 4#32)], 7) := by decide
/-- Vector E2. -/
theorem test_emit :
    after (fun t => (t.out, t.produced, t.stOvf, t.phase))
      (step { at_ .frameEmit { header1 with channels := 2#8, flags := 1#16, frameSize := 2#16 } 0 [] with
        fb0 := [(0, 5#32), (1, 4#32)], fb1 := [(0, 0xFFFFFFFE#32), (1, 7#32)] }) =
      some ([0x000A#16, 0xFFFC#16, 0x0008#16, 0x000E#16], 2, false, .blockEnd) := by decide
/-- Vector E3: the fourth position is beyond the total. -/
theorem test_emit_clips :
    after (fun t => (t.out, t.produced))
      (step { at_ .frameEmit { header1 with total := 3#32 } 0 [] with
        fb0 := [(0, 3#32), (1, 1#32), (2, 1#32), (3, 6#32)] }) = some ([3#16, 1#16, 1#16], 4) := by decide
/-- Vector E1, two rows out of range. -/
theorem test_emit_values :
    wrap16 (rescale 0 32768#32) = 0x8000#16 ∧ sampleOverflows (rescale 0 32768#32) = true ∧
      wrap16 (rescale 1 (wrap32 (-16385))) = 0x7FFE#16 ∧ sampleOverflows (rescale 15 (wrap32 (-1))) = false := by
  decide
/-- Vector F1. -/
theorem test_zigzag :
    zigzag 5 = -3 ∧ zigzag 6 = 3 ∧ zigzag 65535 = -32768 ∧ zigzag 4294967294 = 2147483647 := by decide
/-- The example of 45_sequencer.md R222. -/
theorem test_bend :
    after (fun t => (t.expect, t.stDone, t.phase)) (step { at_ .blockEnd header1 0 [] with produced := 4 }) =
      some (1#32, true, .done) := by decide
/-- Program P8: the total is not reached. -/
theorem test_bend_goes_on :
    after (fun t => (t.expect, t.stDone, t.phase))
      (step { at_ .blockEnd { header1 with total := 8#32 } 0 [] with produced := 4 }) =
      some (1#32, false, .blockSync) := by decide
theorem test_halt : after State.phase (step (at_ .fault header1 3 [])) = some .fault := by decide

/-! ### Witnesses: a concrete case that meets the hypotheses of each statement, clause by clause, at the
boundary of each range -/

/-- A codeword `0101` at width 2 is next, and nothing after it. -/
def sDelta : State := { at_ .frameDelta { header1 with frameSize := 1#16 } 0 [0xA0] with k0 := 2#4, pos := 4 }
/-- The same for channel 1. -/
def sDelta1 : State := { sDelta with k1 := 2#4, ch := 1#2, h := { header1 with channels := 2#8 } }
/-- A header has been accepted and the seek table is next. -/
def sSeek : State := { at_ .seekSkip header1 192 [] with inp := ⟨[], 32⟩ }
/-- A stream of `n` bytes of zeros. -/
def zeros (n : Nat) : Memory := ⟨[], n⟩
/-- A state in the given phase, at bit `pos` of `n` bytes of zeros, with header `h`. -/
def sAt (ph : Phase) (h : Header) (pos n : Nat) : State := { at_ ph h pos [] with inp := zeros n }
/-- The header of a stream with no samples. -/
def header0 : Header := { header1 with total := 0#32, seekEntries := 2#16 }
/-- The stream of program P1: one channel, one block of one frame of four samples. -/
def p1 : Memory :=
  Memory.ofBytes
    ([0x57, 0x41, 0x61, 0x63, 0x01, 0x01, 0x04, 0x00, 0x01, 0x00, 0x00, 0x00] ++
      [0x40, 0x1F, 0x00, 0x00, 0x04, 0x00, 0x00, 0x00, 0x01, 0x00, 0x00, 0x00] ++
      [0x00, 0x80, 0x01, 0x00, 0x00, 0x00, 0x00, 0x00, 0xA2, 0x0F, 0x05])
/-- A stream of no samples: its header, and a seek table of one entry whose content is `e`. -/
def p0 (e : Byte) : Memory :=
  Memory.ofBytes
    ([0x57, 0x41, 0x61, 0x63, 0x01, 0x01, 0x04, 0x00, 0x01, 0x00, 0x00, 0x00] ++
      [0x40, 0x1F, 0x00, 0x00, 0x00, 0x00, 0x00, 0x00, 0x01, 0x00, 0x01, 0x00] ++ [0x00, 0x00, 0x00, e])
/-- The parameters that 95_test_vectors.md uses. -/
def params1 : Params := { syncPattern := 0x00018000#32, stopBit := true }
/-- The stream of program P1's frame alone, from its first codeword on. -/
def sMono : State := { at_ .frameDelta header1 260 [] with k0 := 2#4, inp := p1 }
/-- Two channels, one position: the codewords of 1 and -1 at width 1. -/
def sStereo : State :=
  { at_ .frameDelta { header1 with channels := 2#8, frameSize := 1#16 } 0 [0x1A] with k0 := 1#4, k1 := 1#4 }

theorem witness_DecodingAnEncodedInstructionGivesItBack :
    (Instr.delta 1 3).wellFormed (cx 2#4) = true ∧ (Instr.delta 0 32767).wellFormed (cx 15#4) = true ∧
      (Instr.rdbits 32 4294967295).wellFormed (cx 0#4) = true ∧ (Instr.rdbits 0 0).wellFormed (cx 0#4) = true ∧
      (Instr.hdr header1).wellFormed (cx 0#4) = true := by decide
theorem witness_EncodingADecodedInstructionGivesItsBits :
    decode (cx 2#4) .delta (bitsOf [false, true, false, true]) 4 = .ok (.delta 1 2) ∧
      (Instr.delta 1 2).length (cx 2#4) ≤ 4 ∧ (∀ n, Instr.delta 1 2 ≠ .skipb n) ∧
      Instr.delta 1 2 ≠ .seekskip := by
  refine ⟨by decide, by decide, fun n h => ?_, by decide⟩
  cases h
theorem witness_PhaseAloneSelectsTheElement :
    (15#4 : Nibble) ≠ 0#4 ∧ fetch sDelta = .next (.delta 1 2) ∧ sDelta.chan = some .c0 := ⟨by decide, rfl, rfl⟩
theorem witness_StepRunsTheDecodedInstruction :
    (Instr.delta 1 2).wellFormed sDelta.ctx = true ∧ (sDelta.phase = .frameDelta → sDelta.chan ≠ none) ∧
      decode sDelta.ctx (select sDelta.phase sDelta.width) sDelta.bitsHere sDelta.bitsLeft = .ok (.delta 1 2) := by
  decide
theorem witness_StepPerformsTheElementThatTheStreamHolds :
    (Instr.delta 1 2).wellFormed sDelta.ctx = true ∧ (Instr.delta 1 2).op = select sDelta.phase sDelta.width ∧
      (sDelta.phase = .frameDelta → sDelta.chan ≠ none) ∧
      Holds sDelta.inp sDelta.pos (encode sDelta.ctx (.delta 1 2)) ∧
      Instr.seekskip.op = select sSeek.phase sSeek.width := by
  unfold Holds
  decide
theorem witness_TableWordRunsAsTheNextInstruction :
    sSeek.inp.wf = true ∧ (decodeTableWord 32 0x63614157).isSome = true ∧
      decodeTableWord 56 0 = some (.gps 0 0) := by decide
theorem witness_RdbitsReadsAnUnsignedField :
    (32 ≤ 32 ∧ (at_ .header header1 0 [0, 0, 0, 9]).pos + 32 ≤ 8 * (at_ .header header1 0 [0, 0, 0, 9]).inp.size) ∧
      8 * (at_ .header header1 1 [0, 0, 0, 9]).inp.size < (at_ .header header1 1 [0, 0, 0, 9]).pos + 32 ∧ 32 < 33 := by
  decide
theorem witness_RdunaryCountsTheBitsBeforeTheStopBit :
    (0 + 3 + 1 ≤ 8 * (at_ .header header1 0 [0x08]).inp.size ∧
      (∀ j < 3, (at_ .header header1 0 [0x08]).inp.bit (0 + j) ≠ true) ∧
      (at_ .header header1 0 [0x08]).inp.bit (0 + 3) = (at_ .header header1 0 [0x08]).params.stopBit) ∧
      ∀ j, 4 + j < 8 * (at_ .header header1 4 [0x08]).inp.size →
        (at_ .header header1 4 [0x08]).inp.bit (4 + j) ≠ (at_ .header header1 4 [0x08]).params.stopBit := by
  refine ⟨by decide, fun j hj => ?_⟩
  have h : j < 4 := by
    have e : (at_ .header header1 4 [0x08]).inp.size = 1 := by decide
    omega
  revert hj
  revert j
  decide
theorem witness_SkipbPassesOverWholeBytes :
    5 + 8 * 2 ≤ 8 * (at_ .header header1 5 [0, 0, 0]).inp.size ∧
      8 * (at_ .header header1 5 [0, 0, 0]).inp.size < 5 + 8 * 3 := by decide
theorem witness_HdrParsesAndValidatesTheHeader :
    8 * (sAt .header header1 0 23).inp.size < (sAt .header header1 0 23).pos + 192 ∧
      (sAt .header header1 0 24).pos + 192 ≤ 8 * (sAt .header header1 0 24).inp.size ∧
      (sAt .header header1 0 24).phase = .header := by decide
theorem witness_HdrAcceptsExactlyTheValidHeaders :
    (sAt .header header1 0 24).pos + 192 ≤ 8 * (sAt .header header1 0 24).inp.size ∧ HeaderAccepted header1 ∧
      HeaderAccepted { header1 with version := 4#8 } ∧ ¬ HeaderAccepted { header1 with version := 5#8 } ∧
      ¬ HeaderAccepted { header1 with flags := 0x20#16, seekSize := 0#16 } := by
  unfold HeaderAccepted
  decide
theorem witness_SeekskipPassesOverTheSeekTable :
    8 * (sAt .seekSkip header0 192 31).inp.size <
        (sAt .seekSkip header0 192 31).pos + 32 * (sAt .seekSkip header0 192 31).h.seekEntries.toNat ∧
      ((sAt .seekSkip header0 192 32).pos + 32 * (sAt .seekSkip header0 192 32).h.seekEntries.toNat ≤
          8 * (sAt .seekSkip header0 192 32).inp.size ∧ (sAt .seekSkip header0 192 32).h.total = 0#32) ∧
      (sAt .seekSkip header1 192 24).pos + 32 * (sAt .seekSkip header1 192 24).h.seekEntries.toNat ≤
          8 * (sAt .seekSkip header1 192 24).inp.size ∧ (sAt .seekSkip header1 192 24).h.total ≠ 0#32 := by decide
theorem witness_BsyncChecksThePattern :
    8 * (sAt .blockSync header1 0 3).inp.size < (sAt .blockSync header1 0 3).pos + 32 ∧
      ((sAt .blockSync header1 0 4).pos + 32 ≤ 8 * (sAt .blockSync header1 0 4).inp.size ∧
        (0x00018001#32 : Word) ≠ (sAt .blockSync header1 0 4).params.syncPattern ∧
        (0x00018000#32 : Word) = (sAt .blockSync header1 0 4).params.syncPattern) ∧
      (sAt .blockSync header1 0 4).phase = .blockSync := by decide
theorem witness_BidxChecksTheIndexAndPicksTheSuccessor :
    8 * (sAt .blockIndex header1 0 3).inp.size < (sAt .blockIndex header1 0 3).pos + 32 ∧
      ((sAt .blockIndex header1 0 4).pos + 32 ≤ 8 * (sAt .blockIndex header1 0 4).inp.size ∧
        (1#32 : Word) ≠ (sAt .blockIndex header1 0 4).expect) ∧
      (let s := sAt .blockIndex { header1 with flags := 0x20#16 } 0 4;
        s.pos + 32 ≤ 8 * s.inp.size ∧ (0#32 : Word) = s.expect ∧ s.h.gpsp = true ∧ s.h.seekSize ≠ 0#16 ∧
          s.expect.toNat % s.h.seekSize.toNat = 0) ∧
      (let s := sAt .blockIndex header1 0 4;
        s.pos + 32 ≤ 8 * s.inp.size ∧ (0#32 : Word) = s.expect ∧ s.h.gpsp = false) ∧
      (let s := { sAt .blockIndex { header1 with flags := 0x20#16, seekSize := 3#16 } 0 4 with expect := 1#32 };
        s.pos + 32 ≤ 8 * s.inp.size ∧ (1#32 : Word) = s.expect ∧ s.h.seekSize ≠ 0#16 ∧
          s.expect.toNat % s.h.seekSize.toNat ≠ 0) ∧
      (sAt .blockIndex header1 0 4).phase = .blockIndex := by decide
theorem witness_BidxGoesOnWhereTheCadenceHasNoValue :
    let s := sAt .blockIndex { header1 with flags := 0x20#16, seekSize := 0#16 } 0 4
    s.pos + 32 ≤ 8 * s.inp.size ∧ s.h.gpsp = true ∧ s.h.seekSize = 0#16 := by decide
theorem witness_EnteringTheFramesOfABlock :
    (sAt .blockTag { header1 with blockSize := 0#16 } 0 4).h.blockSize = 0#16 ∧
      (sAt .blockTag header1 0 4).h.blockSize ≠ 0#16 := by decide
theorem witness_GpsCapturesAndRecordsTheFix :
    8 * (sAt .blockGps header1 0 6).inp.size < (sAt .blockGps header1 0 6).pos + 51 ∧
      (sAt .blockGps header1 5 7).pos + 51 ≤ 8 * (sAt .blockGps header1 5 7).inp.size ∧
      (sAt .blockGps header1 5 7).phase = .blockGps := by decide
theorem witness_TagCapturesAndRecordsTheNibble :
    8 * (sAt .blockTag header1 5 1).inp.size < (sAt .blockTag header1 5 1).pos + 4 ∧
      (sAt .blockTag header1 4 1).pos + 4 ≤ 8 * (sAt .blockTag header1 4 1).inp.size ∧
      (sAt .blockTag header1 4 1).phase = .blockTag := by decide
theorem witness_FrkReadsOneRemainderWidth :
    (sDelta.ch = 0#2 ∧ sDelta.pos + 4 ≤ 8 * sDelta.inp.size) ∧
      (sDelta1.ch = 1#2 ∧ sDelta1.pos + 4 ≤ 8 * sDelta1.inp.size) ∧
      (let s := { sDelta1 with pos := 5 };
        s.ch = 1#2 ∧ 8 * s.inp.size < s.pos + 4) ∧ (sAt .frameK header1 4 1).phase = .frameK := by decide
theorem witness_SuccessorOfARemainderWidth :
    (sStereo.ch.toNat ≤ 2 ∧ sStereo.ch.toNat + 1 < sStereo.h.channels.toNat) ∧
      (sDelta1.ch.toNat ≤ 2 ∧ sDelta1.h.channels.toNat ≤ sDelta1.ch.toNat + 1 ∧ sDelta1.h.frameSize ≠ 0#16) ∧
      (let s := sAt .frameK { header1 with frameSize := 0#16 } 0 4;
        s.ch.toNat ≤ 2 ∧ s.h.channels.toNat ≤ s.ch.toNat + 1 ∧ s.h.frameSize = 0#16) := by decide
theorem witness_DeltaAddsTheDecodedDelta :
    (sDelta.ch = 0#2 ∧ sDelta.k0 ≠ 0#4 ∧ 6 = 1 * 2 ^ sDelta.k0.toNat + 2 ∧ (6 % 2 = 0 → (3 : Int) = 6 / 2) ∧
      sDelta.pos + 1 + 1 + sDelta.k0.toNat ≤ 8 * sDelta.inp.size ∧
      8 * sDelta.inp.size < sDelta.pos + 2 + 1 + sDelta.k0.toNat) ∧
    (sDelta1.ch = 1#2 ∧ sDelta1.k1 ≠ 0#4 ∧ 7 = 1 * 2 ^ sDelta1.k1.toNat + 3 ∧
      (7 % 2 = 1 → (-4 : Int) = -((7 + 1) / 2)) ∧
      sDelta1.pos + 1 + 1 + sDelta1.k1.toNat ≤ 8 * sDelta1.inp.size ∧
      8 * sDelta1.inp.size < sDelta1.pos + 2 + 1 + sDelta1.k1.toNat) ∧
    (sDelta.phase = .frameDelta ∧ sDelta.chan = some .c0 ∧ sDelta.k .c0 ≠ 0#4 ∧
      (∀ j < 1, sDelta.inp.bit (sDelta.pos + j) ≠ sDelta.params.stopBit) ∧
      sDelta.pos + 1 < 8 * sDelta.inp.size ∧ sDelta.inp.bit (sDelta.pos + 1) = sDelta.params.stopBit) ∧
    ∀ j, { sDelta with pos := 8 }.pos + j < 8 * sDelta.inp.size →
      sDelta.inp.bit ({ sDelta with pos := 8 }.pos + j) ≠ sDelta.params.stopBit := by
  refine ⟨by decide, by decide, by decide, fun j hj => ?_⟩
  have e : sDelta.inp.size = 1 := by decide
  rw [e] at hj
  change 8 + j < 8 * 1 at hj
  omega
theorem witness_ZdeltaRepeatsTheAccumulator : sDelta.ch = 0#2 ∧ sDelta1.ch = 1#2 := by decide
theorem witness_SuccessorOfASlot :
    (sStereo.ch.toNat ≤ 2 ∧ sStereo.spos.toNat < sStereo.h.frameSize.toNat ∧
      sStereo.ch.toNat + 1 < sStereo.h.channels.toNat) ∧
    (sMono.ch.toNat ≤ 2 ∧ sMono.h.channels.toNat ≤ sMono.ch.toNat + 1 ∧
      sMono.spos.toNat + 1 < sMono.h.frameSize.toNat) ∧
    (sDelta.ch.toNat ≤ 2 ∧ sDelta.h.channels.toNat ≤ sDelta.ch.toNat + 1 ∧
      sDelta.spos.toNat + 1 = sDelta.h.frameSize.toNat) := by
  decide
theorem witness_NoElementOfAThirdChannelRuns :
    { sDelta with ch := 2#2 }.ch = 2#2 ∧ { sDelta with ch := 3#2 }.phase = .frameDelta ∧
      { sDelta with k0 := 0#4 }.chan = some .c0 ∧ { sDelta with k0 := 0#4 }.k .c0 = 0#4 := by decide
theorem witness_ZigzagIsABijectionOntoTheIntegers :
    0 % 2 = 0 ∧ 1 % 2 = 1 ∧ (0 : Int) ≤ 0 ∧ (-1 : Int) < 0 := by decide
theorem witness_EveryMagnitudeHasOneCodeword : (15#4 : Nibble) ≠ 0#4 := by decide
theorem witness_WrapAndSignExtensionAreTwosComplement :
    (0x80000000#32 : Word).toInt % 2 ^ 32 = (2 ^ 31 : Int) % 2 ^ 32 ∧ 0 < 1 ∧ 1 < 2 ^ 1 := by decide
theorem witness_EmitAppendsTheFrameInterleaved :
    1 = min { sDelta with produced := 3 }.h.frameSize.toNat
      ({ sDelta with produced := 3 }.h.total.toNat - { sDelta with produced := 3 }.produced) := by decide
theorem witness_SuccessorOfAnEmittedFrame :
    (let s := sAt .frameEmit { header1 with blockSize := 2#16 } 0 4;
        s.frm.toNat < s.h.blockSize.toNat ∧ s.frm.toNat + 1 < s.h.blockSize.toNat) ∧
      (sDelta.frm.toNat < sDelta.h.blockSize.toNat ∧ sDelta.frm.toNat + 1 = sDelta.h.blockSize.toNat) := by decide
theorem witness_BendClosesTheBlock :
    { sDelta with produced := 4 }.produced ≥ sDelta.h.total.toNat ∧
      { sDelta with produced := 3 }.produced < sDelta.h.total.toNat := by decide
theorem witness_TerminalStatesAreNeverLeft :
    (at_ .done header1 0 []).Terminal ∧ (at_ .fault header1 0 []).Terminal := ⟨.inl rfl, .inr rfl⟩
theorem witness_FaultsArePreciseAndRecorded :
    ∃ t, exec (.bsync 1#32) (at_ .blockSync header1 0 [0, 0, 0, 9]) = .next t ∧
      (at_ .blockSync header1 0 [0, 0, 0, 9]).stErr = false ∧ t.stErr = true := ⟨_, rfl, rfl, rfl⟩
theorem witness_EveryCauseHasItsCodeAndItsElement :
    (∃ t, exec (.hdr { header1 with magic := 0#32 }) sSeek.restart = .next t ∧ t.stErr = true ∧ t.errCode = 1#2) ∧
      (∃ t, exec (.bsync 1#32) sSeek.restart = .next t ∧ t.stErr = true ∧ t.errCode = 2#2 ∧ t.errSub = 1#3) ∧
      (∃ t, exec (.bidx 1#32) sSeek.restart = .next t ∧ t.stErr = true ∧ t.errCode = 2#2 ∧ t.errSub = 2#3) ∧
      ∃ t, exec (.skipb 33) sSeek.restart = .next t ∧ t.stErr = true ∧ t.errCode = 3#2 :=
  ⟨⟨_, rfl, rfl, rfl⟩, ⟨_, rfl, rfl, rfl, rfl⟩, ⟨_, rfl, rfl, rfl, rfl⟩, ⟨_, rfl, rfl, rfl⟩⟩
theorem witness_EachRegisterHasItsOnlyWriters : ∃ t, exec (.delta 1 2) sDelta = .next t ∧ t.phase ≠ .fault :=
  ⟨_, rfl, by decide⟩
theorem witness_OutputsGrowAndFlagsStick :
    ∃ t, exec .emit { sDelta with stOvf := true, stUgps := true, stUtag := true, stUzero := true } = .next t ∧
      t.stOvf = true := ⟨_, rfl, rfl⟩
theorem witness_CursorMovesForwardByTheElement : ∃ t, exec (.delta 1 2) sDelta = .next t := ⟨_, rfl⟩
theorem witness_DecodingReadsNoOutput :
    sDelta.decodingPart = { sDelta with stOvf := true, out := [7#16], gpsLat := 5 }.decodingPart ∧
      ∃ t, step sDelta = .next t := ⟨rfl, _, rfl⟩
theorem witness_TriggeredFlagChangesNothing :
    sDelta.phase ≠ .header ∧ (0xFF90#16 : Half).toNat % 16 = sDelta.h.flags.toNat % 16 ∧
      (0xFF90#16 : Half).toNat.testBit 5 = sDelta.h.flags.toNat.testBit 5 ∧
      (0xFE90#16 : Half).toNat.testBit 6 = false ∧ (0xFF10#16 : Half).toNat.testBit 6 = sDelta.h.flags.toNat.testBit 6 ∧
      (0xFF10#16 : Half).toNat.testBit 5 = sDelta.h.flags.toNat.testBit 5 ∧ ∃ t, step sDelta = .next t :=
  ⟨by decide, by decide, by decide, by decide, by decide, by decide, _, rfl⟩
theorem witness_NothingBeyondTheCursorMatters :
    ∃ t, runFrom 1 { sDelta with inp := ⟨[(0, 0xA0#8), (1, 1#8)], 2⟩ } = .next t ∧ t.phase ≠ .fault ∧ t.pos = 8 ∧
      (∀ i < 8, (⟨[(0, 0xA0#8)], 1⟩ : Memory).bit i = (⟨[(0, 0xA0#8), (1, 1#8)], 2⟩ : Memory).bit i) ∧
      t.pos ≤ 8 * (⟨[(0, 0xA0#8)], 1⟩ : Memory).size :=
  ⟨_, rfl, by decide, by decide, by decide, by decide⟩
theorem witness_SeekTableContentIsNeverRead :
    (p0 9).size = (p0 0).size ∧ memRead (p0 0).bit 176 16 = 1 ∧
      (∀ i < 192, (p0 9).bit i = (p0 0).bit i) ∧ (p0 9).bit 216 ≠ (p0 0).bit 216 ∧
      ∃ t, runFrom 2 (State.start params1 (p0 0)) = .next t := by
  refine ⟨by decide, by decide +kernel, by decide +kernel, by decide +kernel, _, rfl⟩
theorem witness_ResetGivesTheValuesOfTheTable : ∃ s r : State, r = s.restart ∧ s.pos = 192 := ⟨sSeek, _, rfl, rfl⟩
/-- A good state in the middle of a run. -/
theorem witness_inv : Inv sSeek := by
  constructor <;>
    simp [sSeek, at_, header1, State.reset, Memory.wf, cellsRise, Memory.bitLength, State.InFrame,
      State.InBlockHead, HeaderAccepted, Header.gpsp, entriesRise]
theorem witness_EveryStartMeetsTheInvariant : p1.wf = true := by decide
theorem witness_EveryStepKeepsTheInvariant : ∃ s t, Inv s ∧ step s = .next t := ⟨sSeek, _, witness_inv, rfl⟩
theorem witness_EveryStepFromAGoodStateCompletes : ∃ s, Inv s := ⟨sSeek, witness_inv⟩
theorem witness_DoneRunsHaveTheDeclaredLength :
    (p0 0).wf = true ∧ after State.stDone (runFrom 2 (State.start params1 (p0 0))) = some true := by decide +kernel
theorem witness_EveryRunEndsWithinItsBound : p1.wf = true := by decide
theorem witness_MonoFrameDecodesToItsRunningSums :
    (sMono.phase = .frameDelta ∧ sMono.ch = 0#2 ∧ sMono.spos = 0#16 ∧ sMono.h.channels = 1#8 ∧ sMono.k0 ≠ 0#4 ∧
      [(3 : Int), -2, 0, 5].length = sMono.h.frameSize.toNat ∧ [(3 : Int), -2, 0, 5] ≠ []) ∧
      Holds sMono.inp sMono.pos ([(3 : Int), -2, 0, 5].flatMap (codeword sMono.params.stopBit sMono.k0)) := by
  unfold Holds
  decide
theorem witness_StereoFrameKeepsTheChannelsApart :
    (sStereo.phase = .frameDelta ∧ sStereo.ch = 0#2 ∧ sStereo.spos = 0#16 ∧ sStereo.h.channels = 2#8 ∧
      sStereo.k0 ≠ 0#4 ∧ sStereo.k1 ≠ 0#4 ∧ [((1 : Int), (-1 : Int))].length = sStereo.h.frameSize.toNat) ∧
      Holds sStereo.inp sStereo.pos
        ([((1 : Int), (-1 : Int))].flatMap fun d =>
          codeword sStereo.params.stopBit sStereo.k0 d.1 ++ codeword sStereo.params.stopBit sStereo.k1 d.2) := by
  unfold Holds
  decide
theorem witness_ZeroFrameRepeatsTheAccumulator :
    { sMono with k0 := 0#4 }.phase = .frameDelta ∧ sMono.ch = 0#2 ∧ sMono.spos = 0#16 ∧ sMono.h.channels = 1#8 ∧
      { sMono with k0 := 0#4 }.k0 = 0#4 ∧ 0 < sMono.h.frameSize.toNat := by decide
theorem witness_OneBlockStreamDecodesToItsSamples :
    (HeaderAccepted header1 ∧ header1.channels = 1#8 ∧ header1.blockSize = 1#16 ∧ header1.seekEntries = 0#16 ∧
      header1.gpsp = false ∧ header1.tagp = false ∧ [(3 : Int), -2, 0, 5].length = header1.frameSize.toNat ∧
      header1.total.toNat = header1.frameSize.toNat) ∧
      Holds p1 0 (headerBits header1 ++ fieldBits 32 params1.syncPattern.toNat ++ fieldBits 32 0
        ++ fieldBits 4 (2#4 : Nibble).toNat ++ [(3 : Int), -2, 0, 5].flatMap (codeword params1.stopBit 2#4)) := by
  unfold Holds HeaderAccepted
  decide +kernel

end Sys2Proof.Tests
end

section
/-! PROOFS. The 32-bit wrap and sign extension (00_scope.md R10): the rules for `wrap32` and `sext`, and O32. -/

namespace Sys2Proof.Machine

/-! ### `wrap32` -/

/-- The register's signed value is the balanced remainder of the integer. -/
@[simp] theorem toInt_wrap32 (z : Int) : (wrap32 z).toInt = z.bmod (2 ^ 32) := BitVec.toInt_ofInt z

@[simp] theorem wrap32_toInt (w : Word) : wrap32 w.toInt = w := BitVec.ofInt_toInt

theorem toInt_wrap32_emod (z : Int) : (wrap32 z).toInt % 2 ^ 32 = z % 2 ^ 32 := by
  rw [toInt_wrap32]
  exact Int.bmod_emod

/-- The wrap depends only on the residue, because the balanced remainder does. -/
theorem wrap32_congr {a b : Int} (h : a % 2 ^ 32 = b % 2 ^ 32) : wrap32 a = wrap32 b := by
  apply BitVec.eq_of_toInt_eq
  calc (wrap32 a).toInt
      = (a % 2 ^ 32).bmod (2 ^ 32) := by rw [toInt_wrap32]; exact (Int.emod_bmod a _).symm
    _ = (b % 2 ^ 32).bmod (2 ^ 32) := by rw [h]
    _ = (wrap32 b).toInt := by rw [toInt_wrap32]; exact Int.emod_bmod b _

theorem eq_wrap32_of_emod_eq {z : Int} {w : Word} (h : w.toInt % 2 ^ 32 = z % 2 ^ 32) : w = wrap32 z := by
  rw [← wrap32_congr h, wrap32_toInt]

/-! ### `sext` -/

theorem sext_of_lt {n v : Nat} (h : v < 2 ^ (n - 1)) : sext n v = v := if_pos h

theorem sext_of_le {n v : Nat} (h : 2 ^ (n - 1) ≤ v) : sext n v = v - 2 ^ n := if_neg h.not_gt

/-- In both branches the range comes from `2 ^ n` being twice `2 ^ (n - 1)`. -/
theorem sext_range {n v : Nat} (hn : 0 < n) (hv : v < 2 ^ n) :
    -2 ^ (n - 1) ≤ sext n v ∧ sext n v < 2 ^ (n - 1) := by
  have hdouble : (2 : Int) ^ (n - 1) * 2 = 2 ^ n := pow_sub_one_mul hn.ne' 2
  have hv' : (v : Int) < 2 ^ n := by exact_mod_cast hv
  rcases lt_or_ge v (2 ^ (n - 1)) with hlow | hhigh
  · have hlow' : (v : Int) < 2 ^ (n - 1) := by exact_mod_cast hlow
    rw [sext_of_lt hlow]
    omega
  · have hhigh' : (2 : Int) ^ (n - 1) ≤ v := by exact_mod_cast hhigh
    rw [sext_of_le hhigh]
    omega

/-- Sign extension changes the pattern by 0 or by one modulus. -/
theorem sext_emod {n v : Nat} (hv : v < 2 ^ n) : sext n v % 2 ^ n = v := by
  have hpattern : (v : Int) % 2 ^ n = v := Int.emod_eq_of_lt (by positivity) (by exact_mod_cast hv)
  rcases lt_or_ge v (2 ^ (n - 1)) with hlow | hhigh
  · rw [sext_of_lt hlow, hpattern]
  · rw [sext_of_le hhigh, Int.sub_emod_right, hpattern]

/-! ### The statement -/

/-- Settles O32: range and residue of the wrap are those of the balanced remainder, uniqueness is that the wrap
depends only on the residue, and sign extension is taken by its two branches. -/
theorem wrapAndSignExtensionAreTwosComplement : Obligations.WrapAndSignExtensionAreTwosComplement := by
  unfold Obligations.WrapAndSignExtensionAreTwosComplement
  refine ⟨fun z => ⟨(wrap32 z).le_toInt, BitVec.toInt_lt, toInt_wrap32_emod z⟩,
    fun z w h => eq_wrap32_of_emod_eq h, fun n v hn hv => ?_⟩
  obtain ⟨hlow, hhigh⟩ := sext_range hn hv
  exact ⟨hlow, hhigh, sext_emod hv⟩

end Sys2Proof.Machine
end

section
/-! PROOFS. What an instruction can answer, said once for the whole instruction set (60_exceptions.md R249, R250),
and from it the writers of each register, the growth of the outputs and the cursor: O40, O41, O42. -/

namespace Sys2Proof.Machine

/-! ### The instruction set's inversion -/

@[simp] theorem State.ctx_seekEntries (s : State) : s.ctx.seekEntries = s.h.seekEntries := rfl

theorem State.ctx_k_of_chan {s : State} {c : Chan} (hc : s.chan = some c) : s.ctx.k = s.k c := by
  simp [State.ctx, State.width, hc]

/-- The next states of an instruction: the first sixteen constructors are its completion, which needs the whole
element inside the stream, the last four its trap entries. -/
inductive Performs (s : State) : Instr → State → Prop
  | rdbits {n v : Nat} (hfit : s.pos + n ≤ s.inp.bitLength) : Performs s (.rdbits n v) (s.advance n)
  | rdunary {q : Nat} (hfit : s.pos + (q + 1) ≤ s.inp.bitLength) : Performs s (.rdunary q) (s.advance (q + 1))
  | skipb {n : Nat} (hfit : s.pos + 8 * n ≤ s.inp.bitLength) : Performs s (.skipb n) (s.advance (8 * n))
  | hdr {f : Header} (hfit : s.pos + 192 ≤ s.inp.bitLength) (hok : HeaderAccepted f) :
      Performs s (.hdr f) (({ s with h := f, hValid := true }.advance 192).goto .seekSkip)
  | seekskip (hfit : s.pos + 32 * s.h.seekEntries.toNat ≤ s.inp.bitLength) :
      Performs s .seekskip (s.advance (32 * s.h.seekEntries.toNat)).afterSeekSkip
  | bsync {p : Word} (hfit : s.pos + 32 ≤ s.inp.bitLength) (hp : p = s.params.syncPattern) :
      Performs s (.bsync p) ((s.advance 32).goto .blockIndex)
  | bidx {x : Word} (hfit : s.pos + 32 ≤ s.inp.bitLength) (hx : x = s.expect) :
      Performs s (.bidx x) (s.advance 32).afterBidx
  | gps {a : BitVec 25} {o : BitVec 26} (hfit : s.pos + 51 ≤ s.inp.bitLength) :
      Performs s (.gps a o) ((s.advance 51).captureGps (sext 25 a.toNat) (sext 26 o.toNat)).afterGps
  | tag {g : Nibble} (hfit : s.pos + 4 ≤ s.inp.bitLength) :
      Performs s (.tag g) ((s.advance 4).captureTag g).enterFrames
  | frk {k : Nibble} {c : Chan} (hc : s.chan = some c) (hfit : s.pos + 4 ≤ s.inp.bitLength) :
      Performs s (.frk k) { (s.advance 4).setK c k with stUzero := s.stUzero || marksZeroFrame k }.afterFrk
  | delta {q r : Nat} {c : Chan} {sum : Int} (hc : s.chan = some c)
      (hfit : s.pos + (q + 1 + (s.k c).toNat) ≤ s.inp.bitLength)
      (hsum : sum = (s.acc c).toInt + zigzag (magnitude q (s.k c).toNat r)) :
      Performs s (.delta q r) ((((s.advance (q + 1 + (s.k c).toNat)).noteOvf (sumOverflows sum)).setAcc c
        (wrap32 sum)).writeFb c (wrap32 sum)).afterSlot
  | zdelta {c : Chan} (hc : s.chan = some c) : Performs s .zdelta (s.writeFb c (s.acc c)).afterSlot
  | emit :
      Performs s .emit { s.noteOvf (s.emitted.any sampleOverflows) with
        out := s.out ++ s.emitted.map wrap16
        produced := s.produced + s.h.frameSize.toNat }.afterEmit
  | bendLast (htotal : s.h.total.toNat ≤ s.produced) :
      Performs s .bend { s with expect := s.expect + 1#32, stDone := true, phase := .done }
  | bendMore (htotal : s.produced < s.h.total.toNat) :
      Performs s .bend { s with expect := s.expect + 1#32, phase := .blockSync }
  | halt : Performs s .halt s
  | truncated {i : Instr} (hlack : s.inp.bitLength < s.pos + i.length s.ctx) : Performs s i (s.takeFault .eos)
  | badHeader {f : Header} {c : Cause} (hfault : headerFault f = some c) :
      Performs s (.hdr f) ({ s with h := f }.takeFault c)
  | badPattern {p : Word} (hp : p ≠ s.params.syncPattern) : Performs s (.bsync p) (s.takeFault .badPattern)
  | badIndex {x : Word} (hx : x ≠ s.expect) : Performs s (.bidx x) (s.takeFault .badIndex)

theorem performs_of_exec {i : Instr} {s t : State} (h : exec i s = .next t) : Performs s i t := by
  cases i with
  | rdbits n v =>
    obtain ⟨-, ⟨hlack, rfl⟩ | ⟨hfit, rfl⟩⟩ := execRdbits_cases h
    · exact .truncated hlack
    · exact .rdbits hfit
  | rdunary q =>
    obtain ⟨hlack, rfl⟩ | ⟨hfit, rfl⟩ := execRdunary_cases h
    · exact .truncated hlack
    · exact .rdunary hfit
  | skipb n =>
    obtain ⟨hlack, rfl⟩ | ⟨hfit, rfl⟩ := execSkipb_cases h
    · exact .truncated hlack
    · exact .skipb hfit
  | hdr f =>
    obtain ⟨hlack, rfl⟩ | ⟨-, c, hfault, rfl⟩ | ⟨hfit, hok, rfl⟩ := execHdr_cases h
    · exact .truncated hlack
    · exact .badHeader hfault
    · exact .hdr hfit (headerFault_eq_none.mp hok)
  | seekskip =>
    have hbits : 8 * (4 * s.h.seekEntries.toNat) = 32 * s.h.seekEntries.toNat := by omega
    have hcases := execSeekskip_cases h
    rw [hbits] at hcases
    obtain ⟨hlack, rfl⟩ | ⟨hfit, rfl⟩ := hcases
    · exact .truncated hlack
    · exact .seekskip hfit
  | bsync p =>
    obtain ⟨hlack, rfl⟩ | ⟨-, hp, rfl⟩ | ⟨hfit, hp, rfl⟩ := execBsync_cases h
    · exact .truncated hlack
    · exact .badPattern hp
    · exact .bsync hfit hp
  | bidx x =>
    obtain ⟨hlack, rfl⟩ | ⟨-, hx, rfl⟩ | ⟨hfit, hx, rfl⟩ := execBidx_cases h
    · exact .truncated hlack
    · exact .badIndex hx
    · exact .bidx hfit hx
  | gps a o =>
    obtain ⟨hlack, rfl⟩ | ⟨hfit, rfl⟩ := execGps_cases h
    · exact .truncated hlack
    · exact .gps hfit
  | tag g =>
    obtain ⟨hlack, rfl⟩ | ⟨hfit, rfl⟩ := execTag_cases h
    · exact .truncated hlack
    · exact .tag hfit
  | frk k =>
    obtain ⟨c, hc, ⟨hlack, rfl⟩ | ⟨hfit, rfl⟩⟩ := execFrk_cases h
    · exact .truncated hlack
    · exact .frk hc hfit
  | delta q r =>
    obtain ⟨c, hc, -, ⟨hlack, rfl⟩ | ⟨hfit, sum, hsum, rfl⟩⟩ := execDelta_cases h
    · exact .truncated (by simpa [Instr.length, State.ctx_k_of_chan hc] using hlack)
    · exact .delta hc hfit hsum
  | zdelta =>
    obtain ⟨c, hc, rfl⟩ := execZdelta_cases h
    exact .zdelta hc
  | emit =>
    obtain rfl := execEmit_cases h
    exact .emit
  | bend =>
    obtain ⟨htotal, rfl⟩ | ⟨htotal, rfl⟩ := execBend_cases h
    · exact .bendLast htotal
    · exact .bendMore htotal
  | halt =>
    cases h
    exact .halt

/-! ### The writers of each register (10_state.md R38) -/

section
variable {i : Instr} {s t : State}

theorem Performs.acc_eq (h : Performs s i t) (hi : ∀ q r, i ≠ .delta q r) :
    t.acc0 = s.acc0 ∧ t.acc1 = s.acc1 := by
  cases h with
  | delta => exact absurd rfl (hi _ _)
  | _ => simp

theorem Performs.width_eq (h : Performs s i t) (hi : ∀ k, i ≠ .frk k) :
    t.k0 = s.k0 ∧ t.k1 = s.k1 ∧ t.stUzero = s.stUzero := by
  cases h with
  | frk => exact absurd rfl (hi _)
  | _ => simp

theorem Performs.frameBuffer_eq (h : Performs s i t) (hd : ∀ q r, i ≠ .delta q r) (hz : i ≠ .zdelta) :
    t.fb0 = s.fb0 ∧ t.fb1 = s.fb1 := by
  cases h with
  | delta => exact absurd rfl (hd _ _)
  | zdelta => exact absurd rfl hz
  | _ => simp

theorem Performs.header_eq (h : Performs s i t) (hi : ∀ f, i ≠ .hdr f) : t.h = s.h ∧ t.hValid = s.hValid := by
  cases h with
  | hdr => exact absurd rfl (hi _)
  | badHeader => exact absurd rfl (hi _)
  | _ => simp

theorem Performs.expect_eq (h : Performs s i t) (hi : i ≠ .bend) : t.expect = s.expect := by
  cases h with
  | bendLast => exact absurd rfl hi
  | bendMore => exact absurd rfl hi
  | _ => simp

theorem Performs.output_eq (h : Performs s i t) (hi : i ≠ .emit) : t.produced = s.produced ∧ t.out = s.out := by
  cases h with
  | emit => exact absurd rfl hi
  | _ => simp

theorem Performs.gpsRegisters_eq (h : Performs s i t) (hi : ∀ a o, i ≠ .gps a o) :
    t.gpsLat = s.gpsLat ∧ t.gpsLon = s.gpsLon ∧ t.gpsBlk = s.gpsBlk ∧ t.gpsV = s.gpsV ∧
      t.stUgps = s.stUgps := by
  cases h with
  | gps => exact absurd rfl (hi _ _)
  | _ => simp

theorem Performs.tagRegisters_eq (h : Performs s i t) (hi : ∀ g, i ≠ .tag g) :
    t.tag = s.tag ∧ t.tagBlk = s.tagBlk ∧ t.tagV = s.tagV ∧ t.stUtag = s.stUtag := by
  cases h with
  | tag => exact absurd rfl (hi _)
  | _ => simp

theorem Performs.side_eq (h : Performs s i t) (hg : ∀ a o, i ≠ .gps a o) (ht : ∀ g, i ≠ .tag g) :
    t.side = s.side := by
  cases h with
  | gps => exact absurd rfl (hg _ _)
  | tag => exact absurd rfl (ht _)
  | _ => simp

theorem Performs.stOvf_eq (h : Performs s i t) (hd : ∀ q r, i ≠ .delta q r) (he : i ≠ .emit) :
    t.stOvf = s.stOvf := by
  cases h with
  | delta => exact absurd rfl (hd _ _)
  | emit => exact absurd rfl he
  | _ => simp

theorem Performs.stDone_eq (h : Performs s i t) (hs : i ≠ .seekskip) (hb : i ≠ .bend) : t.stDone = s.stDone := by
  cases h with
  | seekskip => exact absurd rfl hs
  | bendLast => exact absurd rfl hb
  | _ => simp

/-- The record is written on entry to `FAULT` only. -/
theorem Performs.record_eq (h : Performs s i t) (hp : t.phase ≠ .fault) :
    t.stErr = s.stErr ∧ t.errCode = s.errCode ∧ t.errSub = s.errSub ∧
      t.errBlock = s.errBlock ∧ t.errBit = s.errBit ∧ t.errByte = s.errByte := by
  cases h with
  | truncated | badHeader | badPattern | badIndex => exact absurd rfl hp
  | _ => simp

/-- `IN` and the parameters belong to the host. -/
theorem Performs.stream_eq (h : Performs s i t) : t.inp = s.inp ∧ t.params = s.params := by
  cases h <;> simp

/-! ### The cursor, the outputs and the flags -/

/-- A completed element moves the cursor by its length, a trapped one leaves it. -/
theorem Performs.pos_cases (h : Performs s i t) :
    t.pos = s.pos ∨ (t.pos = s.pos + i.length s.ctx ∧ t.pos ≤ s.inp.bitLength) := by
  cases h with
  | zdelta | emit | bendLast | bendMore | halt | truncated | badHeader | badPattern | badIndex =>
    exact .inl (by simp)
  | delta hc hfit =>
    exact .inr (by simpa [Instr.length, State.ctx_k_of_chan hc] using hfit)
  | rdbits hfit | rdunary hfit | skipb hfit | hdr hfit | seekskip hfit | bsync hfit | bidx hfit | gps hfit
  | tag hfit | frk _ hfit =>
    exact .inr (by simpa [Instr.length] using hfit)

theorem Performs.pos_eq (h : Performs s i t) (hi : i.length s.ctx = 0) : t.pos = s.pos := by
  obtain hstay | ⟨hmove, -⟩ := h.pos_cases
  · exact hstay
  · rw [hmove, hi, Nat.add_zero]

theorem Performs.out_grows (h : Performs s i t) : s.out <+: t.out := by
  cases h with
  | emit => exact ⟨s.emitted.map wrap16, by simp⟩
  | _ => simp

theorem Performs.side_grows (h : Performs s i t) : s.side <+: t.side := by
  cases h with
  | @gps a o => exact ⟨[.gps s.expect (sext 25 a.toNat) (sext 26 o.toNat)], by simp⟩
  | @tag g => exact ⟨[.tag s.expect g], by simp⟩
  | _ => simp

theorem State.afterSeekSkip_stDone_of_stDone {s : State} (h : s.stDone = true) : s.afterSeekSkip.stDone = true := by
  obtain ⟨-, heq⟩ | ⟨-, heq⟩ := s.afterSeekSkip_cases
  · rw [heq]
  · rw [heq, State.goto_stDone, h]

/-- No flag is ever cleared (10_state.md R26): each is kept, set, or joined with the new event. -/
theorem Performs.flags_stick (h : Performs s i t) :
    (s.stDone = true → t.stDone = true) ∧ (s.stErr = true → t.stErr = true) ∧
      (s.stOvf = true → t.stOvf = true) ∧ (s.stUgps = true → t.stUgps = true) ∧
      (s.stUtag = true → t.stUtag = true) ∧ (s.stUzero = true → t.stUzero = true) := by
  cases h with
  | seekskip =>
    exact ⟨fun hd => State.afterSeekSkip_stDone_of_stDone hd, by simp⟩
  | _ => simp +contextual

end

/-! ### The statements -/

/-- Settles O40: the rules of the section "The writers of each register", clause by clause. -/
theorem eachRegisterHasItsOnlyWriters : Obligations.EachRegisterHasItsOnlyWriters := by
  unfold Obligations.EachRegisterHasItsOnlyWriters
  intro i s t hexec
  have h := performs_of_exec hexec
  exact ⟨h.acc_eq, h.width_eq, h.frameBuffer_eq, h.header_eq, h.expect_eq, h.output_eq, h.gpsRegisters_eq,
    h.tagRegisters_eq, h.side_eq, h.stOvf_eq, h.stDone_eq, h.record_eq, h.pos_eq, h.stream_eq⟩

/-- Settles O41: `EMIT`, `GPS` and `TAG` append, and no completion or trap entry clears a flag. -/
theorem outputsGrowAndFlagsStick : Obligations.OutputsGrowAndFlagsStick := by
  unfold Obligations.OutputsGrowAndFlagsStick
  intro i s t hexec
  have h := performs_of_exec hexec
  exact ⟨h.out_grows, h.side_grows, h.flags_stick⟩

/-- Settles O42: a completed element fits the stream and moves the cursor by its length; a trapped one leaves it. -/
theorem cursorMovesForwardByTheElement : Obligations.CursorMovesForwardByTheElement := by
  unfold Obligations.CursorMovesForwardByTheElement
  intro i s t hexec
  exact (performs_of_exec hexec).pos_cases

end Sys2Proof.Machine
end

section
/-! PROOFS. The frame buffer and the channels (10_state.md R25, R33): O33, O29. -/

namespace Sys2Proof.Machine

/-! ### Channels by number -/

/-- The number of a channel, as `CH` and the index of a frame buffer give it. -/
def Chan.number : Chan → Nat
  | .c0 => 0
  | .c1 => 1

theorem State.chan_eq_some {s : State} {c : Chan} : s.chan = some c ↔ s.ch.toNat = c.number := by
  cases c with
  | c0 => rw [State.chan_eq_c0, ← BitVec.toNat_inj]; rfl
  | c1 => rw [State.chan_eq_c1, ← BitVec.toNat_inj]; rfl

theorem State.chan_eq_none_of_third {s : State} (h : s.ch = 2#2 ∨ s.ch = 3#2) : s.chan = none := by
  rw [State.chan_eq_none]
  rcases h with h | h <;> simp [h]

/-! ### Reading the frame buffer after a write -/

/-- Entry `i` of channel number `n` after a write at channel `c` and position `SPOS`. -/
theorem State.lookupEntry_writeFb (s : State) (c : Chan) (v : Word) (n i : Nat) :
    lookupEntry i ((s.writeFb c v).fbEntries n) =
      if n = c.number ∧ i = s.spos.toNat then some v else lookupEntry i (s.fbEntries n) := by
  match n with
  | 0 => cases c <;> simp [State.fbEntries, Chan.number, lookupEntry_insertEntry]
  | 1 => cases c <;> simp [State.fbEntries, Chan.number, lookupEntry_insertEntry]
  | n + 2 => cases c <;> simp [State.fbEntries, Chan.number]

theorem State.readFb_writeFb (s : State) (c : Chan) (v : Word) (n i : Nat) :
    (s.writeFb c v).readFb n i = if n = c.number ∧ i = s.spos.toNat then v else s.readFb n i := by
  unfold State.readFb
  rw [State.lookupEntry_writeFb]
  split_ifs <;> rfl

theorem State.written_writeFb {s : State} {c : Chan} {v : Word} {n i : Nat} :
    (s.writeFb c v).Written n i ↔ (n = c.number ∧ i = s.spos.toNat) ∨ s.Written n i := by
  unfold State.Written
  rw [State.lookupEntry_writeFb]
  split_ifs with h <;> simp [h]

/-! ### The statements -/

/-- Settles O33: the write is seen at its own channel number and position and nowhere else. -/
theorem frameBufferReadsBackWhatWasWritten : Obligations.FrameBufferReadsBackWhatWasWritten := by
  unfold Obligations.FrameBufferReadsBackWhatWasWritten
  intro s c v n i
  rw [State.readFb_writeFb]
  exact if_congr (by cases c <;> simp [Chan.number]) rfl rfl

theorem fetch_of_no_channel {s : State} (hp : s.phase = .frameDelta) (hc : s.chan = none) :
    fetch s = .fault .noSuchChannel := if_pos ⟨hp, hc⟩

theorem execFrk_of_no_channel (k : Nibble) {s : State} (hc : s.chan = none) :
    execFrk k s = .fault .noSuchChannel := by
  simp [execFrk, hc]

theorem execDelta_of_no_channel (q r : Nat) {s : State} (hc : s.chan = none) :
    execDelta q r s = .fault .noSuchChannel := by
  simp [execDelta, hc]

theorem execZdelta_of_no_channel {s : State} (hc : s.chan = none) : execZdelta s = .fault .noSuchChannel := by
  simp [execZdelta, hc]

theorem execDelta_of_width_zero (q r : Nat) {s : State} {c : Chan} (hc : s.chan = some c) (hk : s.k c = 0#4) :
    execDelta q r s = .refused .widthOutsideContract := by
  simp [execDelta, hc, hk]

/-- Settles O29: a `CH` of 2 or 3 names no channel, and then the selection and the three meanings stop. -/
theorem noElementOfAThirdChannelRuns : Obligations.NoElementOfAThirdChannelRuns := by
  unfold Obligations.NoElementOfAThirdChannelRuns
  refine ⟨fun k q r s hch => ?_, fun q r s c hc hk => execDelta_of_width_zero q r hc hk⟩
  have hc := State.chan_eq_none_of_third hch
  refine ⟨execFrk_of_no_channel k hc, execDelta_of_no_channel q r hc, execZdelta_of_no_channel hc, fun hp => ?_⟩
  simp only [step, fetch_of_no_channel hp hc]

end Sys2Proof.Machine
end

section
/-! PROOFS. What the core only writes is never read (10_state.md R26, R38; 20_memory.md R60): O43. The updates
commute with `State.decodingPart` by definition and the successor rules by their branches, so the decoding part of an
answer is that of the answer from the decoding part. -/

namespace Sys2Proof.Machine

/-! ### The element is selected and read from the decoding part -/

section
variable (s : State)

theorem State.chan_decodingPart : s.decodingPart.chan = s.chan := rfl

theorem fetch_decodingPart : fetch s.decodingPart = fetch s := rfl

/-! ### The successor rules commute with the decoding part -/

theorem State.decodingPart_enterFrames : s.enterFrames.decodingPart = s.decodingPart.enterFrames :=
  apply_ite State.decodingPart _ _ _

/-- `SEEKSKIP` sets `ST.DONE`, which is outside the decoding part. -/
theorem State.decodingPart_afterSeekSkip :
    s.afterSeekSkip.decodingPart = s.decodingPart.goto (if s.h.total = 0#32 then .done else .blockSync) := by
  unfold State.afterSeekSkip
  split_ifs <;> rfl

theorem State.decodingPart_afterGps : s.afterGps.decodingPart = s.decodingPart.afterGps := by
  simp only [State.afterGps, apply_ite State.decodingPart, State.decodingPart_enterFrames]
  rfl

theorem State.decodingPart_afterBidx : s.afterBidx.decodingPart = s.decodingPart.afterBidx := by
  simp only [State.afterBidx, apply_ite State.decodingPart, State.decodingPart_enterFrames]
  rfl

theorem State.decodingPart_afterFrk : s.afterFrk.decodingPart = s.decodingPart.afterFrk :=
  apply_ite State.decodingPart _ _ _

theorem State.decodingPart_afterSlot : s.afterSlot.decodingPart = s.decodingPart.afterSlot := by
  simp only [State.afterSlot, apply_ite State.decodingPart]
  rfl

theorem State.decodingPart_afterEmit : s.afterEmit.decodingPart = s.decodingPart.afterEmit :=
  apply_ite State.decodingPart _ _ _

end

/-! ### The decoding part of an answer -/

/-- An answer without what the core only writes. -/
def decodingAnswer : Result → Result
  | .next t => .next t.decodingPart
  | .fault r => .fault r
  | .refused r => .refused r

theorem decodingAnswer_next (t : State) : decodingAnswer (.next t) = .next t.decodingPart := rfl

/-- The checks of an element read the decoding part only, and each of its next states commutes with it; where a
successor rule decides, it is that rule's lemma which says so. -/
theorem decodingAnswer_exec (i : Instr) (s : State) :
    decodingAnswer (exec i s) = decodingAnswer (exec i s.decodingPart) := by
  cases i with
  | rdbits | rdunary | skipb | bsync | bend =>
    simp only [exec, execRdbits, execRdunary, execSkipb, execBsync, execBend, apply_ite decodingAnswer]
    rfl
  | hdr f => cases hf : headerFault f <;> simp only [exec, execHdr, hf, apply_ite decodingAnswer] <;> rfl
  | seekskip =>
    simp only [exec, execSeekskip, apply_ite decodingAnswer, decodingAnswer_next, State.decodingPart_afterSeekSkip]
    rfl
  | bidx x =>
    simp only [exec, execBidx, apply_ite decodingAnswer, decodingAnswer_next, State.decodingPart_afterBidx]
    rfl
  | gps a o =>
    simp only [exec, execGps, apply_ite decodingAnswer, decodingAnswer_next, State.decodingPart_afterGps]
    rfl
  | tag g =>
    simp only [exec, execTag, apply_ite decodingAnswer, decodingAnswer_next, State.decodingPart_enterFrames]
    rfl
  | frk k =>
    simp only [exec, execFrk, State.chan_decodingPart]
    cases s.chan with
    | none => rfl
    | some c =>
      simp only [apply_ite decodingAnswer, decodingAnswer_next, State.decodingPart_afterFrk]
      rfl
  | delta q r =>
    simp only [exec, execDelta, State.chan_decodingPart]
    cases s.chan with
    | none => rfl
    | some c =>
      simp only [apply_ite decodingAnswer, decodingAnswer_next, State.decodingPart_afterSlot]
      rfl
  | zdelta =>
    simp only [exec, execZdelta, State.chan_decodingPart]
    cases s.chan with
    | none => rfl
    | some c =>
      simp only [decodingAnswer_next, State.decodingPart_afterSlot]
      rfl
  | emit =>
    simp only [exec, execEmit, decodingAnswer_next, State.decodingPart_afterEmit]
    rfl
  | halt => rfl

theorem decodingAnswer_step (s : State) : decodingAnswer (step s) = decodingAnswer (step s.decodingPart) := by
  unfold step
  rw [fetch_decodingPart]
  cases fetch s with
  | next i => exact decodingAnswer_exec i s
  | fault r => rfl
  | refused r => rfl

theorem eq_next_of_decodingAnswer {r : Result} {t : State} (h : decodingAnswer r = .next t) :
    ∃ t', r = .next t' ∧ t'.decodingPart = t := by
  cases r with
  | next t' => exact ⟨t', rfl, Host.Outcome.next.inj h⟩
  | fault _ => cases h
  | refused _ => cases h

/-- Settles O43: the decoding part of a step's answer is a function of the decoding part of the state. -/
theorem decodingReadsNoOutput : Obligations.DecodingReadsNoOutput := by
  unfold Obligations.DecodingReadsNoOutput
  intro s s' t hagree hstep
  have hanswer : decodingAnswer (step s') = .next t.decodingPart := by
    calc decodingAnswer (step s')
        = decodingAnswer (step s.decodingPart) := by rw [decodingAnswer_step, hagree]
      _ = .next t.decodingPart := by rw [← decodingAnswer_step, hstep, decodingAnswer_next]
  obtain ⟨t', hstep', hpart⟩ := eq_next_of_decodingAnswer hanswer
  exact ⟨t', hstep', hpart.symm⟩

end Sys2Proof.Machine
end

section
/-! PROOFS. Reset, the invariant's parts, and the invariant at the start of a run (10_state.md R37;
70_reset_and_hazards.md R281): O47, O48. -/

namespace Sys2Proof.Machine

/-! ### Reset -/

/-- Settles O47: reset and restart hold the table's values by definition, and restart keeps what the host presents. -/
theorem resetGivesTheValuesOfTheTable : Obligations.ResetGivesTheValuesOfTheTable := by
  unfold Obligations.ResetGivesTheValuesOfTheTable
  rintro s r (rfl | rfl)
  · simp [State.reset, State.restart, Phase.code, State.outLen, State.sideLen]
  · simp [State.reset, State.restart, Phase.code, State.outLen, State.sideLen]

/-! ### The invariant's parts -/

/-- What `Inv` says of every state whatever its sequencer state, its flags and its fault record. -/
structure Steady (s : State) : Prop where
  stream : s.inp.wf = true
  cursor : s.pos ≤ s.inp.bitLength
  accepted : s.hValid = true → HeaderAccepted s.h
  idle : s.hValid = false → s.produced = 0 ∧ s.out = []
  output : s.out.length = min s.produced s.h.total.toNat * s.h.channels.toNat
  bounded : s.produced = 0 ∨
    s.produced < s.h.total.toNat + s.h.blockSize.toNat * s.h.frameSize.toNat
  buffers : entriesRise 0 s.fb0 = true ∧ entriesRise 0 s.fb1 = true
  fix_range : -16777216 ≤ s.gpsLat ∧ s.gpsLat ≤ 16777215 ∧ -33554432 ≤ s.gpsLon ∧ s.gpsLon ≤ 33554431

/-- Decoding goes on after an accepted header: neither the end nor a fault has been reached. -/
structure Running (s : State) : Prop extends Steady s where
  valid : s.hValid = true
  not_done : s.stDone = false
  no_fault : s.stErr = false
  no_code : s.errCode = 0#2

/-- What `Inv` says of a running state in its sequencer state; no running state is in the other three. -/
def State.PhaseFacts (s : State) : Prop :=
  match s.phase with
  | .seekSkip => s.pos = 192 ∧ s.produced = 0
  | .blockSync | .blockIndex | .blockGps | .blockTag => s.produced < s.h.total.toNat
  | .frameK =>
    s.frm.toNat < s.h.blockSize.toNat ∧ s.produced < s.h.total.toNat + s.frm.toNat * s.h.frameSize.toNat ∧
      s.ch.toNat < s.h.channels.toNat
  | .frameDelta =>
    s.frm.toNat < s.h.blockSize.toNat ∧ s.produced < s.h.total.toNat + s.frm.toNat * s.h.frameSize.toNat ∧
      s.ch.toNat < s.h.channels.toNat ∧ s.spos.toNat < s.h.frameSize.toNat ∧
      ∀ c i, c < s.h.channels.toNat → i < s.spos.toNat ∨ (i = s.spos.toNat ∧ c < s.ch.toNat) → s.Written c i
  | .frameEmit =>
    s.frm.toNat < s.h.blockSize.toNat ∧ s.produced < s.h.total.toNat + s.frm.toNat * s.h.frameSize.toNat ∧
      ∀ c i, c < s.h.channels.toNat → i < s.h.frameSize.toNat → s.Written c i
  | .blockEnd =>
    s.frm = s.h.blockSize ∧ s.produced < s.h.total.toNat + s.frm.toNat * s.h.frameSize.toNat
  | .header | .done | .fault => False

theorem Inv.steady {s : State} (h : Inv s) : Steady s := { h with }

theorem Inv.stDone_eq_false {s : State} (h : Inv s) (hp : s.phase ≠ .done) : s.stDone = false :=
  Bool.eq_false_iff.mpr fun hd => hp (h.done_iff.mpr hd)

theorem Inv.stErr_eq_false {s : State} (h : Inv s) (hp : s.phase ≠ .fault) : s.stErr = false :=
  Bool.eq_false_iff.mpr fun he => hp (h.fault_iff.mpr he)

theorem Inv.running {s : State} (h : Inv s) {ph : Phase} (hp : s.phase = ph)
    (hmid : ph ≠ .header ∧ ph ≠ .done ∧ ph ≠ .fault) : Running s := by
  subst hp
  obtain ⟨hheader, hdone, hfault⟩ := hmid
  have he := h.stErr_eq_false hfault
  exact { h.steady with
    valid := h.parsed hheader hfault
    not_done := h.stDone_eq_false hdone
    no_fault := he
    no_code := h.no_record he }

theorem State.PhaseFacts.midRun {s : State} (hf : s.PhaseFacts) :
    s.phase ≠ .header ∧ s.phase ≠ .done ∧ s.phase ≠ .fault := by
  refine ⟨fun hp => ?_, fun hp => ?_, fun hp => ?_⟩ <;> simp [State.PhaseFacts, hp] at hf

/-- The facts of the phase that hold inside a block, where `pace` speaks. -/
theorem State.PhaseFacts.pace {s : State} (hf : s.PhaseFacts) (hp : s.InFrame ∨ s.phase = .blockEnd) :
    s.produced < s.h.total.toNat + s.frm.toNat * s.h.frameSize.toNat := by
  unfold State.PhaseFacts at hf
  rcases hp with (hp | hp | hp) | hp <;> simp only [hp] at hf
  · obtain ⟨-, hpace, -⟩ := hf; exact hpace
  · obtain ⟨-, hpace, -⟩ := hf; exact hpace
  · obtain ⟨-, hpace, -⟩ := hf; exact hpace
  · obtain ⟨-, hpace⟩ := hf; exact hpace

theorem State.PhaseFacts.frame {s : State} (hf : s.PhaseFacts) (hp : s.InFrame) :
    s.frm.toNat < s.h.blockSize.toNat := by
  unfold State.PhaseFacts at hf
  rcases hp with hp | hp | hp <;> simp only [hp] at hf <;> exact hf.1

theorem State.PhaseFacts.begun {s : State} (hf : s.PhaseFacts) (hp : s.InBlockHead) :
    s.produced < s.h.total.toNat := by
  unfold State.PhaseFacts at hf
  rcases hp with hp | hp | hp | hp <;> simpa only [hp] using hf

theorem State.PhaseFacts.channel {s : State} (hf : s.PhaseFacts)
    (hp : s.phase = .frameK ∨ s.phase = .frameDelta) : s.ch.toNat < s.h.channels.toNat := by
  unfold State.PhaseFacts at hf
  rcases hp with hp | hp <;> simp only [hp] at hf <;> obtain ⟨-, -, hch⟩ := hf
  · exact hch
  · exact hch.1

theorem Running.inv {s : State} (h : Running s) (hf : s.PhaseFacts) : Inv s := by
  obtain ⟨hheader, hdone, hfault⟩ := hf.midRun
  exact { h.toSteady with
    done_iff := iff_of_false hdone (by simp [h.not_done])
    fault_iff := iff_of_false hfault (by simp [h.no_fault])
    no_record := fun _ => h.no_code
    record := by simp [h.no_fault]
    parsed := fun _ _ => h.valid
    first := fun hp => absurd hp hheader
    second := fun hp => by simpa only [State.PhaseFacts, hp] using hf
    channel := hf.channel
    position := fun hp => by
      simp only [State.PhaseFacts, hp] at hf; obtain ⟨-, -, -, hpos, -⟩ := hf; exact hpos
    frame := hf.frame
    block_end := fun hp => by simp only [State.PhaseFacts, hp] at hf; exact hf.1
    begun := hf.begun
    pace := hf.pace
    finished := by simp [h.not_done]
    slots := fun hp => by
      simp only [State.PhaseFacts, hp] at hf; obtain ⟨-, -, -, -, hslots⟩ := hf; exact hslots
    filled := fun hp => by
      simp only [State.PhaseFacts, hp] at hf; obtain ⟨-, -, hfilled⟩ := hf; exact hfilled }

theorem Running.inv_done {s : State} (h : Running s) (htotal : s.h.total.toNat ≤ s.produced) :
    Inv { s with stDone := true, phase := .done } := by
  obtain ⟨⟨hstream, hcursor, haccepted, hidle, houtput, hbounded, hbuffers, hfix⟩, hvalid, -, he, hcode⟩ := h
  constructor
  case stream | cursor | accepted | idle | output | bounded | buffers | fix_range => assumption
  all_goals simp [State.InFrame, State.InBlockHead, hvalid, he, hcode, htotal]

theorem Steady.inv_takeFault {s : State} (h : Steady s) (hd : s.stDone = false) (c : Cause) :
    Inv (s.takeFault c) := by
  have hcode : c.code ≠ 0#2 := by cases c <;> decide
  obtain ⟨hstream, hcursor, haccepted, hidle, houtput, hbounded, hbuffers, hfix⟩ := h
  constructor
  case stream | cursor | accepted | idle | output | bounded | buffers | fix_range => assumption
  all_goals simp [State.InFrame, State.InBlockHead, hd, hcode]

/-! ### The start of a run -/

theorem inv_start (params : Params) {m : Memory} (h : m.wf = true) : Inv (State.start params m) := by
  constructor
  case stream => exact h
  all_goals simp [State.start, State.reset, State.InFrame, State.InBlockHead, entriesRise]

/-- Settles O48: a run starts at bit 0 in `HEADER`, with nothing produced and no flag set. -/
theorem everyStartMeetsTheInvariant : Obligations.EveryStartMeetsTheInvariant := by
  unfold Obligations.EveryStartMeetsTheInvariant
  exact ⟨inv_start Config.params Memory.wf_empty, fun params m h => inv_start params h⟩

end Sys2Proof.Machine
end

section
/-! PROOFS. Every step keeps the invariant: O49. The updates of an element keep a running state running, each successor
rule leads a running state to a good one, and the phase in which an element is selected supplies what its rule asks. -/

namespace Sys2Proof.Machine

/-! ### Which phase selects an element (45_sequencer.md R211) -/

/-- The sequencer states in which an operation is selected; the three primitives are selected in none. -/
def Op.SelectedIn : Op → Phase → Prop
  | .rdbits _, _ | .rdunary, _ | .skipb _, _ => False
  | .hdr, ph => ph = .header
  | .seekskip, ph => ph = .seekSkip
  | .bsync, ph => ph = .blockSync
  | .bidx, ph => ph = .blockIndex
  | .gps, ph => ph = .blockGps
  | .tag, ph => ph = .blockTag
  | .frk, ph => ph = .frameK
  | .delta, ph | .zdelta, ph => ph = .frameDelta
  | .emit, ph => ph = .frameEmit
  | .bend, ph => ph = .blockEnd
  | .halt, ph => ph = .done ∨ ph = .fault

theorem select_selectedIn (ph : Phase) (k : Nibble) : Op.SelectedIn (select ph k) ph := by
  cases ph with
  | frameDelta => by_cases hk : k = 0#4 <;> simp [select, hk, Op.SelectedIn]
  | _ => simp [select, Op.SelectedIn]

theorem op_of_decode {cx : Ctx} {op : Op} {bit : Nat → Bool} {avail : Nat} {i : Instr}
    (h : decode cx op bit avail = .ok i) : i.op = op := by
  cases op with
  | rdbits n =>
    simp only [decode] at h
    split_ifs at h
    cases h
    rfl
  | delta =>
    simp only [decode] at h
    split_ifs at h
    cases h
    rfl
  | _ => cases h; rfl

theorem selectedIn_of_fetch {s : State} {i : Instr} (h : fetch s = .next i) : Op.SelectedIn i.op s.phase := by
  obtain ⟨-, hdecode⟩ := fetch_cases h
  rw [op_of_decode hdecode]
  exact select_selectedIn _ _

/-! ### Register arithmetic -/

/-- An increment below the register's width does not wrap. -/
theorem toNat_succ {w : Nat} {x : BitVec w} (hx : x.toNat + 1 < 2 ^ w) : (x + 1#w).toNat = x.toNat + 1 := by
  have hone : (1#w).toNat = 1 := Nat.mod_eq_of_lt (by omega)
  rw [BitVec.toNat_add_of_lt (by rwa [hone]), hone]

theorem toNat_succ_of_lt {w : Nat} {x y : BitVec w} (hx : x.toNat < y.toNat) :
    (x + 1#w).toNat = x.toNat + 1 :=
  toNat_succ (by have := y.isLt; omega)

/-! ### The updates of an element keep a running state running -/

namespace Running
variable {s : State}

theorem sequenced (h : Running s) (ph : Phase) (frm spos : Half) (ch : BitVec 2) :
    Running { s with phase := ph, frm := frm, spos := spos, ch := ch } := { h with }

theorem goto (h : Running s) (ph : Phase) : Running (s.goto ph) := { h with }

theorem advance (h : Running s) {n : Nat} (hfit : s.pos + n ≤ s.inp.bitLength) : Running (s.advance n) :=
  { h with cursor := hfit }

theorem captureGps (h : Running s) (a : BitVec 25) (o : BitVec 26) :
    Running (s.captureGps (sext 25 a.toNat) (sext 26 o.toNat)) := by
  obtain ⟨hlat, hlat'⟩ := sext_range (by decide) a.isLt
  obtain ⟨hlon, hlon'⟩ := sext_range (by decide) o.isLt
  exact { h with fix_range := ⟨hlat, Int.le_sub_one_of_lt hlat', hlon, Int.le_sub_one_of_lt hlon'⟩ }

theorem captureTag (h : Running s) (g : Nibble) : Running (s.captureTag g) := { h with }

theorem setK (h : Running s) (c : Chan) (k : Nibble) (b : Bool) :
    Running { s.setK c k with stUzero := b } := { h with }

theorem noteOvf (h : Running s) (b : Bool) : Running (s.noteOvf b) := { h with }

theorem setAcc (h : Running s) (c : Chan) (v : Word) : Running (s.setAcc c v) := { h with }

theorem writeFb (h : Running s) (c : Chan) (v : Word) : Running (s.writeFb c v) := by
  obtain ⟨h0, h1⟩ := h.buffers
  have hrise := fun l (hl : entriesRise 0 l = true) => entriesRise_insertEntry (i := s.spos.toNat) v (Nat.zero_le _) hl
  refine { h with buffers := ?_ }
  cases c with
  | c0 => exact ⟨hrise _ h0, h1⟩
  | c1 => exact ⟨h0, hrise _ h1⟩

theorem nextExpect (h : Running s) (x : Word) : Running { s with expect := x } := { h with }

theorem channels_cases (h : Running s) : s.h.channels.toNat = 1 ∨ s.h.channels.toNat = 2 := by
  obtain ⟨-, -, hc | hc, -⟩ := h.accepted h.valid
  · exact .inl (by rw [hc]; rfl)
  · exact .inr (by rw [hc]; rfl)

theorem zero_lt_channels (h : Running s) : (0#2).toNat < s.h.channels.toNat := by
  rcases h.channels_cases with hc | hc <;> simp [hc]

/-! ### Each successor rule leads a running state to a good one -/

theorem inv_enterFrames (h : Running s) (hbegun : s.produced < s.h.total.toNat) : Inv s.enterFrames := by
  have hpace : s.produced < s.h.total.toNat + (0#16 : Half).toNat * s.h.frameSize.toNat := by simpa using hbegun
  obtain ⟨hzero, heq⟩ | ⟨hpos, heq⟩ := s.enterFrames_cases
  · rw [heq]
    exact (h.sequenced .blockEnd 0#16 s.spos s.ch).inv ⟨hzero.symm, hpace⟩
  · rw [heq]
    have hframe : (0#16 : Half).toNat < s.h.blockSize.toNat := BitVec.toNat_pos_of_ne_zero hpos
    exact (h.sequenced .frameK 0#16 s.spos 0#2).inv ⟨hframe, hpace, h.zero_lt_channels⟩

theorem inv_afterSeekSkip (h : Running s) (hprod : s.produced = 0) : Inv s.afterSeekSkip := by
  obtain ⟨htotal, heq⟩ | ⟨htotal, heq⟩ := s.afterSeekSkip_cases
  · rw [heq]
    exact h.inv_done (by simp [htotal])
  · rw [heq]
    exact (h.goto .blockSync).inv (hprod.trans_lt (BitVec.toNat_pos_of_ne_zero htotal))

theorem inv_afterGps (h : Running s) (hbegun : s.produced < s.h.total.toNat) : Inv s.afterGps := by
  obtain ⟨-, heq⟩ | ⟨-, heq⟩ := s.afterGps_cases
  · rw [heq]
    exact (h.goto .blockTag).inv hbegun
  · rw [heq]
    exact h.inv_enterFrames hbegun

theorem inv_afterBidx (h : Running s) (hbegun : s.produced < s.h.total.toNat) : Inv s.afterBidx := by
  obtain ⟨-, heq⟩ | ⟨-, -, heq⟩ | ⟨-, -, heq⟩ := s.afterBidx_cases
  · rw [heq]
    exact (h.goto .blockGps).inv hbegun
  · rw [heq]
    exact (h.goto .blockTag).inv hbegun
  · rw [heq]
    exact h.inv_enterFrames hbegun

theorem inv_afterFrk (h : Running s) (hp : s.phase = .frameK) (hframe : s.frm.toNat < s.h.blockSize.toNat)
    (hpace : s.produced < s.h.total.toNat + s.frm.toNat * s.h.frameSize.toNat) : Inv s.afterFrk := by
  obtain ⟨hch, heq⟩ | ⟨-, hempty, heq⟩ | ⟨-, hframeSize, heq⟩ := s.afterFrk_cases
  · rw [heq]
    refine (h.sequenced s.phase s.frm s.spos (s.ch + 1#2)).inv ?_
    simp only [State.PhaseFacts, hp]
    exact ⟨hframe, hpace, hch⟩
  · rw [heq]
    refine (h.sequenced .frameEmit s.frm 0#16 0#2).inv ⟨hframe, hpace, fun c i _ hi => ?_⟩
    simp [hempty] at hi
  · rw [heq]
    refine (h.sequenced .frameDelta s.frm 0#16 0#2).inv
      ⟨hframe, hpace, h.zero_lt_channels, BitVec.toNat_pos_of_ne_zero hframeSize, fun c i _ hi => ?_⟩
    simp at hi

/-- With every slot up to the one at `SPOS` and `CH` written, the next slot, position or the emission is good. -/
theorem inv_afterSlot (h : Running s) (hp : s.phase = .frameDelta) (hframe : s.frm.toNat < s.h.blockSize.toNat)
    (hpace : s.produced < s.h.total.toNat + s.frm.toNat * s.h.frameSize.toNat)
    (hchannel : s.ch.toNat < s.h.channels.toNat) (hposition : s.spos.toNat < s.h.frameSize.toNat)
    (hwritten : ∀ c i, c < s.h.channels.toNat →
      i < s.spos.toNat ∨ (i = s.spos.toNat ∧ c ≤ s.ch.toNat) → s.Written c i) : Inv s.afterSlot := by
  have hC := h.channels_cases
  have hch : (s.ch + 1#2).toNat = s.ch.toNat + 1 := toNat_succ (by omega)
  have hspos : (s.spos + 1#16).toNat = s.spos.toNat + 1 := toNat_succ_of_lt hposition
  obtain ⟨hnext, heq⟩ | ⟨hlast, hmore, heq⟩ | ⟨hlast, hend, heq⟩ := s.afterSlot_cases
  · rw [heq]
    refine (h.sequenced s.phase s.frm s.spos (s.ch + 1#2)).inv ?_
    simp only [State.PhaseFacts, hp]
    refine ⟨hframe, hpace, hnext, hposition, fun c i hc hi => hwritten c i hc ?_⟩
    omega
  · rw [heq]
    refine (h.sequenced s.phase s.frm (s.spos + 1#16) 0#2).inv ?_
    simp only [State.PhaseFacts, hp]
    refine ⟨hframe, hpace, h.zero_lt_channels, hmore, fun c i hc hi => hwritten c i hc ?_⟩
    simp only [hspos, BitVec.toNat_ofNat] at hi
    omega
  · rw [heq]
    refine (h.sequenced .frameEmit s.frm (s.spos + 1#16) 0#2).inv
      ⟨hframe, hpace, fun c i hc hi => hwritten c i hc ?_⟩
    rw [BitVec.lt_def, hspos] at hend
    dsimp only at hc hi
    omega

/-- The frame just emitted is counted in `PRODUCED` and not yet in `FRM`. -/
theorem inv_afterEmit (h : Running s) (hframe : s.frm.toNat < s.h.blockSize.toNat)
    (hpace : s.produced < s.h.total.toNat + (s.frm.toNat + 1) * s.h.frameSize.toNat) : Inv s.afterEmit := by
  have hfrm : (s.frm + 1#16).toNat = s.frm.toNat + 1 := toNat_succ_of_lt hframe
  rw [← hfrm] at hpace
  obtain ⟨hmore, heq⟩ | ⟨hlast, heq⟩ := s.afterEmit_cases
  · rw [heq]
    exact (h.sequenced .frameK (s.frm + 1#16) s.spos 0#2).inv ⟨hmore, hpace, h.zero_lt_channels⟩
  · rw [heq]
    have hend : s.frm + 1#16 = s.h.blockSize := by
      rw [BitVec.lt_def] at hlast
      exact BitVec.eq_of_toNat_eq (by omega)
    exact (h.sequenced .blockEnd (s.frm + 1#16) s.spos s.ch).inv ⟨hend, hpace⟩

end Running

/-! ### Emission -/

/-- Of `n` positions from `p` on those below `total` are kept. -/
theorem length_filter_range_below (p total n : Nat) :
    ((List.range n).filter fun i => decide (p + i < total)).length = min n (total - p) := by
  induction n with
  | zero => simp
  | succ n ih =>
    rw [List.range_succ, List.filter_append, List.length_append, ih]
    by_cases hn : p + n < total
    · simp [hn]; omega
    · simp [hn]; omega

theorem State.emitted_length (s : State) :
    s.emitted.length = min s.h.frameSize.toNat (s.h.total.toNat - s.produced) * s.h.channels.toNat := by
  simp [State.emitted, List.length_flatMap, length_filter_range_below]

/-- `OUT_LEN = min(PRODUCED, H.TOTAL) * C` again after the words of one frame. -/
theorem min_mul_add_min_mul (p f total c : Nat) :
    min p total * c + min f (total - p) * c = min (p + f) total * c := by
  rw [← Nat.add_mul]
  congr 1
  omega

theorem Running.emit {s : State} (h : Running s) (b : Bool) (hframe : s.frm.toNat < s.h.blockSize.toNat)
    (hpace : s.produced < s.h.total.toNat + s.frm.toNat * s.h.frameSize.toNat) :
    Running { s.noteOvf b with
      out := s.out ++ s.emitted.map wrap16
      produced := s.produced + s.h.frameSize.toNat } := by
  have hblock : (s.frm.toNat + 1) * s.h.frameSize.toNat ≤ s.h.blockSize.toNat * s.h.frameSize.toNat :=
    Nat.mul_le_mul_right _ hframe
  refine { h with idle := fun hv => absurd (h.valid.symm.trans hv) (by decide), output := ?_, bounded := .inr ?_ }
  · simp only [List.length_append, List.length_map, h.output, State.emitted_length, State.noteOvf_h]
    exact min_mul_add_min_mul _ _ _ _
  · rw [Nat.succ_mul] at hblock
    simp only [State.noteOvf_h]
    omega

/-! ### Every next state of a selected element is good -/

/-- The slot that `DELTA` and `ZDELTA` write completes what `slots` says of the earlier ones. -/
theorem Inv.written_writeFb {s : State} (h : Inv s) (hp : s.phase = .frameDelta) {n : Chan}
    (hn : s.chan = some n) (v : Word) (c i : Nat) (hc : c < s.h.channels.toNat)
    (hi : i < s.spos.toNat ∨ (i = s.spos.toNat ∧ c ≤ s.ch.toNat)) : (s.writeFb n v).Written c i := by
  rw [State.written_writeFb, ← State.chan_eq_some.mp hn]
  by_cases hslot : c = s.ch.toNat ∧ i = s.spos.toNat
  · exact .inl hslot
  · exact .inr (h.slots hp c i hc (by omega))

theorem halt_of_selectedIn_done {i : Instr} (h : Op.SelectedIn i.op .done) : i = .halt := by
  cases i <;> simp [Instr.op, Op.SelectedIn] at h ⊢

/-- A trap is taken from a state that is not `DONE`, because `HALT` traps nowhere. -/
theorem Inv.not_done_of_ne_halt {s : State} {i : Instr} (h : Inv s) (hsel : Op.SelectedIn i.op s.phase)
    (hi : i ≠ .halt) : s.stDone = false := by
  refine h.stDone_eq_false fun hp => hi (halt_of_selectedIn_done ?_)
  rwa [hp] at hsel

/-- `HDR` may write its fields before it traps: nothing has been produced yet that they could contradict. -/
theorem Inv.steady_newHeader {s : State} (h : Inv s) (hp : s.phase = .header) (f : Header) :
    Steady { s with h := f } := by
  obtain ⟨-, hinvalid⟩ := h.first hp
  obtain ⟨hprod, hout⟩ := h.idle hinvalid
  exact { h.steady with
    accepted := fun hv => absurd (hinvalid.symm.trans hv) (by decide)
    output := by simp [hprod, hout]
    bounded := .inl hprod }

theorem Inv.running_acceptedHeader {s : State} (h : Inv s) (hp : s.phase = .header) {f : Header}
    (hok : HeaderAccepted f) : Running { s with h := f, hValid := true } := by
  have he := h.stErr_eq_false (by simp [hp])
  exact { h.steady_newHeader hp f with
    accepted := fun _ => hok
    idle := fun hv => absurd (show true = false from hv) (by decide)
    valid := rfl
    not_done := h.stDone_eq_false (by simp [hp])
    no_fault := he
    no_code := h.no_record he }

theorem Inv.of_performs {s t : State} {i : Instr} (h : Inv s) (hsel : Op.SelectedIn i.op s.phase)
    (hperf : Performs s i t) : Inv t := by
  cases hperf with
  | rdbits | rdunary | skipb => exact hsel.elim
  | hdr hfit hok =>
    obtain ⟨hpos, hinvalid⟩ := h.first hsel
    obtain ⟨hprod, -⟩ := h.idle hinvalid
    have hpos' : s.pos + 192 = 192 := by rw [hpos]
    exact (((h.running_acceptedHeader hsel hok).advance hfit).goto .seekSkip).inv ⟨hpos', hprod⟩
  | seekskip hfit =>
    obtain ⟨-, hprod⟩ := h.second hsel
    exact ((h.running hsel (by decide)).advance hfit).inv_afterSeekSkip hprod
  | bsync hfit =>
    exact (((h.running hsel (by decide)).advance hfit).goto .blockIndex).inv (h.begun (.inl hsel))
  | bidx hfit =>
    exact ((h.running hsel (by decide)).advance hfit).inv_afterBidx (h.begun (.inr (.inl hsel)))
  | gps hfit =>
    have hhead : s.InBlockHead := .inr (.inr (.inl hsel))
    exact (((h.running hsel (by decide)).advance hfit).captureGps _ _).inv_afterGps (h.begun hhead)
  | tag hfit =>
    have hhead : s.InBlockHead := .inr (.inr (.inr hsel))
    exact (((h.running hsel (by decide)).advance hfit).captureTag _).inv_enterFrames (h.begun hhead)
  | frk hc hfit =>
    have hin : s.InFrame := .inl hsel
    exact (((h.running hsel (by decide)).advance hfit).setK _ _ _).inv_afterFrk hsel (h.frame hin) (h.pace (.inl hin))
  | @delta q r c sum hc hfit _ =>
    have hrun := ((((h.running hsel (by decide)).advance hfit).noteOvf (sumOverflows sum)).setAcc c
      (wrap32 sum)).writeFb c (wrap32 sum)
    have hin : s.InFrame := .inr (.inl hsel)
    exact hrun.inv_afterSlot hsel (h.frame hin) (h.pace (.inl hin)) (h.channel (.inr hsel)) (h.position hsel)
      (h.written_writeFb hsel hc _)
  | zdelta hc =>
    have hin : s.InFrame := .inr (.inl hsel)
    exact ((h.running hsel (by decide)).writeFb _ _).inv_afterSlot hsel (h.frame hin) (h.pace (.inl hin))
      (h.channel (.inr hsel)) (h.position hsel) (h.written_writeFb hsel hc _)
  | emit =>
    have hin : s.InFrame := .inr (.inr hsel)
    have hframe := h.frame hin
    have hpace := h.pace (.inl hin)
    refine ((h.running hsel (by decide)).emit _ hframe hpace).inv_afterEmit hframe ?_
    simp only [State.noteOvf_h, State.noteOvf_frm, Nat.succ_mul]
    omega
  | bendLast htotal => exact ((h.running hsel (by decide)).nextExpect (s.expect + 1#32)).inv_done htotal
  | bendMore htotal =>
    exact (((h.running hsel (by decide)).nextExpect (s.expect + 1#32)).goto .blockSync).inv htotal
  | halt => exact h
  | truncated hlack =>
    have hreads : i ≠ .halt := by
      rintro rfl
      exact absurd h.cursor (not_le.mpr hlack)
    exact h.steady.inv_takeFault (h.not_done_of_ne_halt hsel hreads) .eos
  | @badHeader f c _ =>
    exact (h.steady_newHeader hsel f).inv_takeFault (h.not_done_of_ne_halt hsel (by simp)) c
  | badPattern => exact h.steady.inv_takeFault (h.not_done_of_ne_halt hsel (by simp)) _
  | badIndex => exact h.steady.inv_takeFault (h.not_done_of_ne_halt hsel (by simp)) _

/-- Settles O49: the phase of the state selects the element, and its next state is good. -/
theorem everyStepKeepsTheInvariant : Obligations.EveryStepKeepsTheInvariant := by
  unfold Obligations.EveryStepKeepsTheInvariant
  intro s t h hstep
  obtain ⟨i, hfetch, hexec⟩ := step_cases hstep
  exact h.of_performs (selectedIn_of_fetch hfetch) (performs_of_exec hexec)

end Sys2Proof.Machine
end

section
/-! PROOFS. Bits, bytes and fields of the stream (20_memory.md R62 to R65): O1, O2, O3, O4. -/

namespace Sys2Proof.Machine

/-! ### Bits -/

theorem toNat_testBit_eq_shiftRight (v k : Nat) : (v.testBit k).toNat = (v >>> k) &&& 1 := by
  rw [Nat.toNat_testBit, Nat.and_one_is_mod, Nat.shiftRight_eq_div_pow]

theorem Memory.byte_lt (m : Memory) (a : Nat) : (m.byte a).toNat < 2 ^ 8 := (m.byte a).isLt

/-- The bit `j` of byte `a`, where the bit address says the byte. -/
theorem Memory.bit_in_byte (m : Memory) (a : Nat) {j : Nat} (hj : j < 8) :
    m.bit (8 * a + j) = (m.byte a).toNat.testBit j := by
  have hbyte : (8 * a + j) / 8 = a := by omega
  have hoffset : (8 * a + j) % 8 = j := by omega
  rw [Memory.bit, hbyte, hoffset]

/-- `W[k] = IN[2k] + 256 * IN[2k+1]` (20_memory.md R64). -/
def Memory.word (m : Memory) (k : Nat) : Nat := (m.byte (2 * k)).toNat + 256 * (m.byte (2 * k + 1)).toNat

/-- The low eight bits of a word are those of its first byte, the high eight those of its second. -/
theorem Memory.testBit_word (m : Memory) (k j : Nat) :
    (m.word k).testBit j =
      if j < 8 then (m.byte (2 * k)).toNat.testBit j else (m.byte (2 * k + 1)).toNat.testBit (j - 8) := by
  rw [Memory.word, Nat.add_comm]
  exact Nat.testBit_two_pow_mul_add _ (m.byte_lt _) j

theorem Memory.bit_in_word (m : Memory) (k : Nat) {j : Nat} (hj : j < 16) :
    m.bit (16 * k + j) = (m.word k).testBit j := by
  rw [Memory.testBit_word]
  split_ifs with hlow
  · have haddr : 16 * k + j = 8 * (2 * k) + j := by omega
    rw [haddr, m.bit_in_byte _ hlow]
  · have haddr : 16 * k + j = 8 * (2 * k + 1) + (j - 8) := by omega
    rw [haddr, m.bit_in_byte _ (by omega)]

/-! ### Fields -/

theorem memRead_eq_sum (bit : Nat → Bool) (p n : Nat) :
    memRead bit p n = ∑ j ∈ Finset.range n, (bit (p + j)).toNat * 2 ^ j := by
  induction n with
  | zero => rfl
  | succ n ih => rw [memRead_succ, Finset.sum_range_succ, ih]

/-- A field read in two parts: the second part stands above the first. -/
theorem memRead_add (bit : Nat → Bool) (p a b : Nat) :
    memRead bit p (a + b) = memRead bit p a + memRead bit (p + a) b * 2 ^ a := by
  induction b with
  | zero => simp
  | succ b ih => rw [← Nat.add_assoc, memRead_succ, ih, memRead_succ, Nat.pow_add, Nat.add_assoc p a b]; ring

/-- Eight bits from a byte boundary on are that byte. -/
theorem Memory.memRead_byte (m : Memory) (a : Nat) : memRead m.bit (8 * a) 8 = (m.byte a).toNat := by
  rw [memRead_testBit (m.byte a).toNat 8 fun j hj => m.bit_in_byte a hj]
  exact Nat.mod_eq_of_lt (m.byte_lt a)

/-- Each further byte of an aligned field stands above those before it. -/
theorem Memory.memRead_bytes (m : Memory) (a n : Nat) :
    memRead m.bit (8 * a) (8 * n) = ∑ j ∈ Finset.range n, (m.byte (a + j)).toNat * 256 ^ j := by
  induction n with
  | zero => rfl
  | succ n ih =>
    rw [Nat.mul_succ, memRead_add, ih, ← Nat.mul_add, Memory.memRead_byte, Nat.pow_mul, Finset.sum_range_succ]

/-! ### The statements -/

/-- Settles O3: bit `i` is bit `i mod 16` of the word `i div 16`, in the low byte or the high one. -/
theorem wordOrderAndByteOrderAgree : Obligations.WordOrderAndByteOrderAgree := by
  unfold Obligations.WordOrderAndByteOrderAgree
  intro m i
  calc (m.bit i).toNat
      = (m.bit (16 * (i / 16) + i % 16)).toNat := by rw [Nat.div_add_mod]
    _ = ((m.word (i / 16)).testBit (i % 16)).toNat := by rw [m.bit_in_word _ (Nat.mod_lt _ (by decide))]
    _ = (m.word (i / 16) >>> (i % 16)) &&& 1 := toNat_testBit_eq_shiftRight _ _

/-- Settles O4, by induction on the number of bytes (`Memory.memRead_bytes`). -/
theorem alignedFieldIsALittleEndianInteger : Obligations.AlignedFieldIsALittleEndianInteger := by
  unfold Obligations.AlignedFieldIsALittleEndianInteger
  exact Memory.memRead_bytes

/-- Settles O1: the model's bit is the byte's `testBit`, which is the shifted byte's lowest bit. -/
theorem bitsLeaveAByteFromItsLeastSignificantEnd : Obligations.BitsLeaveAByteFromItsLeastSignificantEnd := by
  unfold Obligations.BitsLeaveAByteFromItsLeastSignificantEnd
  intro m i
  exact toNat_testBit_eq_shiftRight _ _

/-- Settles O2, by induction on the width (`memRead_eq_sum`). -/
theorem fieldIsTheSumOfItsBits : Obligations.FieldIsTheSumOfItsBits := by
  unfold Obligations.FieldIsTheSumOfItsBits
  intro bit p n
  exact ⟨memRead_eq_sum bit p n, memRead_zero bit p⟩

end Sys2Proof.Machine
end

section
/-! PROOFS. The stream under a run, and the seek table, whose content no element reads (20_memory.md R71;
41_header.md R148): O46. An element's meaning depends on the stream through its extent only, so two streams of one
length give one run as long as the fetched elements are the same; and a run passes over the table in one step. -/

namespace Sys2Proof.Machine

/-! ### A state over another stream -/

/-- The state with the stream `m` in place of its own. -/
def State.withStream (m : Memory) (s : State) : State := { s with inp := m }

/-- The answer with the stream `m` in place of its own. -/
def answerWithStream (m : Memory) : Result → Result
  | .next t => .next (t.withStream m)
  | .fault r => .fault r
  | .refused r => .refused r

theorem answerWithStream_next (m : Memory) (t : State) : answerWithStream m (.next t) = .next (t.withStream m) := rfl

section
variable (m : Memory) (s : State)

@[simp] theorem State.withStream_pos : (s.withStream m).pos = s.pos := rfl
@[simp] theorem State.withStream_phase : (s.withStream m).phase = s.phase := rfl
@[simp] theorem State.withStream_h : (s.withStream m).h = s.h := rfl
@[simp] theorem State.withStream_inp : (s.withStream m).inp = m := rfl
@[simp] theorem State.withStream_k : (s.withStream m).k = s.k := rfl
@[simp] theorem State.withStream_chan : (s.withStream m).chan = s.chan := rfl
@[simp] theorem State.withStream_width : (s.withStream m).width = s.width := rfl
@[simp] theorem State.withStream_ctx : (s.withStream m).ctx = s.ctx := rfl

theorem State.withStream_enterFrames : s.enterFrames.withStream m = (s.withStream m).enterFrames :=
  apply_ite (State.withStream m) _ _ _

theorem State.withStream_afterSeekSkip : s.afterSeekSkip.withStream m = (s.withStream m).afterSeekSkip :=
  apply_ite (State.withStream m) _ _ _

theorem State.withStream_afterGps : s.afterGps.withStream m = (s.withStream m).afterGps := by
  simp only [State.afterGps, apply_ite (State.withStream m), State.withStream_enterFrames]
  rfl

theorem State.withStream_afterBidx : s.afterBidx.withStream m = (s.withStream m).afterBidx := by
  simp only [State.afterBidx, apply_ite (State.withStream m), State.withStream_enterFrames]
  rfl

theorem State.withStream_afterFrk : s.afterFrk.withStream m = (s.withStream m).afterFrk :=
  apply_ite (State.withStream m) _ _ _

theorem State.withStream_afterSlot : s.afterSlot.withStream m = (s.withStream m).afterSlot := by
  simp only [State.afterSlot, apply_ite (State.withStream m)]
  rfl

theorem State.withStream_afterEmit : s.afterEmit.withStream m = (s.withStream m).afterEmit :=
  apply_ite (State.withStream m) _ _ _

end

/-- An element that both streams hold, or that both lack, does the same over either. -/
theorem exec_withStream {m : Memory} {i : Instr} {s : State}
    (hfit : (s.withStream m).lacks (i.length s.ctx) = s.lacks (i.length s.ctx)) :
    exec i (s.withStream m) = answerWithStream m (exec i s) := by
  cases i with
  | rdbits | rdunary | skipb | bsync =>
    simp only [Instr.length] at hfit
    simp only [exec, execRdbits, execRdunary, execSkipb, execBsync, hfit, apply_ite (answerWithStream m)]
    rfl
  | hdr f =>
    simp only [Instr.length] at hfit
    cases hf : headerFault f <;> simp only [exec, execHdr, hf, hfit, apply_ite (answerWithStream m)] <;> rfl
  | seekskip =>
    have hbits : 32 * s.ctx.seekEntries.toNat = 8 * (4 * s.h.seekEntries.toNat) := by
      rw [State.ctx_seekEntries]; omega
    simp only [Instr.length, hbits] at hfit
    simp only [exec, execSeekskip, State.withStream_h, hfit, apply_ite (answerWithStream m), answerWithStream_next,
      State.withStream_afterSeekSkip]
    rfl
  | bidx x =>
    simp only [Instr.length] at hfit
    simp only [exec, execBidx, hfit, apply_ite (answerWithStream m), answerWithStream_next,
      State.withStream_afterBidx]
    rfl
  | gps a o =>
    simp only [Instr.length] at hfit
    simp only [exec, execGps, hfit, apply_ite (answerWithStream m), answerWithStream_next, State.withStream_afterGps]
    rfl
  | tag g =>
    simp only [Instr.length] at hfit
    simp only [exec, execTag, hfit, apply_ite (answerWithStream m), answerWithStream_next,
      State.withStream_enterFrames]
    rfl
  | frk k =>
    simp only [Instr.length] at hfit
    simp only [exec, execFrk, State.withStream_chan]
    cases s.chan with
    | none => rfl
    | some c =>
      simp only [hfit, apply_ite (answerWithStream m), answerWithStream_next, State.withStream_afterFrk]
      rfl
  | delta q r =>
    simp only [exec, execDelta, State.withStream_chan]
    cases hc : s.chan with
    | none => rfl
    | some c =>
      simp only [Instr.length, State.ctx_k_of_chan hc] at hfit
      simp only [State.withStream_k, hfit, apply_ite (answerWithStream m), answerWithStream_next,
        State.withStream_afterSlot]
      rfl
  | zdelta =>
    simp only [exec, execZdelta, State.withStream_chan]
    cases s.chan with
    | none => rfl
    | some c =>
      simp only [answerWithStream_next, State.withStream_afterSlot]
      rfl
  | emit =>
    simp only [exec, execEmit, answerWithStream_next, State.withStream_afterEmit]
    rfl
  | bend =>
    simp only [exec, execBend, apply_ite (answerWithStream m)]
    rfl
  | halt => rfl

theorem State.withStream_lacks {m : Memory} {s : State} (hsize : m.size = s.inp.size) (n : Nat) :
    (s.withStream m).lacks n = s.lacks n :=
  Bool.eq_iff_iff.mpr (by simp [Memory.bitLength, hsize])

theorem State.withStream_bitsLeft {m : Memory} {s : State} (hsize : m.size = s.inp.size) :
    (s.withStream m).bitsLeft = s.bitsLeft := by
  simp [State.bitsLeft, Memory.bitLength, hsize]

/-- A step over another stream of the same length does the same, when the element is decoded from the bits at `POS`
as before. -/
theorem step_withStream {m : Memory} {s : State} (hsize : m.size = s.inp.size)
    (hdecode : decode s.ctx (select s.phase s.width) (s.withStream m).bitsHere s.bitsLeft =
      decode s.ctx (select s.phase s.width) s.bitsHere s.bitsLeft) :
    step (s.withStream m) = answerWithStream m (step s) := by
  have hfetch : fetch (s.withStream m) = fetch s := by
    simp only [fetch, State.withStream_phase, State.withStream_chan, State.withStream_ctx, State.withStream_width,
      State.withStream_bitsLeft hsize, hdecode]
  unfold step
  rw [hfetch]
  cases fetch s with
  | next i => exact exec_withStream (State.withStream_lacks hsize _)
  | fault r => rfl
  | refused r => rfl

/-! ### Runs, a step at a time -/

theorem runFrom_succ_of_step {s t : State} (hstep : step s = .next t) (n : Nat) :
    runFrom (n + 1) s = runFrom n t := by
  have hcore : core.step s = .next t := hstep
  show core.run (n + 1) s = core.run n t
  simp only [Host.Core.run, hcore]

theorem exists_step_of_runFrom_succ {n : Nat} {s u : State} (hrun : runFrom (n + 1) s = .next u) :
    ∃ t, step s = .next t ∧ runFrom n t = .next u := by
  cases hstep : step s with
  | next t => exact ⟨t, rfl, by rw [← runFrom_succ_of_step hstep, hrun]⟩
  | fault r =>
    have hcore : core.step s = .fault r := hstep
    simp [runFrom, Host.Core.run, hcore] at hrun
  | refused r =>
    have hcore : core.step s = .refused r := hstep
    simp [runFrom, Host.Core.run, hcore] at hrun

theorem step_inp {s t : State} (hstep : step s = .next t) : t.inp = s.inp := by
  obtain ⟨i, -, hexec⟩ := step_cases hstep
  exact (performs_of_exec hexec).stream_eq.1

/-! ### The seek table -/

/-- `H.SEEKENTRIES` as the header of the stream gives it (30_encoding.md R93). -/
def Memory.seekEntries (m : Memory) : Nat := memRead m.bit 176 16

/-- The streams have one length and the same bits before bit 192 and from the end of the seek table on. -/
structure SameOutsideSeekTable (m m' : Memory) : Prop where
  size_eq : m'.size = m.size
  before : ∀ i < 192, m'.bit i = m.bit i
  behind : ∀ i, 192 + 32 * m.seekEntries ≤ i → m'.bit i = m.bit i

/-- Where a run is with respect to the seek table of its stream: in no case does the next element read a bit of it. -/
inductive State.OffSeekTable (s : State) : Prop
  | atHeader (hphase : s.phase = .header) (hpos : s.pos = 0)
  | atTable (hphase : s.phase = .seekSkip) (hpos : s.pos = 192) (hentries : s.h.seekEntries.toNat = s.inp.seekEntries)
  | inFault (hphase : s.phase = .fault)
  | behind (hpos : 192 + 32 * s.inp.seekEntries ≤ s.pos)

theorem offSeekTable_start (params : Params) (m : Memory) : (State.start params m).OffSeekTable := .atHeader rfl rfl

theorem decodeHeader_congr {f g : Nat → Bool} (h : ∀ j < 192, f j = g j) : decodeHeader f = decodeHeader g := by
  have hfield : ∀ p n, p + n ≤ 192 → memRead f p n = memRead g p n := fun p n hn =>
    memRead_congr fun j hj => h (p + j) (by omega)
  simp [decodeHeader, hfield]

theorem decodeHeader_seekEntries (bit : Nat → Bool) : (decodeHeader bit).seekEntries.toNat = memRead bit 176 16 :=
  Nat.mod_eq_of_lt (memRead_lt bit 176 16)

theorem State.OffSeekTable.decode_eq {s : State} {m : Memory} (h : s.OffSeekTable)
    (hsame : SameOutsideSeekTable s.inp m) :
    decode s.ctx (select s.phase s.width) (s.withStream m).bitsHere s.bitsLeft =
      decode s.ctx (select s.phase s.width) s.bitsHere s.bitsLeft := by
  cases h with
  | atHeader hphase hpos =>
    have hheader : decodeHeader (s.withStream m).bitsHere = decodeHeader s.bitsHere :=
      decodeHeader_congr fun j hj => hsame.before _ (by rw [State.withStream_pos, hpos]; omega)
    simp only [hphase, select, decode, hheader]
  | atTable hphase => rw [hphase]; rfl
  | inFault hphase => rw [hphase]; rfl
  | behind hpos =>
    have hbits : (s.withStream m).bitsHere = s.bitsHere :=
      funext fun j => hsame.behind _ (Nat.le_add_right_of_le hpos)
    rw [hbits]

theorem fetch_header {s : State} {i : Instr} (hphase : s.phase = .header) (hfetch : fetch s = .next i) :
    i = .hdr (decodeHeader s.bitsHere) := by
  obtain ⟨-, hdecode⟩ := fetch_cases hfetch
  rw [hphase] at hdecode
  cases hdecode
  rfl

theorem fetch_seekSkip {s : State} {i : Instr} (hphase : s.phase = .seekSkip) (hfetch : fetch s = .next i) :
    i = .seekskip := by
  obtain ⟨-, hdecode⟩ := fetch_cases hfetch
  rw [hphase] at hdecode
  cases hdecode
  rfl

theorem fetch_fault {s : State} {i : Instr} (hphase : s.phase = .fault) (hfetch : fetch s = .next i) : i = .halt := by
  obtain ⟨-, hdecode⟩ := fetch_cases hfetch
  rw [hphase] at hdecode
  cases hdecode
  rfl

/-- `HDR` at bit 0 leads to the table or to `FAULT`, `SEEKSKIP` behind the table or to `FAULT`, and from there the
cursor never goes back. -/
theorem State.OffSeekTable.step {s t : State} (h : s.OffSeekTable) (hstep : step s = .next t) : t.OffSeekTable := by
  have hinp := step_inp hstep
  obtain ⟨i, hfetch, hexec⟩ := step_cases hstep
  have hperf := performs_of_exec hexec
  cases h with
  | atHeader hphase hpos =>
    obtain rfl := fetch_header hphase hfetch
    cases hperf with
    | hdr =>
      have hentries : memRead s.bitsHere 176 16 = s.inp.seekEntries :=
        memRead_congr fun j _ => by simp [State.bitsHere, hpos]
      exact .atTable rfl (by simp [hpos]) ((decodeHeader_seekEntries _).trans hentries)
    | truncated => exact .inFault rfl
    | badHeader => exact .inFault rfl
  | atTable hphase hpos hentries =>
    obtain rfl := fetch_seekSkip hphase hfetch
    cases hperf with
    | seekskip => exact .behind (by simp [hpos, hentries])
    | truncated => exact .inFault rfl
  | inFault hphase =>
    obtain rfl := fetch_fault hphase hfetch
    cases hperf with
    | halt => exact .inFault hphase
    | truncated => exact .inFault rfl
  | behind hpos =>
    refine .behind ?_
    rw [hinp]
    obtain hstay | ⟨hmove, -⟩ := hperf.pos_cases <;> omega

theorem State.OffSeekTable.run_withStream {n : Nat} {s t : State} {m : Memory} (h : s.OffSeekTable)
    (hsame : SameOutsideSeekTable s.inp m) (hrun : runFrom n s = .next t) :
    runFrom n (s.withStream m) = .next (t.withStream m) := by
  induction n generalizing s with
  | zero => cases hrun; rfl
  | succ n ih =>
    obtain ⟨u, hstep, hrest⟩ := exists_step_of_runFrom_succ hrun
    have hstep' : Machine.step (s.withStream m) = .next (u.withStream m) := by
      rw [step_withStream hsame.size_eq (h.decode_eq hsame), hstep, answerWithStream_next]
    rw [runFrom_succ_of_step hstep']
    exact ih (h.step hstep) (by rwa [step_inp hstep]) hrest

/-- Settles O46: a run starts off its seek table and stays off it, so each of its elements is decoded alike from
either stream. -/
theorem seekTableContentIsNeverRead : Obligations.SeekTableContentIsNeverRead := by
  unfold Obligations.SeekTableContentIsNeverRead
  intro n params m m' t hsize hbits hrun
  have hsame : SameOutsideSeekTable m m' := ⟨hsize, fun i hi => hbits i (.inl hi), fun i hi => hbits i (.inr hi)⟩
  exact (offSeekTable_start params m).run_withStream hsame hrun

end Sys2Proof.Machine
end

section
/-! PROOFS. Decoding and encoding (30_encoding.md R92 to R100): O5, O6, O31. For each kind of field the value read says
which bits stand in the stream, and those bits say which value is read; the two directions of the statements are the
two directions of that equivalence for the whole instruction set (`decode_eq_ok_iff`). -/

namespace Sys2Proof.Machine

/-! ### The bits of the stream spell an encoding -/

/-- The bits from bit `p` on begin with the list `l`. -/
def Spells (bit : Nat → Bool) (p : Nat) (l : List Bool) : Prop := ∀ j < l.length, bit (p + j) = bitsOf l j

section
variable {bit : Nat → Bool} {p : Nat}

@[simp] theorem spells_nil : Spells bit p [] := fun _ hj => absurd hj (Nat.not_lt_zero _)

/-- The bits spell two parts in a row when they spell the first and, behind it, the second. -/
@[simp] theorem spells_append {a b : List Bool} :
    Spells bit p (a ++ b) ↔ Spells bit p a ∧ Spells bit (p + a.length) b := by
  constructor
  · intro h
    refine ⟨fun j hj => ?_, fun j hj => ?_⟩
    · rw [h j (by rw [List.length_append]; omega), bitsOf_append_left hj]
    · rw [Nat.add_assoc, h (a.length + j) (by rw [List.length_append]; omega), bitsOf_append_right]
  · rintro ⟨ha, hb⟩ j hj
    rcases Nat.lt_or_ge j a.length with hlt | hge
    · rw [ha j hlt, bitsOf_append_left hlt]
    · obtain ⟨i, rfl⟩ := Nat.exists_eq_add_of_le hge
      rw [← Nat.add_assoc, hb i (by rw [List.length_append] at hj; omega), bitsOf_append_right]

theorem spells_bitsOf_append (l rest : List Bool) : Spells (bitsOf (l ++ rest)) 0 l := fun j hj => by
  rw [Nat.zero_add, bitsOf_append_left hj]

/-! ### Each kind of field -/

/-- The bits of a field are those of its value. -/
theorem testBit_memRead (bit : Nat → Bool) (p : Nat) {n j : Nat} (hj : j < n) :
    (memRead bit p n).testBit j = bit (p + j) := by
  induction n with
  | zero => omega
  | succ n ih =>
    rw [memRead_succ, Nat.add_comm, Nat.mul_comm, Nat.testBit_two_pow_mul_add _ (memRead_lt bit p n)]
    split_ifs with hlow
    · exact ih hlow
    · obtain rfl : j = n := by omega
      cases bit (p + j) <;> simp

theorem spells_fieldBits {n v : Nat} : Spells bit p (fieldBits n v) ↔ memRead bit p n = v % 2 ^ n := by
  have hspells : Spells bit p (fieldBits n v) ↔ ∀ j < n, bit (p + j) = v.testBit j := by
    simp +contextual [Spells, bitsOf_fieldBits]
  rw [hspells]
  refine ⟨memRead_testBit v n, fun h j hj => ?_⟩
  rw [← testBit_memRead bit p hj, h, Nat.testBit_mod_two_pow, decide_eq_true hj, Bool.true_and]

/-- A field of fixed width, as the decoder delivers it. -/
@[simp] theorem spells_fieldBits_toNat {n : Nat} {x : BitVec n} :
    Spells bit p (fieldBits n x.toNat) ↔ BitVec.ofNat n (memRead bit p n) = x := by
  rw [spells_fieldBits, Nat.mod_eq_of_lt x.isLt, ← BitVec.toNat_inj, BitVec.toNat_ofNat,
    Nat.mod_eq_of_lt (memRead_lt bit p n)]

/-- A field of a free width: the value read is in its range. -/
theorem memRead_eq_iff {n v : Nat} : memRead bit p n = v ↔ v < 2 ^ n ∧ Spells bit p (fieldBits n v) := by
  rw [spells_fieldBits]
  constructor
  · rintro rfl
    exact ⟨memRead_lt bit p n, (Nat.mod_eq_of_lt (memRead_lt bit p n)).symm⟩
  · rintro ⟨hv, h⟩
    rw [h, Nat.mod_eq_of_lt hv]

/-- A unary count that ends inside the bits left. -/
theorem unaryRun_eq_iff {stop : Bool} {q avail : Nat} (hq : q < avail) :
    unaryRun stop bit p avail = q ↔ Spells bit p (unaryBits stop q) := by
  constructor
  · intro h j hj
    obtain ⟨hcontinue, hstop⟩ := unaryRun_spec stop bit avail p
    rw [h] at hcontinue hstop
    rw [unaryBits_length] at hj
    rcases Nat.lt_succ_iff_lt_or_eq.mp hj with hlt | rfl
    · rw [bitsOf_unary_continue hlt, Bool.eq_not]
      exact hcontinue j hlt
    · rw [bitsOf_unary_stop, hstop hq]
  · intro h
    refine unaryRun_eq hq (fun j hj => ?_) ?_
    · rw [h j (by rw [unaryBits_length]; omega), bitsOf_unary_continue hj]
      exact Bool.not_ne_self stop
    · rw [h q (by rw [unaryBits_length]; omega), bitsOf_unary_stop]

/-- The ten fields of the header, each at its offset (30_encoding.md R93). -/
theorem decodeHeader_eq_iff {f : Header} : decodeHeader bit = f ↔ Spells bit 0 (headerBits f) := by
  obtain ⟨⟩ := f
  simp [decodeHeader, headerBits]

end

/-! ### The whole instruction set -/

/-- Every bit of the element is in a field: all but the two elements that pass over bytes without examining them
(41_header.md R148, 40_bitreader.md R123). -/
def Instr.AllBitsInFields : Instr → Prop
  | .skipb _ | .seekskip => False
  | _ => True

theorem Instr.allBitsInFields_of_ne {i : Instr} (hskipb : ∀ n, i ≠ .skipb n) (hseekskip : i ≠ .seekskip) :
    Instr.AllBitsInFields i := by
  cases i with
  | skipb n => exact hskipb n rfl
  | seekskip => exact hseekskip rfl
  | _ => trivial

/-- The decoder answers an instruction inside the bits left exactly when it is well formed and the stream begins with
its encoding. -/
theorem decode_eq_ok_iff {cx : Ctx} {i : Instr} {bit : Nat → Bool} {avail : Nat} (hlength : i.length cx ≤ avail) :
    decode cx i.op bit avail = .ok i ↔
      i.wellFormed cx = true ∧ (Instr.AllBitsInFields i → Spells bit 0 (encode cx i)) := by
  cases i with
  | rdbits n v =>
    by_cases hn : n ≤ 32 <;>
      simp [decode, Instr.op, Instr.wellFormed, Instr.AllBitsInFields, encode, hn, memRead_eq_iff]
  | rdunary q =>
    simp [decode, Instr.op, Instr.wellFormed, Instr.AllBitsInFields, encode, unaryRun_eq_iff hlength]
  | hdr f => simp [decode, Instr.op, Instr.wellFormed, Instr.AllBitsInFields, encode, decodeHeader_eq_iff]
  | delta q r =>
    have hq : q < avail := by simp only [Instr.length] at hlength; omega
    have hfields : (unaryRun cx.stopBit bit 0 avail = q ∧
          memRead bit (unaryRun cx.stopBit bit 0 avail + 1) cx.k.toNat = r) ↔
        r < 2 ^ cx.k.toNat ∧ Spells bit 0 (encode cx (.delta q r)) := by
      rw [encode, spells_append, ← unaryRun_eq_iff hq, unaryBits_length, Nat.zero_add]
      constructor
      · rintro ⟨hrun, hread⟩
        obtain ⟨hr, hrem⟩ := memRead_eq_iff.mp hread
        exact ⟨hr, hrun, hrun ▸ hrem⟩
      · rintro ⟨hr, hrun, hrem⟩
        exact ⟨hrun, memRead_eq_iff.mpr ⟨hr, hrun.symm ▸ hrem⟩⟩
    by_cases hk : cx.k = 0#4 <;>
      simp [decode, Instr.op, Instr.wellFormed, Instr.AllBitsInFields, hk, hfields]
  | _ => simp [decode, Instr.op, Instr.wellFormed, Instr.AllBitsInFields, encode]

theorem encode_length (cx : Ctx) : ∀ i : Instr, (encode cx i).length = i.length cx
  | .rdbits n v => Laws.EncodedLength.rdbits n v cx
  | .rdunary q => Laws.EncodedLength.rdunary q cx
  | .skipb n => Laws.EncodedLength.skipb n cx
  | .hdr f => Laws.EncodedLength.hdr f cx
  | .seekskip => Laws.EncodedLength.seekskip cx
  | .bsync p => Laws.EncodedLength.bsync p cx
  | .bidx x => Laws.EncodedLength.bidx x cx
  | .gps a o => Laws.EncodedLength.gps a o cx
  | .tag g => Laws.EncodedLength.tag g cx
  | .frk k => Laws.EncodedLength.frk k cx
  | .delta q r => Laws.EncodedLength.delta q r cx
  | .zdelta => Laws.EncodedLength.zdelta cx
  | .emit => Laws.EncodedLength.emit cx
  | .bend => Laws.EncodedLength.bend cx
  | .halt => Laws.EncodedLength.halt cx

/-! ### The statements -/

/-- Settles O5: the stream begins with the encoding, so the decoder answers the instruction. -/
theorem decodingAnEncodedInstructionGivesItBack : Obligations.DecodingAnEncodedInstructionGivesItBack := by
  unfold Obligations.DecodingAnEncodedInstructionGivesItBack
  intro cx i rest hwf
  have hlength : i.length cx ≤ (encode cx i).length + rest.length := by rw [encode_length]; omega
  exact (decode_eq_ok_iff hlength).mpr ⟨hwf, fun _ => spells_bitsOf_append _ _⟩

/-- Settles O6: the decoder answered the instruction, so the stream begins with its encoding. -/
theorem encodingADecodedInstructionGivesItsBits : Obligations.EncodingADecodedInstructionGivesItsBits := by
  unfold Obligations.EncodingADecodedInstructionGivesItsBits
  intro cx op bit avail i hdecode hlength hskipb hseekskip j hj
  obtain rfl := op_of_decode hdecode
  obtain ⟨-, hspells⟩ := (decode_eq_ok_iff hlength).mp hdecode
  rw [← hspells (Instr.allBitsInFields_of_ne hskipb hseekskip) j (by rwa [encode_length]), Nat.zero_add]

/-- Settles O31: a magnitude is the quotient times `2 ^ k` plus a remainder below it, and division is unique. -/
theorem everyMagnitudeHasOneCodeword : Obligations.EveryMagnitudeHasOneCodeword := by
  unfold Obligations.EveryMagnitudeHasOneCodeword
  intro k m q r _
  have hdiv : m / 2 ^ k.toNat = q ∧ m % 2 ^ k.toNat = r ↔ r + 2 ^ k.toNat * q = m ∧ r < 2 ^ k.toNat :=
    Nat.div_mod_unique (Nat.two_pow_pos k.toNat)
  rw [magnitude, eq_comm (a := q), eq_comm (a := r), hdiv, Nat.mul_comm, Nat.add_comm, and_comm]

end Sys2Proof.Machine
end

section
/-! PROOFS. A word of the opcode table placed in the stream (30_encoding.md R90; 70_reset_and_hazards.md R284): O11. -/

namespace Sys2Proof.Machine

/-! ### Placing bits in the stream -/

theorem testBit_packByte (bit : Nat → Bool) {j : Nat} (hj : j < 8) : (packByte bit).toNat.testBit j = bit j := by
  rw [packByte, BitVec.toNat_ofNat, Nat.mod_eq_of_lt (memRead_lt bit 0 8), testBit_memRead bit 0 hj, Nat.zero_add]

/-- After a sequence of stores, each at its own address, a byte is what was stored there, or what it was. -/
theorem Memory.byte_foldl_put (g : Nat → Byte) (l : List Nat) {m : Memory} (h : m.wf = true) (a : Nat) :
    (l.foldl (fun acc x => acc.put x (g x)) m).byte a = if a ∈ l then g a else m.byte a := by
  induction l generalizing m with
  | nil => rfl
  | cons x l ih =>
    rw [List.foldl_cons, ih (Memory.wf_put h x (g x)), Memory.byte_put h]
    by_cases hmem : a ∈ l
    · simp [hmem]
    · by_cases hax : a = x <;> simp [hmem, hax]

/-- The bits that were placed read back. -/
theorem Memory.bit_place {m : Memory} (h : m.wf = true) {p n j : Nat} (bit : Nat → Bool) (hj : j < n) :
    (m.place p n bit).bit (p + j) = bit j := by
  have hbyte : (p + j) / 8 ∈ List.range' (p / 8) ((p + n + 7) / 8 - p / 8) := by
    rw [List.mem_range'_1]
    omega
  have haddr : 8 * ((p + j) / 8) + (p + j) % 8 = p + j := Nat.div_add_mod _ _
  rw [Memory.bit, Memory.place,
    Memory.byte_foldl_put (fun a => packByte fun i =>
      let j := 8 * a + i
      if p ≤ j ∧ j < p + n then bit (j - p) else m.bit j) _ h,
    if_pos hbyte, testBit_packByte _ (Nat.mod_lt _ (by decide))]
  simp [haddr, hj]

/-! ### The state that holds the word -/

/-- The state with a sequencer state and a stream put in place. -/
def State.presented (s : State) (ph : Phase) (m : Memory) : State := { s with phase := ph, inp := m }

@[simp] theorem State.presented_phase (s : State) (ph : Phase) (m : Memory) : (s.presented ph m).phase = ph := rfl

@[simp] theorem State.bitsHere_presented (s : State) (ph : Phase) (m : Memory) (j : Nat) :
    (s.presented ph m).bitsHere j = m.bit (s.pos + j) := rfl

theorem State.withFetchWord_eq (s : State) (nbits w : Nat) :
    s.withFetchWord nbits w =
      s.presented ((tablePhase nbits w).getD s.phase) (s.inp.place s.pos 192 (tableBit nbits w)) := rfl

theorem State.phase_withFetchWord (s : State) {nbits w : Nat} {ph : Phase} (hrow : tablePhase nbits w = some ph) :
    (s.withFetchWord nbits w).phase = ph := by
  rw [State.withFetchWord_eq, State.presented_phase, hrow, Option.getD_some]

theorem State.bitsHere_withFetchWord {s : State} (h : s.inp.wf = true) (nbits w : Nat) {j : Nat} (hj : j < 192) :
    (s.withFetchWord nbits w).bitsHere j = tableBit nbits w j := by
  rw [State.withFetchWord_eq, State.bitsHere_presented, Memory.bit_place h _ hj]

/-! ### Fetching the word -/

/-- A word of the table names a row of one of two sequencer states. -/
theorem tablePhase_cases {nbits w : Nat} {ph : Phase} (h : tablePhase nbits w = some ph) :
    ph = .header ∨ ph = .blockGps := by
  unfold tablePhase at h
  split_ifs at h <;> cases h <;> simp

/-- The definition is unfolded as a function, before it meets its arguments: comparing its value on a word with the
`match` would have the kernel evaluate `tablePhase` there. -/
theorem decodeTableWord_cases {nbits w : Nat} {i : Instr} (h : decodeTableWord nbits w = some i) :
    ∃ ph, tablePhase nbits w = some ph ∧ decode tableCtx (select ph 0) (tableBit nbits w) 192 = .ok i := by
  obtain ⟨body, hbody⟩ : ∃ body, decodeTableWord = body := ⟨_, rfl⟩
  rw [hbody] at h
  delta decodeTableWord at hbody
  subst hbody
  beta_reduce at h
  split at h
  · cases h
  · next ph hrow =>
    split at h
    · next hdecode =>
      cases h
      exact ⟨ph, hrow, hdecode⟩
    · cases h

/-- The header and the GPS fix have a fixed length and read no register: the first 192 bits alone say what they
decode to. -/
theorem decode_tableRow_congr {ph : Phase} (hph : ph = .header ∨ ph = .blockGps) {f g : Nat → Bool}
    (hbits : ∀ j < 192, f j = g j) (cx cx' : Ctx) (k k' : Nibble) (avail avail' : Nat) :
    decode cx (select ph k) f avail = decode cx' (select ph k') g avail' := by
  obtain rfl | rfl := hph
  · simp only [select, decode, decodeHeader_congr hbits]
  · have hlat : memRead f 0 25 = memRead g 0 25 := memRead_congr fun j hj => hbits _ (by omega)
    have hlon : memRead f 25 26 = memRead g 25 26 := memRead_congr fun j hj => hbits _ (by omega)
    simp only [select, decode, hlat, hlon]

theorem fetch_of_decode {s : State} {i : Instr} (hchan : s.phase = .frameDelta → s.chan ≠ none)
    (hdecode : decode s.ctx (select s.phase s.width) s.bitsHere s.bitsLeft = .ok i) : fetch s = .next i := by
  unfold fetch
  rw [if_neg fun hnone => hchan hnone.1 hnone.2, hdecode]

theorem step_of_fetch {s : State} {i : Instr} (h : fetch s = .next i) : step s = exec i s := by
  unfold step
  rw [h]

/-! ### The statement -/

/-- Settles O11: the bits placed at `POS` are the word's, and its row is one whose decoding they alone determine. -/
theorem tableWordRunsAsTheNextInstruction : Obligations.TableWordRunsAsTheNextInstruction := by
  unfold Obligations.TableWordRunsAsTheNextInstruction
  intro s nbits w i hwf hword
  obtain ⟨ph, hrow, hdecode⟩ := decodeTableWord_cases hword
  have hph := tablePhase_cases hrow
  have hphase := s.phase_withFetchWord hrow
  apply step_of_fetch
  apply fetch_of_decode
  · rw [hphase]
    rintro rfl
    simp at hph
  · rw [hphase, ← hdecode]
    exact decode_tableRow_congr hph (fun j hj => State.bitsHere_withFetchWord hwf nbits w hj) _ _ _ _ _ _

end Sys2Proof.Machine
end

section
/-! PROOFS. The three primitives of the bit reader (40_bitreader.md R120 to R123): O12, O13, O14. What an element does
once its extent is compared with the stream, and what the fields read at `POS` are as bits of the stream. -/

namespace Sys2Proof.Machine

/-! ### The check of an element's extent -/

section
variable {s : State} {n : Nat} {short whole : Result}

theorem State.ite_lacks_of_fits (hfit : s.pos + n ≤ s.inp.bitLength) :
    (if s.lacks n then short else whole) = whole :=
  if_neg (by rw [State.lacks_eq_false.mpr hfit]; exact Bool.false_ne_true)

theorem State.ite_lacks_of_short (hlack : s.inp.bitLength < s.pos + n) :
    (if s.lacks n then short else whole) = short :=
  if_pos (State.lacks_eq_true.mpr hlack)

end

/-! ### The fields at the cursor -/

section
variable {s : State}

theorem State.memRead_bitsHere (s : State) (p n : Nat) :
    memRead s.bitsHere p n = memRead s.inp.bit (s.pos + p) n :=
  memRead_congr fun j _ => congrArg s.inp.bit (Nat.add_assoc s.pos p j).symm

theorem State.lt_bitsLeft {q : Nat} : q < s.bitsLeft ↔ s.pos + q < s.inp.bitLength :=
  Nat.lt_sub_iff_add_lt'

/-- Where no stop bit is left the count is all that is left. -/
theorem unaryRun_eq_avail {stop : Bool} {bit : Nat → Bool} {p avail : Nat} (h : ∀ j < avail, bit (p + j) ≠ stop) :
    unaryRun stop bit p avail = avail := by
  obtain ⟨-, hstop⟩ := unaryRun_spec stop bit avail p
  refine (unaryRun_le stop bit avail p).eq_of_not_lt fun hlt => ?_
  exact h _ hlt (hstop hlt)

theorem State.unaryRun_bitsHere_of_stop {q : Nat} (hcontinue : ∀ j < q, s.inp.bit (s.pos + j) ≠ s.params.stopBit)
    (hinside : s.pos + q < s.inp.bitLength) (hstop : s.inp.bit (s.pos + q) = s.params.stopBit) :
    unaryRun s.params.stopBit s.bitsHere 0 s.bitsLeft = q := by
  refine unaryRun_eq (State.lt_bitsLeft.mpr hinside) (fun j hj => ?_) ?_
  · rw [Nat.zero_add]
    exact hcontinue j hj
  · rw [Nat.zero_add]
    exact hstop

theorem State.unaryRun_bitsHere_of_no_stop
    (hcontinue : ∀ j, s.pos + j < s.inp.bitLength → s.inp.bit (s.pos + j) ≠ s.params.stopBit) :
    unaryRun s.params.stopBit s.bitsHere 0 s.bitsLeft = s.bitsLeft := by
  refine unaryRun_eq_avail fun j hj => ?_
  rw [Nat.zero_add]
  exact hcontinue j (State.lt_bitsLeft.mp hj)

theorem State.decode_rdunary (s : State) :
    decode s.ctx .rdunary s.bitsHere s.bitsLeft =
      .ok (.rdunary (unaryRun s.params.stopBit s.bitsHere 0 s.bitsLeft)) := rfl

/-- An element of more bits than are left is short of the stream. -/
theorem State.short_of_bitsLeft_lt {n : Nat} (h : s.bitsLeft < n) : s.inp.bitLength < s.pos + n := by
  unfold State.bitsLeft at h
  omega

end

/-! ### The statements -/

/-- Settles O13: the count is the first stop bit's offset, and without one it is the number of bits left, which with
the stop bit itself no longer fits. -/
theorem rdunaryCountsTheBitsBeforeTheStopBit : Obligations.RdunaryCountsTheBitsBeforeTheStopBit := by
  unfold Obligations.RdunaryCountsTheBitsBeforeTheStopBit
  intro q s
  refine ⟨fun hfit => ?_, fun hcontinue hinside hstop => ?_, fun hcontinue => ⟨s.bitsLeft, ?_, ?_⟩⟩
  · exact State.ite_lacks_of_fits hfit
  · rw [s.decode_rdunary, State.unaryRun_bitsHere_of_stop hcontinue hinside hstop]
  · rw [s.decode_rdunary, State.unaryRun_bitsHere_of_no_stop hcontinue]
  · exact State.ite_lacks_of_short (State.short_of_bitsLeft_lt (Nat.lt_succ_self _))

/-- Settles O12: the contract's width is checked first, then the extent; the value is the field at `POS`. -/
theorem rdbitsReadsAnUnsignedField : Obligations.RdbitsReadsAnUnsignedField := by
  unfold Obligations.RdbitsReadsAnUnsignedField
  intro n v s
  refine ⟨fun hn hfit => ?_, fun hn hlack => ?_, fun hn => ?_, fun hn => ?_⟩
  · exact (if_neg hn.not_gt).trans (State.ite_lacks_of_fits hfit)
  · exact (if_neg hn.not_gt).trans (State.ite_lacks_of_short hlack)
  · exact if_pos hn
  · have hvalue : memRead s.bitsHere 0 n = ∑ j ∈ Finset.range n, (s.inp.bit (s.pos + j)).toNat * 2 ^ j := by
      rw [s.memRead_bitsHere, memRead_eq_sum, Nat.add_zero]
    rw [decode, if_pos hn, hvalue]

/-- Settles O14: the only question is whether the `8n` bits fit. -/
theorem skipbPassesOverWholeBytes : Obligations.SkipbPassesOverWholeBytes := by
  unfold Obligations.SkipbPassesOverWholeBytes
  intro n s
  exact ⟨fun hfit => State.ite_lacks_of_fits hfit, fun hlack => State.ite_lacks_of_short hlack⟩

end Sys2Proof.Machine
end

section
/-! PROOFS. The header, the seek table and the flags that change nothing (41_header.md R141 to R148; 10_state.md R28):
O15, O16, O17, O20, O44. A check of `HDR` that fails names the fault taken; every element but `HDR` commutes with a
change of the flags that keeps the three fields read. -/

namespace Sys2Proof.Machine

/-! ### The fields of the header (30_encoding.md R93) -/

/-- A field read at the cursor is the field of the stream at `POS`: the register holds it whole. -/
theorem State.toNat_field (s : State) (p n : Nat) :
    (BitVec.ofNat n (memRead s.bitsHere p n)).toNat = memRead s.inp.bit (s.pos + p) n :=
  (Nat.mod_eq_of_lt (memRead_lt _ _ _)).trans (s.memRead_bitsHere p n)

theorem State.fetch_hdr {s : State} (hphase : s.phase = .header) :
    fetch s = .next (.hdr (decodeHeader s.bitsHere)) :=
  fetch_of_decode (by simp [hphase]) (by rw [hphase]; rfl)

/-! ### The meanings, by the outcome of their checks -/

section
variable {s : State}

theorem exec_hdr_of_fault {f : Header} {c : Cause} (hfit : s.pos + 192 ≤ s.inp.bitLength)
    (hfault : headerFault f = some c) : exec (.hdr f) s = .next ({ s with h := f }.takeFault c) := by
  refine (State.ite_lacks_of_fits hfit).trans ?_
  rw [hfault]

theorem exec_hdr_of_accepted {f : Header} (hfit : s.pos + 192 ≤ s.inp.bitLength) (hok : headerFault f = none) :
    exec (.hdr f) s = .next { s with h := f, hValid := true, pos := s.pos + 192, phase := .seekSkip } := by
  refine (State.ite_lacks_of_fits hfit).trans ?_
  rw [hok]
  rfl

/-- Every check of `HDR` raises a FormatError (60_exceptions.md R241). -/
theorem code_of_headerFault {f : Header} {c : Cause} (h : headerFault f = some c) : c.code = 1#2 := by
  unfold headerFault at h
  split_ifs at h <;> cases h <;> rfl

theorem exec_seekskip (s : State) :
    exec .seekskip s =
      if s.lacks (32 * s.h.seekEntries.toNat) then .next (s.takeFault .eos)
      else .next (s.advance (32 * s.h.seekEntries.toNat)).afterSeekSkip := by
  have hbits : 8 * (4 * s.h.seekEntries.toNat) = 32 * s.h.seekEntries.toNat := by omega
  simp only [exec, execSeekskip, hbits]

theorem exec_seekskip_of_fits (hfit : s.pos + 32 * s.h.seekEntries.toNat ≤ s.inp.bitLength) :
    exec .seekskip s = .next (s.advance (32 * s.h.seekEntries.toNat)).afterSeekSkip :=
  (exec_seekskip s).trans (State.ite_lacks_of_fits hfit)

theorem exec_bidx_expect (hfit : s.pos + 32 ≤ s.inp.bitLength) :
    exec (.bidx s.expect) s = .next (s.advance 32).afterBidx :=
  (State.ite_lacks_of_fits hfit).trans (if_neg (not_not.mpr rfl))

end

/-! ### A state with other flags in its header -/

/-- The state with `fl` in place of `H.FLAGS`. -/
def State.withFlags (fl : Half) (s : State) : State := { s with h := { s.h with flags := fl } }

/-- The answer with `fl` in place of `H.FLAGS`. -/
def answerWithFlags (fl : Half) : Result → Result
  | .next t => .next (t.withFlags fl)
  | .fault r => .fault r
  | .refused r => .refused r

theorem answerWithFlags_next (fl : Half) (t : State) : answerWithFlags fl (.next t) = .next (t.withFlags fl) := rfl

/-- `fl` gives the fields `LOSSY`, `GPSP` and `TAGP` of `H.FLAGS` the values that they have in `s`. -/
structure State.ReadsFlagsAlike (s : State) (fl : Half) : Prop where
  lossy_eq : (s.withFlags fl).h.lossy = s.h.lossy
  gpsp_eq : (s.withFlags fl).h.gpsp = s.h.gpsp
  tagp_eq : (s.withFlags fl).h.tagp = s.h.tagp

section
variable (s : State) (fl : Half)

theorem State.withFlags_chan : (s.withFlags fl).chan = s.chan := rfl

theorem fetch_withFlags : fetch (s.withFlags fl) = fetch s := rfl

theorem State.withFlags_enterFrames : s.enterFrames.withFlags fl = (s.withFlags fl).enterFrames :=
  apply_ite (State.withFlags fl) _ _ _

theorem State.withFlags_afterSeekSkip : s.afterSeekSkip.withFlags fl = (s.withFlags fl).afterSeekSkip :=
  apply_ite (State.withFlags fl) _ _ _

theorem State.withFlags_afterFrk : s.afterFrk.withFlags fl = (s.withFlags fl).afterFrk :=
  apply_ite (State.withFlags fl) _ _ _

theorem State.withFlags_afterSlot : s.afterSlot.withFlags fl = (s.withFlags fl).afterSlot := by
  simp only [State.afterSlot, apply_ite (State.withFlags fl)]
  rfl

theorem State.withFlags_afterEmit : s.afterEmit.withFlags fl = (s.withFlags fl).afterEmit :=
  apply_ite (State.withFlags fl) _ _ _

end

namespace State.ReadsFlagsAlike
variable {s : State} {fl : Half}

/-- `GPS` decides its successor by `TAGP`. -/
theorem afterGps (h : s.ReadsFlagsAlike fl) : s.afterGps.withFlags fl = (s.withFlags fl).afterGps := by
  simp only [State.afterGps, h.tagp_eq, apply_ite (State.withFlags fl), State.withFlags_enterFrames]
  rfl

/-- `BIDX` decides its successor by `GPSP` and `TAGP`. -/
theorem afterBidx (h : s.ReadsFlagsAlike fl) : s.afterBidx.withFlags fl = (s.withFlags fl).afterBidx := by
  have hdue : gpsDue (s.withFlags fl).h (s.withFlags fl).expect = gpsDue s.h s.expect :=
    congrArg (· && decide (cadence s.h s.expect = 0)) h.gpsp_eq
  simp only [State.afterBidx, hdue, h.tagp_eq, apply_ite (State.withFlags fl), State.withFlags_enterFrames]
  rfl

/-- `EMIT` rescales by `LOSSY`. -/
theorem emitted (h : s.ReadsFlagsAlike fl) : (s.withFlags fl).emitted = s.emitted := by
  simp only [State.emitted, h.lossy_eq]
  rfl

/-- No instruction but `HDR` writes `H.FLAGS`, and where one reads it, it reads the three fields that agree. -/
theorem exec_eq (h : s.ReadsFlagsAlike fl) {i : Instr} (hi : ∀ f, i ≠ .hdr f) :
    exec i (s.withFlags fl) = answerWithFlags fl (exec i s) := by
  cases i with
  | hdr f => exact absurd rfl (hi f)
  | rdbits | rdunary | skipb | bsync | bend =>
    simp only [exec, execRdbits, execRdunary, execSkipb, execBsync, execBend, apply_ite (answerWithFlags fl)]
    rfl
  | seekskip =>
    simp only [exec, execSeekskip, apply_ite (answerWithFlags fl), answerWithFlags_next,
      State.withFlags_afterSeekSkip]
    rfl
  | bidx x =>
    have hnext : (s.advance 32).ReadsFlagsAlike fl := { h with }
    simp only [exec, execBidx, apply_ite (answerWithFlags fl), answerWithFlags_next, hnext.afterBidx]
    rfl
  | gps a o =>
    have hnext : ((s.advance 51).captureGps (sext 25 a.toNat) (sext 26 o.toNat)).ReadsFlagsAlike fl := { h with }
    simp only [exec, execGps, apply_ite (answerWithFlags fl), answerWithFlags_next, hnext.afterGps]
    rfl
  | tag g =>
    simp only [exec, execTag, apply_ite (answerWithFlags fl), answerWithFlags_next, State.withFlags_enterFrames]
    rfl
  | frk | delta | zdelta =>
    simp only [exec, execFrk, execDelta, execZdelta, State.withFlags_chan]
    cases s.chan with
    | none => rfl
    | some c =>
      simp only [apply_ite (answerWithFlags fl), answerWithFlags_next, State.withFlags_afterFrk,
        State.withFlags_afterSlot]
      rfl
  | emit =>
    simp only [exec, execEmit, h.emitted, answerWithFlags_next, State.withFlags_afterEmit]
    rfl
  | halt => rfl

theorem step_eq (h : s.ReadsFlagsAlike fl) (hphase : s.phase ≠ .header) :
    step (s.withFlags fl) = answerWithFlags fl (step s) := by
  unfold step
  rw [fetch_withFlags]
  cases hfetch : fetch s with
  | next i =>
    refine h.exec_eq ?_
    rintro f rfl
    exact hphase (selectedIn_of_fetch hfetch)
  | fault r => rfl
  | refused r => rfl

end State.ReadsFlagsAlike

/-! ### The statements -/

/-- Settles O44: outside `HEADER` a step reads `LOSSY`, `GPSP` and `TAGP` of the flags and nothing else. -/
theorem triggeredFlagChangesNothing : Obligations.TriggeredFlagChangesNothing := by
  unfold Obligations.TriggeredFlagChangesNothing
  intro s t fl hphase hlossy hgpsp htagp hstep
  have halike : s.ReadsFlagsAlike fl := ⟨hlossy, hgpsp, htagp⟩
  calc step (s.withFlags fl)
      = answerWithFlags fl (step s) := halike.step_eq hphase
    _ = .next (t.withFlags fl) := by rw [hstep, answerWithFlags_next]

/-- Settles O15: the branches of the statement are those of `headerFault`, behind the check of the extent. -/
theorem hdrParsesAndValidatesTheHeader : Obligations.HdrParsesAndValidatesTheHeader := by
  unfold Obligations.HdrParsesAndValidatesTheHeader
  refine ⟨fun f s hlack => State.ite_lacks_of_short hlack, fun f s hfit => ?_, fun s hphase => ?_⟩
  · split_ifs with hmagic hversion hchannels hseek
    · exact exec_hdr_of_fault hfit (if_pos hmagic)
    · exact exec_hdr_of_fault hfit ((if_neg hmagic).trans (if_pos hversion))
    · exact exec_hdr_of_fault hfit ((if_neg hmagic).trans ((if_neg hversion).trans (if_pos hchannels)))
    · exact exec_hdr_of_fault hfit
        ((if_neg hmagic).trans ((if_neg hversion).trans ((if_neg hchannels).trans (if_pos hseek))))
    · exact exec_hdr_of_accepted hfit
        ((if_neg hmagic).trans ((if_neg hversion).trans ((if_neg hchannels).trans (if_neg hseek))))
  · exact ⟨decodeHeader s.bitsHere, State.fetch_hdr hphase, s.toNat_field 0 32, s.toNat_field 32 8,
      s.toNat_field 40 8, s.toNat_field 48 16, s.toNat_field 64 16, s.toNat_field 80 16, s.toNat_field 96 32,
      s.toNat_field 128 32, s.toNat_field 160 16, s.toNat_field 176 16⟩

/-- Settles O16: no check fails exactly on the accepted headers, and each check is a FormatError. -/
theorem hdrAcceptsExactlyTheValidHeaders : Obligations.HdrAcceptsExactlyTheValidHeaders := by
  unfold Obligations.HdrAcceptsExactlyTheValidHeaders
  intro f s hfit
  refine ⟨fun hok => exec_hdr_of_accepted hfit (headerFault_eq_none.mpr hok), fun hbad => ?_⟩
  obtain ⟨c, hfault⟩ := Option.ne_none_iff_exists'.mp (headerFault_eq_none.not.mpr hbad)
  exact ⟨c, code_of_headerFault hfault, exec_hdr_of_fault hfit hfault⟩

/-- Settles O17: `SKIPB(4 * H.SEEKENTRIES)` passes over 32 bits an entry, and `H.TOTAL` picks the successor. -/
theorem seekskipPassesOverTheSeekTable : Obligations.SeekskipPassesOverTheSeekTable := by
  unfold Obligations.SeekskipPassesOverTheSeekTable
  intro s
  refine ⟨fun hlack => ?_, fun hfit htotal => ?_, fun hfit htotal => ?_⟩
  · rw [exec_seekskip]
    exact State.ite_lacks_of_short hlack
  · exact (exec_seekskip_of_fits hfit).trans (congrArg _ (if_neg htotal))
  · exact (exec_seekskip_of_fits hfit).trans (congrArg _ (if_pos htotal))

/-- Settles O20: the free value only decides whether a fix is due, and both answers have a successor; that the divisor
is 0 is used nowhere. -/
theorem bidxGoesOnWhereTheCadenceHasNoValue : Obligations.BidxGoesOnWhereTheCadenceHasNoValue := by
  unfold Obligations.BidxGoesOnWhereTheCadenceHasNoValue
  intro s hfit _ _
  rw [exec_bidx_expect hfit]
  obtain ⟨-, heq⟩ | ⟨-, htag, heq⟩ | ⟨-, htag, heq⟩ := (s.advance 32).afterBidx_cases
  · exact .inl (congrArg _ heq)
  · exact .inr ((congrArg _ heq).trans (if_pos htag).symm)
  · exact .inr ((congrArg _ heq).trans (if_neg (ne_true_of_eq_false htag)).symm)

end Sys2Proof.Machine
end

section
/-! PROOFS. The block layer (42_block.md R162 to R166) and the words that the spec writes out: O7, O18, O19, O22, O23.
An element's phase fixes the field that is fetched, and behind the check of its extent each meaning is its own test. -/

namespace Sys2Proof.Machine

/-! ### A word as an encoding (30_encoding.md R92) -/

/-- A word of exactly the bits of a well-formed instruction's encoding decodes to that instruction. -/
theorem decode_word {cx : Ctx} (i : Instr) {word : List Bool} (hwf : i.wellFormed cx = true)
    (hword : encode cx i = word) : decode cx i.op (bitsOf word) word.length = .ok i := by
  have h := decodingAnEncodedInstructionGivesItBack cx i [] hwf
  rwa [List.append_nil, hword] at h

/-! ### The element that a phase of the block selects (45_sequencer.md R211) -/

section
variable {s : State}

theorem fetch_of_phase {ph : Phase} {i : Instr} (hphase : s.phase = ph) (hnot : ph ≠ .frameDelta)
    (hdecode : decode s.ctx (select ph s.width) s.bitsHere s.bitsLeft = .ok i) : fetch s = .next i := by
  subst hphase
  exact fetch_of_decode (fun h => absurd h hnot) hdecode

theorem fetch_bsync (hphase : s.phase = .blockSync) :
    fetch s = .next (.bsync (BitVec.ofNat 32 (memRead s.inp.bit s.pos 32))) := by
  refine fetch_of_phase hphase (by decide) ?_
  simp only [select, decode, State.memRead_bitsHere, Nat.add_zero]

theorem fetch_bidx (hphase : s.phase = .blockIndex) :
    fetch s = .next (.bidx (BitVec.ofNat 32 (memRead s.inp.bit s.pos 32))) := by
  refine fetch_of_phase hphase (by decide) ?_
  simp only [select, decode, State.memRead_bitsHere, Nat.add_zero]

theorem fetch_gps (hphase : s.phase = .blockGps) :
    fetch s = .next (.gps (BitVec.ofNat 25 (memRead s.inp.bit s.pos 25))
      (BitVec.ofNat 26 (memRead s.inp.bit (s.pos + 25) 26))) := by
  refine fetch_of_phase hphase (by decide) ?_
  simp only [select, decode, State.memRead_bitsHere, Nat.add_zero]

theorem fetch_tag (hphase : s.phase = .blockTag) :
    fetch s = .next (.tag (BitVec.ofNat 4 (memRead s.inp.bit s.pos 4))) := by
  refine fetch_of_phase hphase (by decide) ?_
  simp only [select, decode, State.memRead_bitsHere, Nat.add_zero]

end

/-! ### The successors of `BIDX` and `GPS` (45_sequencer.md R216, R217) -/

/-- With a divisor the cadence of 42_block.md R166 is the remainder. -/
theorem gpsDue_iff {h : Header} {expect : Word} (hseek : h.seekSize ≠ 0#16) :
    gpsDue h expect = true ↔ h.gpsp = true ∧ expect.toNat % h.seekSize.toNat = 0 := by
  rw [gpsDue, cadence, if_neg hseek, Bool.and_eq_true, decide_eq_true_iff]

theorem gpsDue_of_no_gps {h : Header} {expect : Word} (hgps : h.gpsp = false) : ¬ gpsDue h expect = true := by
  simp [gpsDue, hgps]

/-- Where no fix is due `BIDX` goes on as `GPS` does. -/
theorem State.afterBidx_of_not_due {s : State} (hdue : ¬ gpsDue s.h s.expect = true) : s.afterBidx = s.afterGps :=
  if_neg hdue

theorem State.next_afterGps (s : State) :
    (.next s.afterGps : Result) =
      if s.h.tagp = true then .next { s with phase := .blockTag } else .next s.enterFrames :=
  apply_ite _ _ _ _

/-! ### The coordinates of a fix -/

/-- The model's sign extension of a register is its two's-complement value (00_scope.md R10). -/
theorem sext_toNat {n : Nat} (hn : 0 < n) (x : BitVec n) : sext n x.toNat = x.toInt := by
  have hhalf : x.toNat < 2 ^ (n - 1) ↔ 2 * x.toNat < 2 ^ n := by
    rw [← Nat.two_pow_pred_mul_two hn]
    omega
  simp only [sext, BitVec.toInt, hhalf, Nat.cast_pow, Nat.cast_ofNat]

/-! ### The statements -/

/-- Settles O7: each of the five words is the encoding of the instruction that the spec names for it. -/
theorem wordsOfTheSpecDecodeAsItSays : Obligations.WordsOfTheSpecDecodeAsItSays := by
  unfold Obligations.WordsOfTheSpecDecodeAsItSays
  exact ⟨decode_word (.tag 2#4) rfl rfl, decode_word (.frk 2#4) rfl rfl, decode_word (.delta 1 2) rfl rfl,
    decode_word (.delta 1 2) rfl rfl, decode_word (.rdbits 3 5) rfl rfl⟩

/-- Settles O18: the extent is checked before the pattern. -/
theorem bsyncChecksThePattern : Obligations.BsyncChecksThePattern := by
  unfold Obligations.BsyncChecksThePattern
  refine ⟨fun p s => ⟨fun hlack => ?_, fun hfit hbad => ?_, fun hfit hgood => ?_⟩, fun s => fetch_bsync⟩
  · exact State.ite_lacks_of_short hlack
  · exact (State.ite_lacks_of_fits hfit).trans (if_pos hbad)
  · exact (State.ite_lacks_of_fits hfit).trans (if_neg (not_not.mpr hgood))

/-- Settles O19: an index that is `EXPECT` leaves the choice to `gpsDue`, which a missing flag or a remainder that is
not 0 turns off. -/
theorem bidxChecksTheIndexAndPicksTheSuccessor : Obligations.BidxChecksTheIndexAndPicksTheSuccessor := by
  unfold Obligations.BidxChecksTheIndexAndPicksTheSuccessor
  refine ⟨fun x s => ⟨fun hlack => ?_, fun hfit hbad => ?_, ?_, ?_⟩, fun s => fetch_bidx⟩
  · exact State.ite_lacks_of_short hlack
  · exact (State.ite_lacks_of_fits hfit).trans (if_pos hbad)
  · rintro hfit rfl hgps hseek hcadence
    exact (exec_bidx_expect hfit).trans (congrArg _ (if_pos ((gpsDue_iff hseek).mpr ⟨hgps, hcadence⟩)))
  · rintro hfit rfl hoff
    have hdue : ¬ gpsDue s.h s.expect = true := by
      obtain hgps | ⟨hseek, hcadence⟩ := hoff
      · exact gpsDue_of_no_gps hgps
      · rw [gpsDue_iff hseek]
        exact not_and_of_not_right _ hcadence
    have hnext : (s.advance 32).afterBidx = (s.advance 32).afterGps := State.afterBidx_of_not_due hdue
    rw [exec_bidx_expect hfit, hnext]
    exact State.next_afterGps _

/-- Settles O22: nothing is captured before the 51 bits are known to be there, and the two fields are captured as the
two's-complement integers they hold. -/
theorem gpsCapturesAndRecordsTheFix : Obligations.GpsCapturesAndRecordsTheFix := by
  unfold Obligations.GpsCapturesAndRecordsTheFix
  refine ⟨fun a o s => ⟨fun hlack => ?_, ?_⟩, fun s => fetch_gps⟩
  · exact State.ite_lacks_of_short hlack
  · rintro hfit u rfl
    have hexec : exec (.gps a o) s =
        .next ((s.advance 51).captureGps (sext 25 a.toNat) (sext 26 o.toNat)).afterGps :=
      State.ite_lacks_of_fits hfit
    rw [hexec, sext_toNat (by decide), sext_toNat (by decide)]
    exact State.next_afterGps _

/-- Settles O23: a nibble whose four bits are there is captured whatever its value. -/
theorem tagCapturesAndRecordsTheNibble : Obligations.TagCapturesAndRecordsTheNibble := by
  unfold Obligations.TagCapturesAndRecordsTheNibble
  exact ⟨fun g s => ⟨fun hlack => State.ite_lacks_of_short hlack, fun hfit => State.ite_lacks_of_fits hfit⟩,
    fun s => fetch_tag⟩

end Sys2Proof.Machine
end

section
/-! PROOFS. The elements of a frame, one at a time (43_frame.md R181 to R187): O24, O26, O27, O30. Behind the check of
its extent each meaning is one update of its own channel; the zigzag mapping has an inverse. -/

namespace Sys2Proof.Machine

/-! ### Magnitude and zigzag (43_frame.md R182) -/

theorem zigzag_of_even {m : Nat} (h : m % 2 = 0) : zigzag m = (m : Int) / 2 := if_pos h

theorem zigzag_of_odd {m : Nat} (h : m % 2 = 1) : zigzag m = -(((m : Int) + 1) / 2) :=
  if_neg (by omega)

/-- The two cases of R182 determine the delta. -/
theorem eq_zigzag {m : Nat} {d : Int} (heven : m % 2 = 0 → d = (m : Int) / 2)
    (hodd : m % 2 = 1 → d = -(((m : Int) + 1) / 2)) : d = zigzag m := by
  rcases Nat.mod_two_eq_zero_or_one m with h | h
  · rw [heven h, zigzag_of_even h]
  · rw [hodd h, zigzag_of_odd h]

theorem unzigzag_of_nonneg {d : Int} (h : 0 ≤ d) : unzigzag d = (2 * d).toNat := if_pos h

theorem unzigzag_of_neg {d : Int} (h : d < 0) : unzigzag d = (-2 * d - 1).toNat := if_neg h.not_ge

@[simp] theorem zigzag_unzigzag (d : Int) : zigzag (unzigzag d) = d := by
  rcases lt_or_ge d 0 with h | h
  · rw [unzigzag_of_neg h, zigzag_of_odd (by omega)]
    omega
  · rw [unzigzag_of_nonneg h, zigzag_of_even (by omega)]
    omega

@[simp] theorem unzigzag_zigzag (m : Nat) : unzigzag (zigzag m) = m := by
  rcases Nat.mod_two_eq_zero_or_one m with h | h
  · rw [zigzag_of_even h, unzigzag_of_nonneg (by omega)]
    omega
  · rw [zigzag_of_odd h, unzigzag_of_neg (by omega)]
    omega

/-- Settles O30: `unzigzag` is the inverse, and the two codes of the statement are its two branches. -/
theorem zigzagIsABijectionOntoTheIntegers : Obligations.ZigzagIsABijectionOntoTheIntegers := by
  unfold Obligations.ZigzagIsABijectionOntoTheIntegers
  refine ⟨fun q k r => rfl, fun m => ⟨zigzag_of_even, zigzag_of_odd⟩, fun d => ⟨fun h => ?_, fun h => ?_⟩, ?_⟩
  · rw [← unzigzag_of_nonneg h, zigzag_unzigzag]
  · rw [← unzigzag_of_neg h, zigzag_unzigzag]
  · exact Function.bijective_iff_has_inverse.mpr ⟨unzigzag, unzigzag_zigzag, zigzag_unzigzag⟩

/-! ### The meanings for the channel that `CH` names -/

section
variable {s : State} {c : Chan}

theorem exec_frk_of_chan (hc : s.chan = some c) (k : Nibble) :
    exec (.frk k) s =
      if s.lacks 4 then .next (s.takeFault .eos)
      else .next { (s.advance 4).setK c k with stUzero := s.stUzero || marksZeroFrame k }.afterFrk := by
  simp only [exec, execFrk, hc]

/-- What a slot of the frame leaves before its successor: `n` bits are consumed, and `sum`, wrapped, is the accumulator
and the sample of the channel `c` at `SPOS` (43_frame.md R183, R187). -/
def State.fillSlot (s : State) (c : Chan) (n : Nat) (sum : Int) : State :=
  (((s.advance n).noteOvf (sumOverflows sum)).setAcc c (wrap32 sum)).writeFb c (wrap32 sum)

theorem State.fillSlot_c0 (s : State) (n : Nat) (sum : Int) :
    s.fillSlot .c0 n sum =
      { s with
        pos := s.pos + n
        acc0 := BitVec.ofInt 32 sum
        fb0 := insertEntry s.spos.toNat (BitVec.ofInt 32 sum) s.fb0
        stOvf := s.stOvf || decide (sum < -2 ^ 31 ∨ sum > 2 ^ 31 - 1) } := rfl

theorem State.fillSlot_c1 (s : State) (n : Nat) (sum : Int) :
    s.fillSlot .c1 n sum =
      { s with
        pos := s.pos + n
        acc1 := BitVec.ofInt 32 sum
        fb1 := insertEntry s.spos.toNat (BitVec.ofInt 32 sum) s.fb1
        stOvf := s.stOvf || decide (sum < -2 ^ 31 ∨ sum > 2 ^ 31 - 1) } := rfl

theorem exec_delta_of_chan (hc : s.chan = some c) (hk : s.k c ≠ 0#4) (q r : Nat) :
    exec (.delta q r) s =
      if s.lacks (q + 1 + (s.k c).toNat) then .next (s.takeFault .eos)
      else .next (s.fillSlot c (q + 1 + (s.k c).toNat)
        ((s.acc c).toInt + zigzag (magnitude q (s.k c).toNat r))).afterSlot := by
  have hwidth : (s.k c).toNat ≠ 0 := fun h => hk (BitVec.eq_of_toNat_eq h)
  simp only [exec, execDelta, hc, if_neg hwidth, State.fillSlot]

theorem exec_zdelta_of_chan (hc : s.chan = some c) : exec .zdelta s = .next (s.writeFb c (s.acc c)).afterSlot := by
  simp only [exec, execZdelta, hc]

/-! ### The element that the phase selects and its fields (45_sequencer.md R211) -/

theorem State.width_of_chan (hc : s.chan = some c) : s.width = s.k c := by
  simp only [State.width, hc]

theorem fetch_frk (hphase : s.phase = .frameK) :
    fetch s = .next (.frk (BitVec.ofNat 4 (memRead s.inp.bit s.pos 4))) := by
  refine fetch_of_phase hphase (by decide) ?_
  simp only [select, decode, State.memRead_bitsHere, Nat.add_zero]

theorem fetch_delta {q : Nat} (hphase : s.phase = .frameDelta) (hc : s.chan = some c) (hk : s.k c ≠ 0#4)
    (hq : unaryRun s.params.stopBit s.bitsHere 0 s.bitsLeft = q) :
    fetch s = .next (.delta q (memRead s.inp.bit (s.pos + q + 1) (s.k c).toNat)) := by
  refine fetch_of_decode (fun _ => by simp [hc]) ?_
  have hstop : s.ctx.stopBit = s.params.stopBit := rfl
  simp only [hphase, select, State.width_of_chan hc, if_neg hk, decode, State.ctx_k_of_chan hc, hstop, hq,
    State.memRead_bitsHere, Nat.add_assoc]

/-- Where the stream has no stop bit left the codeword does not fit. -/
theorem step_delta_of_no_stop (hphase : s.phase = .frameDelta) (hc : s.chan = some c) (hk : s.k c ≠ 0#4)
    (hcontinue : ∀ j, s.pos + j < s.inp.bitLength → s.inp.bit (s.pos + j) ≠ s.params.stopBit) :
    step s = .next (s.takeFault .eos) := by
  have hfetch := fetch_delta hphase hc hk (State.unaryRun_bitsHere_of_no_stop hcontinue)
  rw [step_of_fetch hfetch, exec_delta_of_chan hc hk]
  exact State.ite_lacks_of_short (State.short_of_bitsLeft_lt (by omega))

end

/-- The two outcomes of `DELTA` for the channel `CH`, with the arithmetic of R182 given by its cases. -/
theorem exec_delta_outcomes {s : State} {c : Chan} (hc : s.chan = some c) (hk : s.k c ≠ 0#4) {q r m : Nat} {d sum : Int}
    (hm : m = q * 2 ^ (s.k c).toNat + r) (heven : m % 2 = 0 → d = (m : Int) / 2)
    (hodd : m % 2 = 1 → d = -(((m : Int) + 1) / 2)) (hsum : sum = (s.acc c).toInt + d) :
    (s.inp.bitLength < s.pos + q + 1 + (s.k c).toNat → exec (.delta q r) s = .next (s.takeFault .eos)) ∧
      (s.pos + q + 1 + (s.k c).toNat ≤ s.inp.bitLength →
        exec (.delta q r) s = .next (s.fillSlot c (q + 1 + (s.k c).toNat) sum).afterSlot) := by
  have hvalue : (s.acc c).toInt + zigzag (magnitude q (s.k c).toNat r) = sum := by
    rw [hsum, eq_zigzag heven hodd, hm, magnitude]
  rw [exec_delta_of_chan hc hk, hvalue]
  exact ⟨fun hlack => State.ite_lacks_of_short (by omega), fun hfit => State.ite_lacks_of_fits (by omega)⟩

/-! ### The statements -/

/-- Settles O24: the extent is checked first, and every nibble is a width. -/
theorem frkReadsOneRemainderWidth : Obligations.FrkReadsOneRemainderWidth := by
  unfold Obligations.FrkReadsOneRemainderWidth
  refine ⟨fun k s => ⟨fun hch hlack => ?_, fun hch hfit => ?_, fun hch hfit => ?_⟩, fun s => fetch_frk⟩
  · obtain ⟨c, hc⟩ : ∃ c, s.chan = some c := hch.elim
      (fun h => ⟨.c0, State.chan_eq_c0.mpr h⟩) (fun h => ⟨.c1, State.chan_eq_c1.mpr h⟩)
    rw [exec_frk_of_chan hc]
    exact State.ite_lacks_of_short hlack
  · rw [exec_frk_of_chan (State.chan_eq_c0.mpr hch)]
    exact State.ite_lacks_of_fits hfit
  · rw [exec_frk_of_chan (State.chan_eq_c1.mpr hch)]
    exact State.ite_lacks_of_fits hfit

/-- Settles O27: the sample is the accumulator, and the write goes to the channel's own buffer. -/
theorem zdeltaRepeatsTheAccumulator : Obligations.ZdeltaRepeatsTheAccumulator := by
  unfold Obligations.ZdeltaRepeatsTheAccumulator
  intro s
  exact ⟨fun hch => exec_zdelta_of_chan (State.chan_eq_c0.mpr hch),
    fun hch => exec_zdelta_of_chan (State.chan_eq_c1.mpr hch)⟩

/-- Settles O26: the sum goes to the channel's own accumulator and buffer, and the codeword performed is the one
whose unary count starts at `POS`. -/
theorem deltaAddsTheDecodedDelta : Obligations.DeltaAddsTheDecodedDelta := by
  unfold Obligations.DeltaAddsTheDecodedDelta
  refine ⟨fun q r m d sum s hch hk hm heven hodd hsum => ?_, fun q r m d sum s hch hk hm heven hodd hsum => ?_,
    fun s c hphase hc hk => ⟨fun q hcontinue hinside hstop => ?_, step_delta_of_no_stop hphase hc hk⟩⟩
  · obtain ⟨hshort, hfits⟩ := exec_delta_outcomes (State.chan_eq_c0.mpr hch) hk hm heven hodd hsum
    rw [State.fillSlot_c0, ← Nat.add_assoc, ← Nat.add_assoc] at hfits
    exact ⟨hshort, hfits⟩
  · obtain ⟨hshort, hfits⟩ := exec_delta_outcomes (State.chan_eq_c1.mpr hch) hk hm heven hodd hsum
    rw [State.fillSlot_c1, ← Nat.add_assoc, ← Nat.add_assoc] at hfits
    exact ⟨hshort, hfits⟩
  · exact fetch_delta hphase hc hk (State.unaryRun_bitsHere_of_stop hcontinue hinside hstop)

end Sys2Proof.Machine
end

section
/-! PROOFS. The frames (43_frame.md R181 to R187; 45_sequencer.md R220): O53, O54, O55. A slot adds one delta to its
channel, whatever its width: a zero frame's slot is the delta 0 carried by no bit. `Decoded` says what the deltas of a
frame leave behind, and each slot extends it by one delta. -/

namespace Sys2Proof.Machine

/-! ### Runs in parts -/

theorem runFrom_add {m n : Nat} {s t : State} (hrun : runFrom m s = .next t) : runFrom (m + n) s = runFrom n t := by
  induction m generalizing s with
  | zero =>
    cases hrun
    rw [Nat.zero_add]
  | succ m ih =>
    obtain ⟨u, hstep, hrest⟩ := exists_step_of_runFrom_succ hrun
    rw [Nat.add_right_comm, runFrom_succ_of_step hstep, ih hrest]

theorem runFrom_one {s t : State} (hstep : step s = .next t) : runFrom 1 s = .next t := runFrom_succ_of_step hstep 0

theorem runFrom_snoc {n : Nat} {s t u : State} (hrun : runFrom n s = .next t) (hstep : step t = .next u) :
    runFrom (n + 1) s = .next u :=
  (runFrom_add hrun).trans (runFrom_one hstep)

/-! ### The bits that a stream holds -/

theorem holds_iff_spells {m : Memory} {p : Nat} {l : List Bool} :
    Holds m p l ↔ p + l.length ≤ m.bitLength ∧ Spells m.bit p l := Iff.rfl

theorem holds_append {m : Memory} {p : Nat} {a b : List Bool} :
    Holds m p (a ++ b) ↔ Holds m p a ∧ Holds m (p + a.length) b := by
  simp only [holds_iff_spells, spells_append, List.length_append]
  constructor
  · rintro ⟨hfit, ha, hb⟩
    exact ⟨⟨by omega, ha⟩, by omega, hb⟩
  · rintro ⟨⟨-, ha⟩, hfit, hb⟩
    exact ⟨by omega, ha, hb⟩

theorem pos_add_length_le_of_holds {s : State} {i : Instr} (hholds : Holds s.inp s.pos (encode s.ctx i)) :
    s.pos + i.length s.ctx ≤ s.inp.bitLength :=
  encode_length s.ctx i ▸ hholds.1

/-- The selected element whose encoding the stream holds at `POS` is performed (45_sequencer.md R210). -/
theorem step_of_holds {s : State} {i : Instr} (hop : i.op = select s.phase s.width)
    (hwf : i.wellFormed s.ctx = true) (hchan : s.phase = .frameDelta → s.chan ≠ none)
    (hholds : Holds s.inp s.pos (encode s.ctx i)) : step s = exec i s := by
  have hlength : i.length s.ctx ≤ s.bitsLeft := Nat.le_sub_of_add_le' (pos_add_length_le_of_holds hholds)
  have hspells : Spells s.bitsHere 0 (encode s.ctx i) := fun j hj => by
    rw [Nat.zero_add]
    exact hholds.2 j hj
  apply step_of_fetch
  apply fetch_of_decode hchan
  rw [← hop]
  exact (decode_eq_ok_iff hlength).mpr ⟨hwf, fun _ => hspells⟩

/-- The stream holds the bits `l` at `p`, where there are any: the place of no bits is not examined. -/
def Supplies (m : Memory) (p : Nat) (l : List Bool) : Prop := l ≠ [] → Holds m p l

theorem Supplies.append {m : Memory} {p : Nat} {a b : List Bool} (h : Supplies m p (a ++ b)) :
    Supplies m p a ∧ Supplies m (p + a.length) b :=
  ⟨fun ha => (holds_append.mp (h (List.append_ne_nil_of_left_ne_nil ha b))).1,
    fun hb => (holds_append.mp (h (List.append_ne_nil_of_right_ne_nil a hb))).2⟩

/-! ### One slot -/

/-- The bits of a slot of the channel `c` that carries the delta `d`: a codeword, and nothing in a zero frame. -/
def State.slotBits (s : State) (c : Chan) (d : Int) : List Bool :=
  if s.k c = 0#4 then [] else codeword s.params.stopBit (s.k c) d

section
variable {s : State} {c : Chan} {d : Int}

theorem State.slotBits_of_zero (hk : s.k c = 0#4) : s.slotBits c d = [] := if_pos hk

theorem State.slotBits_of_ne (hk : s.k c ≠ 0#4) : s.slotBits c d = codeword s.params.stopBit (s.k c) d := if_neg hk

theorem codeword_ne_nil (stop : Bool) (k : Nibble) (d : Int) : codeword stop k d ≠ [] := by
  simp [codeword, encode, unaryBits]

theorem length_codeword (stop : Bool) (k : Nibble) (d : Int) :
    (codeword stop k d).length = unzigzag d / 2 ^ k.toNat + 1 + k.toNat :=
  encode_length _ _

@[simp] theorem magnitude_div_mod (m k : Nat) : magnitude (m / 2 ^ k) k (m % 2 ^ k) = m := Nat.div_add_mod' m (2 ^ k)

@[simp] theorem sumOverflows_toInt (w : Word) : sumOverflows w.toInt = false := by
  have hlow := w.le_toInt
  have hhigh := w.toInt_lt
  exact decide_eq_false (by omega)

/-- A slot of a zero frame adds 0 and consumes nothing. -/
theorem State.writeFb_acc (s : State) (c : Chan) : s.writeFb c (s.acc c) = s.fillSlot c 0 (s.acc c).toInt := by
  unfold State.fillSlot
  rw [sumOverflows_toInt, wrap32_toInt]
  cases c <;> simp [State.writeFb, State.setAcc, State.noteOvf, State.advance, State.acc]

theorem fetch_zdelta (hphase : s.phase = .frameDelta) (hc : s.chan = some c) (hk : s.k c = 0#4) :
    fetch s = .next .zdelta := by
  refine fetch_of_decode (fun _ => by simp [hc]) ?_
  simp only [hphase, select, State.width_of_chan hc, if_pos hk, decode]

theorem step_delta_of_holds {q r : Nat} (hphase : s.phase = .frameDelta) (hc : s.chan = some c) (hk : s.k c ≠ 0#4)
    (hr : r < 2 ^ (s.k c).toNat) (hholds : Holds s.inp s.pos (encode s.ctx (.delta q r))) :
    step s = .next (s.fillSlot c (q + 1 + (s.k c).toNat)
      ((s.acc c).toInt + zigzag (magnitude q (s.k c).toNat r))).afterSlot := by
  have hop : Op.delta = select s.phase s.width := by rw [hphase, State.width_of_chan hc, select, if_neg hk]
  have hwf : (Instr.delta q r).wellFormed s.ctx = true := by simp [Instr.wellFormed, State.ctx_k_of_chan hc, hk, hr]
  have hfit : s.pos + (q + 1 + (s.k c).toNat) ≤ s.inp.bitLength :=
    State.ctx_k_of_chan hc ▸ pos_add_length_le_of_holds hholds
  rw [step_of_holds (i := .delta q r) hop hwf (fun _ => by simp [hc]) hholds, exec_delta_of_chan hc hk]
  exact State.ite_lacks_of_fits hfit

/-- A step in `FRAME_DELTA` adds the delta that its slot carries. -/
theorem step_slot (hphase : s.phase = .frameDelta) (hc : s.chan = some c) (hzero : s.k c = 0#4 → d = 0)
    (hbits : Supplies s.inp s.pos (s.slotBits c d)) :
    step s = .next (s.fillSlot c (s.slotBits c d).length ((s.acc c).toInt + d)).afterSlot := by
  by_cases hk : s.k c = 0#4
  · rw [step_of_fetch (fetch_zdelta hphase hc hk), exec_zdelta_of_chan hc, State.writeFb_acc,
      State.slotBits_of_zero hk, hzero hk, Int.add_zero, List.length_nil]
  · rw [State.slotBits_of_ne hk] at hbits ⊢
    have hholds : Holds s.inp s.pos
        (encode s.ctx (.delta (unzigzag d / 2 ^ (s.k c).toNat) (unzigzag d % 2 ^ (s.k c).toNat))) := by
      have hcodeword := hbits (codeword_ne_nil _ _ _)
      rw [← State.ctx_k_of_chan hc] at hcodeword ⊢
      exact hcodeword
    rw [step_delta_of_holds hphase hc hk (Nat.mod_lt _ (Nat.two_pow_pos _)) hholds, magnitude_div_mod, zigzag_unzigzag,
      length_codeword]

end

/-! ### What the deltas of a frame leave behind -/

/-- The state without what the slots of a frame write. -/
def State.outsideFrame (s : State) : State :=
  { s with
    acc0 := 0#32
    acc1 := 0#32
    pos := 0
    phase := .frameDelta
    spos := 0#16
    ch := 0#2
    stOvf := false
    fb0 := []
    fb1 := [] }

theorem State.outsideFrame_fillSlot (s : State) (c : Chan) (n : Nat) (sum : Int) :
    (s.fillSlot c n sum).outsideFrame = s.outsideFrame := rfl

theorem State.acc_fillSlot (s : State) (c c' : Chan) (n : Nat) (sum : Int) :
    (s.fillSlot c n sum).acc c' = if c' = c then wrap32 sum else s.acc c' := by
  cases c <;> cases c' <;> rfl

theorem Chan.number_inj {c c' : Chan} : c.number = c'.number ↔ c = c' := by
  cases c <;> cases c' <;> simp [Chan.number]

theorem State.readFb_fillSlot (s : State) (c c' : Chan) (n : Nat) (sum : Int) (i : Nat) :
    (s.fillSlot c n sum).readFb c'.number i =
      if c' = c ∧ i = s.spos.toNat then wrap32 sum else s.readFb c'.number i := by
  rw [State.fillSlot, State.readFb_writeFb]
  exact if_congr (and_congr_left' Chan.number_inj) rfl rfl

/-- Only the residue of an accumulator matters for the sums that follow. -/
theorem wrap32_toInt_add (z d : Int) : wrap32 ((wrap32 z).toInt + d) = wrap32 (z + d) := by
  have hresidue := toInt_wrap32_emod z
  exact wrap32_congr (by omega)

/-- From `s`, in which a frame begins, decoding the deltas `D c` of each channel `c` out of `n` bits has led to `t`. -/
structure Decoded (s : State) (D : Chan → List Int) (n : Nat) (t : State) : Prop where
  acc : ∀ c, t.acc c = wrap32 ((s.acc c).toInt + (D c).sum)
  sample : ∀ c, ∀ i < (D c).length, t.readFb c.number i = wrap32 ((s.acc c).toInt + ((D c).take (i + 1)).sum)
  unwritten : ∀ c i, (D c).length ≤ i → t.readFb c.number i = s.readFb c.number i
  pos : t.pos = s.pos + n
  no_overflow : (∀ c, ∀ d ∈ D c, d = 0) → t.stOvf = s.stOvf
  rest : t.outsideFrame = s.outsideFrame

namespace Decoded
variable {s t : State} {D D' : Chan → List Int} {n : Nat} {c : Chan} {d : Int}

theorem refl (s : State) (hD : ∀ c, D c = []) : Decoded s D 0 s where
  acc c := by simp [hD]
  sample c i hi := by simp [hD] at hi
  unwritten _ _ _ := rfl
  pos := rfl
  no_overflow _ := rfl
  rest := rfl

theorem sequenced (h : Decoded s D n t) (ph : Phase) (spos : Half) (ch : BitVec 2) :
    Decoded s D n { t with phase := ph, spos := spos, ch := ch } := { h with }

theorem h_eq (h : Decoded s D n t) : t.h = s.h := (congrArg State.h h.rest :)

theorem inp_eq (h : Decoded s D n t) : t.inp = s.inp := (congrArg State.inp h.rest :)

theorem k_eq (h : Decoded s D n t) (c : Chan) : t.k c = s.k c := (congrArg (fun u => State.k u c) h.rest :)

theorem params_eq (h : Decoded s D n t) : t.params = s.params := (congrArg State.params h.rest :)

theorem slotBits_eq (h : Decoded s D n t) (c : Chan) (d : Int) : t.slotBits c d = s.slotBits c d := by
  rw [State.slotBits, State.slotBits, h.k_eq, h.params_eq]

/-- A slot appends its delta to its channel's and leaves the other channel's alone. -/
theorem fillSlot (h : Decoded s D n t) (hspos : t.spos.toNat = (D c).length) (hc : D' c = D c ++ [d])
    (hother : ∀ c', c' ≠ c → D' c' = D c') (m : Nat) :
    Decoded s D' (n + m) (t.fillSlot c m ((t.acc c).toInt + d)) where
  acc c' := by
    rw [State.acc_fillSlot]
    split_ifs with hcc
    · subst hcc
      rw [h.acc, wrap32_toInt_add, hc, List.sum_append, List.sum_singleton, Int.add_assoc]
    · rw [h.acc, hother c' hcc]
  sample c' i hi := by
    rw [State.readFb_fillSlot, hspos]
    by_cases hcc : c' = c
    · subst hcc
      rw [hc, List.length_append, List.length_singleton] at hi
      rcases Nat.lt_succ_iff_lt_or_eq.mp hi with hlt | rfl
      · rw [if_neg (by omega), h.sample c' i hlt, hc, List.take_append_of_le_length hlt]
      · rw [if_pos ⟨rfl, rfl⟩, h.acc, wrap32_toInt_add, hc, List.take_of_length_le (by simp), List.sum_append,
          List.sum_singleton, Int.add_assoc]
    · rw [hother c' hcc] at hi ⊢
      rw [if_neg fun heq => hcc heq.1, h.sample c' i hi]
  unwritten c' i hi := by
    rw [State.readFb_fillSlot, hspos]
    by_cases hcc : c' = c
    · subst hcc
      rw [hc, List.length_append, List.length_singleton] at hi
      rw [if_neg (by omega), h.unwritten c' i (by omega)]
    · rw [hother c' hcc] at hi
      rw [if_neg fun heq => hcc heq.1, h.unwritten c' i hi]
  pos := by
    have hpos : (t.fillSlot c m ((t.acc c).toInt + d)).pos = t.pos + m := rfl
    rw [hpos, h.pos, Nat.add_assoc]
  no_overflow hzero := by
    have hd : d = 0 := hzero c d (by simp [hc])
    have hflag : (t.fillSlot c m ((t.acc c).toInt + d)).stOvf = (t.stOvf || sumOverflows ((t.acc c).toInt + d)) := rfl
    have hbefore : t.stOvf = s.stOvf := h.no_overflow fun c' e he => by
      by_cases hcc : c' = c
      · subst hcc
        exact hzero c' e (by simp [hc, he])
      · exact hzero c' e (by rwa [hother c' hcc])
    rw [hflag, hd, Int.add_zero, sumOverflows_toInt, Bool.or_false, hbefore]
  rest := (State.outsideFrame_fillSlot _ _ _ _).trans h.rest

/-- The next step fills the slot of `CH` and `SPOS` with the delta that the stream carries there. -/
theorem step (h : Decoded s D n t) (hphase : t.phase = .frameDelta) (hchan : t.chan = some c)
    (hspos : t.spos.toNat = (D c).length) (hzero : s.k c = 0#4 → d = 0)
    (hbits : Supplies s.inp (s.pos + n) (s.slotBits c d)) (hc : D' c = D c ++ [d])
    (hother : ∀ c', c' ≠ c → D' c' = D c') :
    ∃ u, step t = .next u.afterSlot ∧ Decoded s D' (n + (s.slotBits c d).length) u ∧
      u.phase = .frameDelta ∧ u.ch = t.ch ∧ u.spos = t.spos := by
  rw [← h.inp_eq, ← h.pos, ← h.slotBits_eq] at hbits
  rw [← h.k_eq] at hzero
  exact ⟨_, step_slot hphase hchan hzero hbits, h.slotBits_eq c d ▸ h.fillSlot hspos hc hother _, hphase, rfl, rfl⟩

end Decoded

/-! ### The order of the slots (45_sequencer.md R220) -/

/-- The positions below `p` are complete and the sequencer has gone on: to the next position or, behind the last one,
to `EMIT`. -/
structure State.AtPosition (s : State) (p : Nat) : Prop where
  ch : s.ch = 0#2
  spos : s.spos.toNat = p
  phase : s.phase = if p < s.h.frameSize.toNat then .frameDelta else .frameEmit

section
variable {s : State} {p : Nat}

theorem State.afterSlot_of_second_channel (hch : s.ch = 0#2) (hchannels : s.h.channels = 2#8) :
    s.afterSlot = { s with ch := 1#2 } := by
  have hmore : (s.ch + 1#2).toNat < s.h.channels.toNat := by
    rw [hch, hchannels]
    decide
  unfold State.afterSlot
  rw [if_pos hmore, hch]
  rfl

theorem State.atPosition_afterSlot (hlast : ¬ (s.ch + 1#2).toNat < s.h.channels.toNat) (hphase : s.phase = .frameDelta)
    (hspos : s.spos.toNat = p) (hp : p < s.h.frameSize.toNat) : s.afterSlot.AtPosition (p + 1) := by
  have hnext : (s.spos + 1#16).toNat = p + 1 := by rw [toNat_succ_of_lt (hspos ▸ hp), hspos]
  obtain ⟨hmore, -⟩ | ⟨-, hin, heq⟩ | ⟨-, hend, heq⟩ := s.afterSlot_cases
  · exact absurd hmore hlast
  · rw [BitVec.lt_def, hnext] at hin
    rw [heq]
    exact ⟨rfl, hnext, hphase.trans (if_pos hin).symm⟩
  · rw [BitVec.lt_def, hnext] at hend
    rw [heq]
    exact ⟨rfl, hnext, (if_neg hend).symm⟩

theorem State.AtPosition.phase_of_lt (h : s.AtPosition p) (hp : p < s.h.frameSize.toNat) : s.phase = .frameDelta :=
  h.phase.trans (if_pos hp)

theorem State.AtPosition.phase_of_end (h : s.AtPosition s.h.frameSize.toNat) : s.phase = .frameEmit :=
  h.phase.trans (if_neg (Nat.lt_irrefl _))

/-- A frame that has a position begins at position 0. -/
theorem State.atPosition_zero (hphase : s.phase = .frameDelta) (hch : s.ch = 0#2) (hspos : s.spos = 0#16)
    (hsize : 0 < s.h.frameSize.toNat) : s.AtPosition 0 :=
  ⟨hch, by rw [hspos]; rfl, hphase.trans (if_pos hsize).symm⟩

end

theorem Decoded.afterSlot {s t : State} {D : Chan → List Int} {n : Nat} (h : Decoded s D n t) :
    Decoded s D n t.afterSlot := by
  obtain ⟨-, heq⟩ | ⟨-, -, heq⟩ | ⟨-, -, heq⟩ := t.afterSlot_cases
  all_goals
    rw [heq]
    exact h.sequenced _ _ _

/-! ### Frames -/

/-- The deltas `a` of channel 0 and `b` of channel 1. -/
def perChan (a b : List Int) : Chan → List Int
  | .c0 => a
  | .c1 => b

/-- A frame of one channel, with or without codewords, as far as its deltas go. -/
theorem exists_decoded_mono {s : State} (hstart : s.AtPosition 0) (hchannels : s.h.channels = 1#8) {ds : List Int}
    (hlength : ds.length ≤ s.h.frameSize.toNat) (hzero : s.k .c0 = 0#4 → ∀ d ∈ ds, d = 0)
    (hbits : Supplies s.inp s.pos (ds.flatMap (s.slotBits .c0))) :
    ∃ t, runFrom ds.length s = .next t ∧ t.AtPosition ds.length ∧
      Decoded s (perChan ds []) (ds.flatMap (s.slotBits .c0)).length t := by
  induction ds using List.reverseRecOn with
  | nil => exact ⟨s, rfl, hstart, .refl s fun c => by cases c <;> rfl⟩
  | append_singleton ds d ih =>
    rw [List.flatMap_append, List.flatMap_singleton] at hbits ⊢
    rw [List.length_append, List.length_singleton] at hlength ⊢
    rw [List.length_append]
    obtain ⟨hbefore, hhere⟩ := hbits.append
    obtain ⟨t, hrun, hat, ht⟩ := ih (by omega) (fun hk e he => hzero hk e (by simp [he])) hbefore
    obtain ⟨u, hstep, hu, hphase, hch, hspos⟩ := ht.step (D' := perChan (ds ++ [d]) [])
      (hat.phase_of_lt (by rw [ht.h_eq]; omega)) (State.chan_eq_c0.mpr hat.ch) hat.spos
      (fun hk => hzero hk d (by simp)) hhere rfl (fun c' hc' => by cases c' <;> trivial)
    refine ⟨_, runFrom_snoc hrun hstep, ?_, hu.afterSlot⟩
    exact State.atPosition_afterSlot (by rw [hch, hat.ch, hu.h_eq, hchannels]; decide) hphase
      (by rw [hspos, hat.spos]) (by rw [hu.h_eq]; omega)

/-- A frame of two channels, each with or without codewords, as far as its deltas go. -/
theorem exists_decoded_stereo {s : State} (hstart : s.AtPosition 0) (hchannels : s.h.channels = 2#8)
    {ds : List (Int × Int)} (hlength : ds.length ≤ s.h.frameSize.toNat)
    (hzero0 : s.k .c0 = 0#4 → ∀ d ∈ ds, d.1 = 0) (hzero1 : s.k .c1 = 0#4 → ∀ d ∈ ds, d.2 = 0)
    (hbits : Supplies s.inp s.pos (ds.flatMap fun d => s.slotBits .c0 d.1 ++ s.slotBits .c1 d.2)) :
    ∃ t, runFrom (2 * ds.length) s = .next t ∧ t.AtPosition ds.length ∧
      Decoded s (perChan (ds.map Prod.fst) (ds.map Prod.snd))
        (ds.flatMap fun d => s.slotBits .c0 d.1 ++ s.slotBits .c1 d.2).length t := by
  induction ds using List.reverseRecOn with
  | nil => exact ⟨s, rfl, hstart, .refl s fun c => by cases c <;> rfl⟩
  | append_singleton ds d ih =>
    rw [List.flatMap_append, List.flatMap_singleton] at hbits ⊢
    rw [List.length_append, List.length_singleton] at hlength ⊢
    rw [List.length_append, List.length_append, ← Nat.add_assoc, Nat.mul_add]
    obtain ⟨hbefore, hhere⟩ := hbits.append
    obtain ⟨hfirst, hsecond⟩ := hhere.append
    obtain ⟨t, hrun, hat, ht⟩ := ih (by omega) (fun hk e he => hzero0 hk e (by simp [he]))
      (fun hk e he => hzero1 hk e (by simp [he])) hbefore
    obtain ⟨u, hstep, hu, huphase, huch, huspos⟩ := ht.step
      (D' := perChan (ds.map Prod.fst ++ [d.1]) (ds.map Prod.snd))
      (hat.phase_of_lt (by rw [ht.h_eq]; omega)) (State.chan_eq_c0.mpr hat.ch)
      (by rw [hat.spos, perChan, List.length_map]) (fun hk => hzero0 hk d (by simp)) hfirst rfl
      (fun c' hc' => by cases c' <;> trivial)
    rw [State.afterSlot_of_second_channel (huch.trans hat.ch) (by rw [hu.h_eq, hchannels])] at hstep
    obtain ⟨v, hstep', hv, hvphase, (hvch : v.ch = 1#2), hvspos⟩ := (hu.sequenced u.phase u.spos 1#2).step
      (D' := perChan (ds.map Prod.fst ++ [d.1]) (ds.map Prod.snd ++ [d.2])) huphase rfl
      (by rw [perChan, List.length_map]; exact (congrArg _ huspos).trans hat.spos) (fun hk => hzero1 hk d (by simp))
      (by rwa [Nat.add_assoc] at hsecond) rfl (fun c' hc' => by cases c' <;> trivial)
    refine ⟨_, runFrom_snoc (runFrom_snoc hrun hstep) hstep', ?_, ?_⟩
    · exact State.atPosition_afterSlot (by rw [hvch, hv.h_eq, hchannels]; decide) hvphase
        (by rw [hvspos, ← hat.spos, ← huspos]) (by rw [hv.h_eq]; omega)
    · rw [List.map_append, List.map_append]
      exact hv.afterSlot

/-! ### The statements -/

theorem flatMap_slotBits {s : State} {c : Chan} (hk : s.k c ≠ 0#4) (ds : List Int) :
    ds.flatMap (s.slotBits c) = ds.flatMap (codeword s.params.stopBit (s.k c)) :=
  List.flatMap_congr fun _ _ => State.slotBits_of_ne hk

/-- Settles O53: the frame of one channel whose slots all carry a codeword. -/
theorem monoFrameDecodesToItsRunningSums : Obligations.MonoFrameDecodesToItsRunningSums := by
  unfold Obligations.MonoFrameDecodesToItsRunningSums
  intro s ds hphase hch hspos hchannels hk hlength hne hholds
  have hsize : 0 < s.h.frameSize.toNat := hlength ▸ List.length_pos_of_ne_nil hne
  have hbits := flatMap_slotBits (s := s) (c := .c0) hk ds
  obtain ⟨t, hrun, hat, ht⟩ := exists_decoded_mono (State.atPosition_zero hphase hch hspos hsize) hchannels hlength.le
    (fun h => absurd h hk) (fun _ => hbits ▸ hholds)
  rw [hlength, ← ht.h_eq] at hat
  refine ⟨t, hrun, hat.phase_of_end, hbits ▸ ht.pos, ht.acc .c0, ?_, (congrArg State.out ht.rest :), ht.sample .c0,
    fun i => ht.unwritten .c1 i (Nat.zero_le i)⟩
  calc t.acc1
      = wrap32 (s.acc1.toInt + 0) := ht.acc .c1
    _ = s.acc1 := by rw [Int.add_zero, wrap32_toInt]

/-- Settles O54: the frame of two channels whose slots all carry a codeword. -/
theorem stereoFrameKeepsTheChannelsApart : Obligations.StereoFrameKeepsTheChannelsApart := by
  unfold Obligations.StereoFrameKeepsTheChannelsApart
  intro s ds bits hphase hch hspos hchannels hk0 hk1 hlength hne hbits hholds
  have hsize : 0 < s.h.frameSize.toNat := hlength ▸ List.length_pos_of_ne_nil hne
  have hslots : (ds.flatMap fun d => s.slotBits .c0 d.1 ++ s.slotBits .c1 d.2) = bits := by
    rw [hbits]
    exact List.flatMap_congr fun d _ => congrArg₂ _ (State.slotBits_of_ne hk0) (State.slotBits_of_ne hk1)
  obtain ⟨t, hrun, hat, ht⟩ := exists_decoded_stereo (State.atPosition_zero hphase hch hspos hsize) hchannels
    hlength.le (fun h => absurd h hk0) (fun h => absurd h hk1) (fun _ => hslots ▸ hholds)
  rw [hlength, ← ht.h_eq] at hat
  refine ⟨t, hrun, hat.phase_of_end, hslots ▸ ht.pos, ht.acc .c0, ht.acc .c1, fun i hi => ⟨?_, ?_⟩⟩
  · rw [List.map_take]
    exact ht.sample .c0 i (by simpa [perChan] using hi)
  · rw [List.map_take]
    exact ht.sample .c1 i (by simpa [perChan] using hi)

/-- Settles O55: a zero frame is the frame of one channel whose deltas are all 0. -/
theorem zeroFrameRepeatsTheAccumulator : Obligations.ZeroFrameRepeatsTheAccumulator := by
  unfold Obligations.ZeroFrameRepeatsTheAccumulator
  intro s hphase hch hspos hchannels hk hsize
  have hnone : (List.replicate s.h.frameSize.toNat 0).flatMap (s.slotBits .c0) = [] :=
    List.flatMap_eq_nil_iff.mpr fun _ _ => State.slotBits_of_zero hk
  obtain ⟨t, hrun, hat, ht⟩ := exists_decoded_mono (ds := List.replicate s.h.frameSize.toNat 0)
    (State.atPosition_zero hphase hch hspos hsize) hchannels List.length_replicate.le
    (fun _ d hd => List.eq_of_mem_replicate hd) (fun hbits => absurd hnone hbits)
  rw [List.length_replicate] at hrun hat
  rw [← ht.h_eq] at hat
  have hsame : wrap32 (s.acc0.toInt + 0) = s.acc0 := by rw [Int.add_zero, wrap32_toInt]
  refine ⟨t, hrun, hat.phase_of_end, ?_, ?_, ht.no_overflow fun c d hd => ?_, fun i hi => ?_⟩
  · rw [ht.pos, hnone, List.length_nil, Nat.add_zero]
  · refine (ht.acc .c0).trans (Eq.trans ?_ hsame)
    simp [perChan, State.acc]
  · cases c with
    | c0 => exact List.eq_of_mem_replicate hd
    | c1 => cases hd
  · refine (ht.sample .c0 i (by simpa [perChan] using hi)).trans (Eq.trans ?_ hsame)
    simp [perChan, State.acc]

end Sys2Proof.Machine
end

section
/-! PROOFS. A whole stream of one channel, one block and one frame (43_frame.md R186; 44_emitter.md R201, R202;
45_sequencer.md R214 to R222): O56. Each element before the frame is performed from the bits that the stream holds, the
frame is `exists_decoded_mono`, and `EMIT` and `BEND` close the block. -/

namespace Sys2Proof.Machine

/-! ### The elements before the frame -/

section
variable {s : State}

/-- Outside `FRAME_DELTA` the phase alone selects the element. -/
theorem step_of_holds_outside_frame {i : Instr} {ph : Phase} (hphase : s.phase = ph) (hnot : ph ≠ .frameDelta)
    (hop : i.op = select ph s.width) (hwf : i.wellFormed s.ctx = true)
    (hholds : Holds s.inp s.pos (encode s.ctx i)) : step s = exec i s :=
  step_of_holds (by rw [hphase, hop]) hwf (fun h => absurd (hphase.symm.trans h) hnot) hholds

theorem step_hdr_of_holds {f : Header} (hphase : s.phase = .header) (hok : HeaderAccepted f)
    (hholds : Holds s.inp s.pos (headerBits f)) :
    step s = .next { s with h := f, hValid := true, pos := s.pos + 192, phase := .seekSkip } := by
  rw [step_of_holds_outside_frame (i := .hdr f) hphase (by decide) rfl rfl hholds]
  exact exec_hdr_of_accepted (headerBits_length f ▸ hholds.1) (headerFault_eq_none.mpr hok)

theorem step_seekskip_of_no_entries (hphase : s.phase = .seekSkip) (hentries : s.h.seekEntries = 0#16)
    (htotal : s.h.total ≠ 0#32) (hfit : s.pos ≤ s.inp.bitLength) : step s = .next { s with phase := .blockSync } := by
  have hnone : 32 * s.h.seekEntries.toNat = 0 := by rw [hentries]; rfl
  have hfetch : fetch s = .next .seekskip := fetch_of_phase hphase (by decide) rfl
  rw [step_of_fetch hfetch, exec_seekskip_of_fits (by rw [hnone]; exact hfit), hnone]
  exact congrArg _ (if_neg htotal)

theorem step_bsync_of_holds (hphase : s.phase = .blockSync)
    (hholds : Holds s.inp s.pos (fieldBits 32 s.params.syncPattern.toNat)) :
    step s = .next { s with pos := s.pos + 32, phase := .blockIndex } := by
  rw [step_of_holds_outside_frame (i := .bsync s.params.syncPattern) hphase (by decide) rfl rfl hholds]
  exact (State.ite_lacks_of_fits (fieldBits_length 32 _ ▸ hholds.1)).trans (if_neg (not_not.mpr rfl))

/-- An index as expected, in a stream without fixes and tags, leads to the frames. -/
theorem step_bidx_of_holds (hphase : s.phase = .blockIndex) (hgps : s.h.gpsp = false) (htag : s.h.tagp = false)
    (hblock : s.h.blockSize ≠ 0#16) (hholds : Holds s.inp s.pos (fieldBits 32 s.expect.toNat)) :
    step s = .next { s with pos := s.pos + 32, frm := 0#16, ch := 0#2, phase := .frameK } := by
  have hdue : ¬ gpsDue (s.advance 32).h (s.advance 32).expect = true := gpsDue_of_no_gps hgps
  have hnext : (s.advance 32).afterBidx = (s.advance 32).enterFrames :=
    (State.afterBidx_of_not_due hdue).trans (if_neg (ne_true_of_eq_false htag))
  rw [step_of_holds_outside_frame (i := .bidx s.expect) hphase (by decide) rfl rfl hholds,
    exec_bidx_expect (fieldBits_length 32 _ ▸ hholds.1), hnext]
  exact congrArg _ (if_neg hblock)

theorem State.afterFrk_of_last_channel (hlast : ¬ (s.ch + 1#2).toNat < s.h.channels.toNat)
    (hsize : s.h.frameSize ≠ 0#16) : s.afterFrk = { s with ch := 0#2, spos := 0#16, phase := .frameDelta } := by
  obtain ⟨hmore, -⟩ | ⟨-, hnone, -⟩ | ⟨-, -, heq⟩ := s.afterFrk_cases
  · exact absurd hmore hlast
  · exact absurd hnone hsize
  · exact heq

/-- The one width of a frame of one channel. -/
theorem step_frk_of_holds {k : Nibble} (hphase : s.phase = .frameK) (hch : s.ch = 0#2)
    (hchannels : s.h.channels = 1#8) (hsize : s.h.frameSize ≠ 0#16)
    (hholds : Holds s.inp s.pos (fieldBits 4 k.toNat)) :
    step s = .next { s with
      pos := s.pos + 4
      k0 := k
      stUzero := s.stUzero || marksZeroFrame k
      ch := 0#2
      spos := 0#16
      phase := .frameDelta } := by
  rw [step_of_holds_outside_frame (i := .frk k) hphase (by decide) rfl rfl hholds,
    exec_frk_of_chan (State.chan_eq_c0.mpr hch), State.ite_lacks_of_fits (fieldBits_length 4 _ ▸ hholds.1)]
  have hlast : ¬ (s.ch + 1#2).toNat < s.h.channels.toNat := by
    rw [hch, hchannels]
    decide
  exact congrArg _ (State.afterFrk_of_last_channel hlast hsize)

end

/-- A run whose header `f` has been accepted, at the bit `p` of its first block. -/
def State.parsed (params : Params) (m : Memory) (f : Header) (p : Nat) (ph : Phase) : State :=
  { State.start params m with h := f, hValid := true, pos := p, phase := ph }

/-- The start of the frame's slots: the width is in its register. -/
def State.atFirstSlot (params : Params) (m : Memory) (f : Header) (k : Nibble) : State :=
  { State.parsed params m f 260 .frameDelta with k0 := k, stUzero := marksZeroFrame k }

/-- The five elements before the slots of a stream of one channel without a seek table, fixes and tags. -/
theorem runFrom_five_of_holds {params : Params} {m : Memory} {f : Header} {k : Nibble} (hok : HeaderAccepted f)
    (hchannels : f.channels = 1#8) (hblock : f.blockSize ≠ 0#16) (hentries : f.seekEntries = 0#16)
    (hgps : f.gpsp = false) (htag : f.tagp = false) (hsize : f.frameSize ≠ 0#16) (htotal : f.total ≠ 0#32)
    (hheader : Holds m 0 (headerBits f)) (hsync : Holds m 192 (fieldBits 32 params.syncPattern.toNat))
    (hindex : Holds m 224 (fieldBits 32 0)) (hwidth : Holds m 256 (fieldBits 4 k.toNat)) :
    runFrom 5 (State.start params m) = .next (State.atFirstSlot params m f k) := by
  have hhdr : step (State.start params m) = .next (State.parsed params m f 192 .seekSkip) :=
    step_hdr_of_holds rfl hok hheader
  have hfit : 192 ≤ m.bitLength := (Nat.le_add_right _ _).trans hsync.1
  have hseek : step (State.parsed params m f 192 .seekSkip) = .next (State.parsed params m f 192 .blockSync) :=
    step_seekskip_of_no_entries rfl hentries htotal hfit
  have hbsync : step (State.parsed params m f 192 .blockSync) = .next (State.parsed params m f 224 .blockIndex) :=
    step_bsync_of_holds rfl hsync
  have hbidx : step (State.parsed params m f 224 .blockIndex) = .next (State.parsed params m f 256 .frameK) :=
    step_bidx_of_holds rfl hgps htag hblock hindex
  have hfrk : step (State.parsed params m f 256 .frameK) = .next (State.atFirstSlot params m f k) :=
    step_frk_of_holds rfl rfl hchannels hsize hwidth
  rw [runFrom_succ_of_step hhdr, runFrom_succ_of_step hseek, runFrom_succ_of_step hbsync, runFrom_succ_of_step hbidx,
    runFrom_one hfrk]

/-! ### The elements behind the frame -/

/-- What `EMIT` leaves before its successor (44_emitter.md R202). -/
def State.emitFrame (s : State) : State :=
  { s.noteOvf (s.emitted.any sampleOverflows) with
    out := s.out ++ s.emitted.map wrap16
    produced := s.produced + s.h.frameSize.toNat }

section
variable {s : State}

theorem step_emit (hphase : s.phase = .frameEmit) : step s = .next s.emitFrame.afterEmit :=
  step_of_fetch (fetch_of_phase hphase (by decide) rfl)

theorem State.afterEmit_of_last_frame (hlast : ¬ s.frm + 1#16 < s.h.blockSize) :
    s.afterEmit = { s with frm := s.frm + 1#16, phase := .blockEnd } := if_neg hlast

theorem step_bend_of_total (hphase : s.phase = .blockEnd) (htotal : s.h.total.toNat ≤ s.produced) :
    step s = .next { s with expect := s.expect + 1#32, stDone := true, phase := .done } := by
  have hfetch : fetch s = .next .bend := fetch_of_phase hphase (by decide) rfl
  rw [step_of_fetch hfetch]
  exact if_pos htotal

/-- A frame of one channel below the total is emitted whole, in the order of its positions. -/
theorem State.emitted_mono (hchannels : s.h.channels = 1#8)
    (hbelow : s.produced + s.h.frameSize.toNat ≤ s.h.total.toNat) :
    s.emitted = (List.range s.h.frameSize.toNat).map fun i => rescale s.h.lossy (s.readFb 0 i) := by
  have hall : ((List.range s.h.frameSize.toNat).filter fun i => decide (s.produced + i < s.h.total.toNat)) =
      List.range s.h.frameSize.toNat := by
    rw [List.filter_eq_self]
    intro i hi
    rw [List.mem_range] at hi
    exact decide_eq_true (by omega)
  have hone : List.range s.h.channels.toNat = [0] := by rw [hchannels]; rfl
  rw [State.emitted, hall, hone, List.map_eq_flatMap]
  rfl

/-- `EMIT` and `BEND` of the last frame of one channel: the frame's samples are the output, and the run is done. -/
theorem runFrom_two_of_last_frame (hphase : s.phase = .frameEmit) (hchannels : s.h.channels = 1#8)
    (hlast : ¬ s.frm + 1#16 < s.h.blockSize) (htotal : s.h.total.toNat = s.produced + s.h.frameSize.toNat) :
    ∃ t, runFrom 2 s = .next t ∧ t.phase = .done ∧ t.stDone = true ∧ t.stErr = s.stErr ∧
      t.expect = s.expect + 1#32 ∧
      t.out = s.out ++ (List.range s.h.frameSize.toNat).map fun i => wrap16 (rescale s.h.lossy (s.readFb 0 i)) := by
  have hemit : step s = .next { s.emitFrame with frm := s.frm + 1#16, phase := .blockEnd } :=
    (step_emit hphase).trans (congrArg _ (State.afterEmit_of_last_frame hlast))
  have hbend := step_bend_of_total (s := { s.emitFrame with frm := s.frm + 1#16, phase := .blockEnd }) rfl htotal.le
  refine ⟨_, (runFrom_succ_of_step hemit 1).trans (runFrom_one hbend), rfl, rfl, rfl, rfl, ?_⟩
  calc s.emitFrame.out
      = s.out ++ s.emitted.map wrap16 := rfl
    _ = _ := by rw [State.emitted_mono hchannels htotal.ge, List.map_map]; rfl

end

/-! ### The statement -/

/-- Settles O56: five elements lead to the slots, the slots to the running sums, and two elements to the output. -/
theorem oneBlockStreamDecodesToItsSamples : Obligations.OneBlockStreamDecodesToItsSamples := by
  unfold Obligations.OneBlockStreamDecodesToItsSamples
  intro params m f k ds hok hchannels hblock hentries hgps htag hk hlength htotal hne hholds
  have hpos : 0 < f.frameSize.toNat := hlength ▸ List.length_pos_of_ne_nil hne
  have hsize : f.frameSize ≠ 0#16 := fun h => by simp [h] at hpos
  have hsome : f.total ≠ 0#32 := fun h => by simp [h] at htotal; omega
  simp only [holds_append, List.length_append, headerBits_length, fieldBits_length] at hholds
  obtain ⟨⟨⟨⟨hheader, hsync⟩, hindex⟩, hwidth⟩, hcodewords⟩ := hholds
  have hhead := runFrom_five_of_holds hok hchannels (by rw [hblock]; decide) hentries hgps htag hsize hsome hheader
    hsync hindex hwidth
  have hbits := flatMap_slotBits (s := State.atFirstSlot params m f k) (c := .c0) hk ds
  obtain ⟨t, hslots, hat, ht⟩ := exists_decoded_mono
    (State.atPosition_zero (s := State.atFirstSlot params m f k) rfl rfl rfl hpos) hchannels hlength.le
    (fun h => absurd h hk) (fun _ => hbits ▸ hcodewords)
  have hh : t.h = f := ht.h_eq
  have hfrm : t.frm = 0#16 := (congrArg State.frm ht.rest :)
  have hproduced : t.produced = 0 := (congrArg State.produced ht.rest :)
  have hstErr : t.stErr = false := (congrArg State.stErr ht.rest :)
  have hexpect : t.expect = 0#32 := (congrArg State.expect ht.rest :)
  have hout : t.out = [] := (congrArg State.out ht.rest :)
  rw [hlength, ← hh] at hat
  obtain ⟨u, htail, hphase, hdone, herr, hnext, hwords⟩ := runFrom_two_of_last_frame hat.phase_of_end
    (by rw [hh, hchannels]) (by rw [hfrm, hh, hblock]; decide) (by rw [hh, hproduced, htotal, Nat.zero_add])
  refine ⟨u, ?_, hphase, hdone, herr.trans hstErr, by rw [hnext, hexpect]; rfl, ?_⟩
  · rw [show ds.length + 7 = 5 + (ds.length + 2) by omega, runFrom_add hhead, runFrom_add hslots, htail]
  · rw [hwords, hout, List.nil_append, hh, ← hlength]
    refine List.map_congr_left fun i hi => ?_
    have hsample := ht.sample .c0 i (List.mem_range.mp hi)
    have hzero : ((State.atFirstSlot params m f k).acc .c0).toInt = 0 := rfl
    rw [hzero, Int.zero_add] at hsample
    exact congrArg (fun v => wrap16 (rescale f.lossy v)) hsample

end Sys2Proof.Machine
end

section
/-! PROOFS. The emitter (44_emitter.md R201, R202): O34. The kept positions are an initial part of the frame, so the
emitted values are one list over the indices of the words, and word `j` is that of channel `j mod C`, position
`j div C`. -/

namespace Sys2Proof.Machine

/-! ### Rows laid end to end -/

/-- The positions kept are the first ones. -/
theorem filter_range_below (p total n : Nat) :
    ((List.range n).filter fun i => decide (p + i < total)) = List.range (min n (total - p)) := by
  induction n with
  | zero => simp
  | succ n ih =>
    rw [List.range_succ, List.filter_append, ih]
    by_cases hn : p + n < total
    · have hkept : min (n + 1) (total - p) = min n (total - p) + 1 := by omega
      have hall : min n (total - p) = n := by omega
      simp [hn, hkept, hall, List.range_succ]
    · have hkept : min (n + 1) (total - p) = min n (total - p) := by omega
      simp [hn, hkept]

/-- `n` rows of `c` columns, laid end to end, are indexed by `j div c` and `j mod c`. -/
theorem flatMap_range_map_range {α : Type} (f : Nat → Nat → α) (n c : Nat) :
    ((List.range n).flatMap fun i => (List.range c).map (f i)) =
      (List.range (n * c)).map fun j => f (j / c) (j % c) := by
  induction n with
  | zero => simp
  | succ n ih =>
    have hrow : ∀ j ∈ List.range c, f n j = f ((n * c + j) / c) ((n * c + j) % c) := by
      intro j hj
      rw [List.mem_range] at hj
      rw [Nat.mul_comm, Nat.mul_add_div (by omega), Nat.mul_add_mod, Nat.div_eq_of_lt hj, Nat.mod_eq_of_lt hj,
        Nat.add_zero]
    rw [List.range_succ, List.flatMap_append, ih, Nat.succ_mul, List.range_add, List.map_append, List.map_map,
      List.flatMap_singleton, List.map_congr_left hrow]
    rfl

/-! ### The emitted values and words -/

theorem toNat_wrap16 (z : Int) : ((wrap16 z).toNat : Int) = z % 2 ^ 16 := by
  rw [wrap16, BitVec.toNat_ofInt]
  exact Int.toNat_of_nonneg (Int.emod_nonneg z (by decide))

/-- How many positions of the frame `EMIT` keeps (44_emitter.md R202). -/
def State.keptPositions (s : State) : Nat := min s.h.frameSize.toNat (s.h.total.toNat - s.produced)

/-- The exact value of word `j` of the frame (44_emitter.md R201, R202). -/
def State.sampleAt (s : State) (j : Nat) : Int :=
  (s.readFb (j % s.h.channels.toNat) (j / s.h.channels.toNat)).toInt * 2 ^ (s.h.flags.toNat % 16)

theorem State.emitted_eq_map (s : State) :
    s.emitted = (List.range (s.keptPositions * s.h.channels.toNat)).map s.sampleAt := by
  rw [State.emitted, filter_range_below]
  exact flatMap_range_map_range (fun i c => rescale s.h.lossy (s.readFb c i)) _ _

theorem State.any_sampleOverflows_emitted (s : State) :
    s.emitted.any sampleOverflows =
      decide (∃ j < s.keptPositions * s.h.channels.toNat, s.sampleAt j < -32768 ∨ 32767 < s.sampleAt j) := by
  rw [State.emitted_eq_map, Bool.eq_iff_iff]
  simp [sampleOverflows]

theorem State.getElem?_emitted {s : State} {j : Nat} (hj : j < s.keptPositions * s.h.channels.toNat) :
    s.emitted[j]? = some (s.sampleAt j) := by
  rw [State.emitted_eq_map, List.getElem?_map, List.getElem?_range hj]
  rfl

/-! ### The statement -/

/-- Settles O34: the words appended are the emitted values, of which word `j` is known, modulo `2^16`. -/
theorem emitAppendsTheFrameInterleaved : Obligations.EmitAppendsTheFrameInterleaved := by
  unfold Obligations.EmitAppendsTheFrameInterleaved
  rintro s kept rfl
  refine ⟨s.emitted.map wrap16, ?_, ?_, fun j hj => ⟨wrap16 (s.sampleAt j), ?_, toNat_wrap16 _⟩⟩
  · calc exec .emit s
        = .next { s with
            out := s.out ++ s.emitted.map wrap16
            produced := s.produced + s.h.frameSize.toNat
            stOvf := s.stOvf || s.emitted.any sampleOverflows }.afterEmit := rfl
      _ = _ := by rw [State.any_sampleOverflows_emitted]; rfl
  · rw [List.length_map, State.emitted_length]
  · rw [List.getElem?_map, State.getElem?_emitted hj]
    rfl

end Sys2Proof.Machine
end

section
/-! PROOFS. The runs from a good state (44_emitter.md R203, R204; 45_sequencer.md R210): O51. A good state selects an
element inside the decoder's contract and on a channel that exists, so each step has a next state, and the invariant,
which `everyStepKeepsTheInvariant` carries along the run, says what the outputs are. -/

namespace Sys2Proof.Machine

/-! ### A good state has a next state -/

/-- The answer is a next state: neither a fault in the model's sense nor a refusal. -/
def Completes (r : Result) : Prop := ∃ t, r = .next t

theorem completes_next (t : State) : Completes (.next t) := ⟨t, rfl⟩

theorem completes_ite {p : Prop} [Decidable p] {r r' : Result} (h : Completes r) (h' : Completes r') :
    Completes (if p then r else r') := by
  split
  · exact h
  · exact h'

/-- The sequencer selects no primitive, and a codeword only of a width that is not 0 (45_sequencer.md R211). -/
theorem exists_decode_select (cx : Ctx) (ph : Phase) (bit : Nat → Bool) (avail : Nat) :
    ∃ i, decode cx (select ph cx.k) bit avail = .ok i := by
  cases ph with
  | frameDelta => by_cases hk : cx.k = 0#4 <;> simp [select, decode, hk]
  | _ => exact ⟨_, rfl⟩

/-- Where the sequencer selects an element it completes, if an element of a channel finds its channel and `DELTA` a
width. -/
theorem exec_completes {i : Instr} {s : State} (hsel : Op.SelectedIn i.op s.phase)
    (hchan : s.phase = .frameK ∨ s.phase = .frameDelta → ∃ c, s.chan = some c)
    (hwidth : i.op = .delta → s.width ≠ 0#4) : Completes (exec i s) := by
  cases i with
  | rdbits | rdunary | skipb => exact hsel.elim
  | hdr f =>
    refine completes_ite (completes_next _) ?_
    cases headerFault f with
    | none => exact completes_next _
    | some c => exact completes_next _
  | seekskip => exact completes_ite (completes_next _) (completes_next _)
  | bsync p => exact completes_ite (completes_next _) (completes_ite (completes_next _) (completes_next _))
  | bidx x => exact completes_ite (completes_next _) (completes_ite (completes_next _) (completes_next _))
  | gps a o => exact completes_ite (completes_next _) (completes_next _)
  | tag g => exact completes_ite (completes_next _) (completes_next _)
  | frk k =>
    obtain ⟨c, hc⟩ := hchan (.inl hsel)
    rw [exec_frk_of_chan hc]
    exact completes_ite (completes_next _) (completes_next _)
  | delta q r =>
    obtain ⟨c, hc⟩ := hchan (.inr hsel)
    rw [exec_delta_of_chan hc (State.width_of_chan hc ▸ hwidth rfl)]
    exact completes_ite (completes_next _) (completes_next _)
  | zdelta =>
    obtain ⟨c, hc⟩ := hchan (.inr hsel)
    rw [exec_zdelta_of_chan hc]
    exact completes_next _
  | emit => exact completes_next _
  | bend => exact completes_ite (completes_next _) (completes_next _)
  | halt => exact completes_next _

theorem width_ne_zero_of_select_delta {ph : Phase} {k : Nibble} (h : select ph k = .delta) : k ≠ 0#4 := by
  rintro rfl
  cases ph <;> cases h

/-- `CH` names a channel wherever an element of a channel is selected (10_state.md R25). -/
theorem Inv.exists_chan {s : State} (h : Inv s) (hp : s.phase = .frameK ∨ s.phase = .frameDelta) :
    ∃ c, s.chan = some c := by
  have hrun : Running s := by
    rcases hp with hp | hp
    · exact h.running hp (by decide)
    · exact h.running hp (by decide)
  have hch := h.channel hp
  have hcases := hrun.channels_cases
  have hnumber : s.ch.toNat = Chan.c0.number ∨ s.ch.toNat = Chan.c1.number := by
    simp only [Chan.number]
    omega
  rcases hnumber with hc | hc
  · exact ⟨_, State.chan_eq_some.mpr hc⟩
  · exact ⟨_, State.chan_eq_some.mpr hc⟩

theorem Inv.exists_step {s : State} (h : Inv s) : ∃ t, step s = .next t := by
  obtain ⟨i, hdecode⟩ := exists_decode_select s.ctx s.phase s.bitsHere s.bitsLeft
  have hchan : s.phase = .frameDelta → s.chan ≠ none := fun hp => by
    obtain ⟨c, hc⟩ := h.exists_chan (.inr hp)
    simp [hc]
  have hfetch : fetch s = .next i := fetch_of_decode hchan hdecode
  have hop : i.op = select s.phase s.width := op_of_decode hdecode
  rw [step_of_fetch hfetch]
  exact exec_completes (selectedIn_of_fetch hfetch) h.exists_chan fun hdelta =>
    width_ne_zero_of_select_delta (hop.symm.trans hdelta)

/-! ### The runs from a good state -/

/-- A run from a good state reaches, however long it is, a good state. -/
theorem Inv.exists_runFrom {s : State} (h : Inv s) (n : Nat) : ∃ t, runFrom n s = .next t ∧ Inv t := by
  induction n with
  | zero => exact ⟨s, rfl, h⟩
  | succ n ih =>
    obtain ⟨t, hrun, ht⟩ := ih
    obtain ⟨u, hstep⟩ := ht.exists_step
    exact ⟨u, runFrom_snoc hrun hstep, everyStepKeepsTheInvariant t u ht hstep⟩

/-! ### The output in `DONE` -/

/-- The total is reached in `DONE`, so it, and not `PRODUCED`, is the number of the positions kept. -/
theorem Inv.outLen_of_stDone {s : State} (h : Inv s) (hd : s.stDone = true) :
    s.outLen = s.h.total.toNat * s.h.channels.toNat := by
  rw [State.outLen, h.output, min_eq_right (h.finished hd)]

/-! ### The statement -/

/-- Settles O51: the invariant holds at the start of the run and after each of its steps. -/
theorem doneRunsHaveTheDeclaredLength : Obligations.DoneRunsHaveTheDeclaredLength := by
  unfold Obligations.DoneRunsHaveTheDeclaredLength
  intro n params m hm
  obtain ⟨t, hrun, ht⟩ := (inv_start params hm).exists_runFrom n
  refine ⟨t, hrun, fun hd => ?_, ht.bounded.imp_right Nat.le_sub_one_of_lt⟩
  have hp : t.phase = .done := ht.done_iff.mpr hd
  exact ⟨ht.stErr_eq_false (by simp [hp]), ht.parsed (by simp [hp]) (by simp [hp]), ht.outLen_of_stDone hd⟩

end Sys2Proof.Machine
end

section
/-! PROOFS. Selection, the step and the end of a run (45_sequencer.md R210 to R212, R223): O8, O9, O10, O37. A step is
the meaning of what `fetch` answers, and `fetch` answers what the decoder reads for the operation selected. -/

namespace Sys2Proof.Machine

/-! ### A step is one element -/

section
variable {s : State} {i : Instr}

theorem op_of_fetch (h : fetch s = .next i) : i.op = select s.phase s.width := by
  obtain ⟨-, hdecode⟩ := fetch_cases h
  exact op_of_decode hdecode

theorem step_of_decode (hchan : s.phase = .frameDelta → s.chan ≠ none)
    (hdecode : decode s.ctx (select s.phase s.width) s.bitsHere s.bitsLeft = .ok i) : step s = exec i s :=
  step_of_fetch (fetch_of_decode hchan hdecode)

/-- The bits that `SEEKSKIP` passes over are not examined (41_header.md R148). -/
theorem step_of_select_seekskip (hchan : s.phase = .frameDelta → s.chan ≠ none)
    (hop : select s.phase s.width = .seekskip) : step s = exec .seekskip s :=
  step_of_decode hchan (by rw [hop]; rfl)

end

/-! ### Terminal states -/

section
variable {s : State}

theorem State.Terminal.fetch_eq (h : s.Terminal) : fetch s = .next .halt := by
  rcases h with hp | hp
  · exact fetch_of_phase hp (by decide) rfl
  · exact fetch_of_phase hp (by decide) rfl

theorem State.Terminal.step_eq (h : s.Terminal) : step s = .next s := step_of_fetch h.fetch_eq

theorem State.Terminal.runFrom_eq (h : s.Terminal) (n : Nat) : runFrom n s = .next s := by
  induction n with
  | zero => rfl
  | succ n ih => rw [runFrom_succ_of_step h.step_eq, ih]

end

/-! ### The statements -/

/-- Settles O10: the seek table is not examined, and every other element is decoded from the bits that the stream
holds. -/
theorem stepPerformsTheElementThatTheStreamHolds : Obligations.StepPerformsTheElementThatTheStreamHolds := by
  unfold Obligations.StepPerformsTheElementThatTheStreamHolds
  intro s i hwf hop hchan hbits
  obtain rfl | hholds := hbits
  · exact step_of_select_seekskip hchan hop.symm
  · exact step_of_holds hop hwf hchan hholds

/-- Settles O37, by induction on the number of steps (`State.Terminal.runFrom_eq`). -/
theorem terminalStatesAreNeverLeft : Obligations.TerminalStatesAreNeverLeft := by
  unfold Obligations.TerminalStatesAreNeverLeft
  exact ⟨fun s => rfl, fun n s h => h.runFrom_eq n⟩

/-- Settles O8: the table is the definition of `select`, and the decoder answers an instruction of the operation that
it is given. -/
theorem phaseAloneSelectsTheElement : Obligations.PhaseAloneSelectsTheElement := by
  unfold Obligations.PhaseAloneSelectsTheElement
  refine ⟨fun k => ?_, fun s i hfetch => ⟨op_of_fetch hfetch, fun c hc => State.width_of_chan hc⟩⟩
  exact ⟨rfl, rfl, rfl, rfl, rfl, rfl, rfl, fun hk => if_neg hk, fun hk => if_pos hk, rfl, rfl, rfl, rfl⟩

/-- Settles O9: `step` is `exec` of what is fetched. -/
theorem stepRunsTheDecodedInstruction : Obligations.StepRunsTheDecodedInstruction := by
  unfold Obligations.StepRunsTheDecodedInstruction
  intro s i _ hchan hdecode
  exact step_of_decode hchan hdecode

end Sys2Proof.Machine
end

section
/-! PROOFS. The successor rules, each by the numbers that its registers hold (45_sequencer.md R218 to R222): O21, O25,
O28, O35, O36. Where a register is in its range its increment does not wrap, which decides between the branches. -/

namespace Sys2Proof.Machine

theorem succ_eq_ofNat_mod (x : Word) : x + 1#32 = BitVec.ofNat 32 ((x.toNat + 1) % 2 ^ 32) := by
  apply BitVec.eq_of_toNat_eq
  rw [BitVec.toNat_ofNat, Nat.mod_mod, BitVec.toNat_add]
  rfl

/-- Settles O21: the two branches of the rule. -/
theorem enteringTheFramesOfABlock : Obligations.EnteringTheFramesOfABlock := by
  unfold Obligations.EnteringTheFramesOfABlock
  exact fun s => ⟨fun hzero => if_pos hzero, fun hsome => if_neg hsome⟩

/-- Settles O25: up to 2, `CH` is incremented without a wrap. -/
theorem successorOfARemainderWidth : Obligations.SuccessorOfARemainderWidth := by
  unfold Obligations.SuccessorOfARemainderWidth
  intro s hrange
  have hch : (s.ch + 1#2).toNat = s.ch.toNat + 1 := toNat_succ (by omega)
  obtain ⟨hmore, heq⟩ | ⟨hlast, hsize, heq⟩ | ⟨hlast, hsize, heq⟩ := s.afterFrk_cases
  · rw [hch] at hmore
    exact ⟨fun _ => heq, fun hend => absurd hmore hend.not_gt, fun hend => absurd hmore hend.not_gt⟩
  · rw [hch] at hlast
    exact ⟨fun hmore => absurd hmore hlast, fun _ _ => heq, fun _ hne => absurd hsize hne⟩
  · rw [hch] at hlast
    exact ⟨fun hmore => absurd hmore hlast, fun _ hzero => absurd hzero hsize, fun _ _ => heq⟩

/-- Settles O28: neither `CH` nor `SPOS` wraps. -/
theorem successorOfASlot : Obligations.SuccessorOfASlot := by
  unfold Obligations.SuccessorOfASlot
  intro s hrange hposition
  have hch : (s.ch + 1#2).toNat = s.ch.toNat + 1 := toNat_succ (by omega)
  have hspos : (s.spos + 1#16).toNat = s.spos.toNat + 1 := toNat_succ_of_lt hposition
  obtain ⟨hmore, heq⟩ | ⟨hlast, hin, heq⟩ | ⟨hlast, hend, heq⟩ := s.afterSlot_cases
  · rw [hch] at hmore
    exact ⟨fun _ => heq, fun hend => absurd hmore hend.not_gt, fun hend => absurd hmore hend.not_gt⟩
  · rw [hch] at hlast
    rw [BitVec.lt_def, hspos] at hin
    exact ⟨fun hmore => absurd hmore hlast, fun _ _ => heq, fun _ hend => absurd hend hin.ne⟩
  · rw [hch] at hlast
    rw [BitVec.lt_def, hspos] at hend
    exact ⟨fun hmore => absurd hmore hlast, fun _ hin => absurd hin hend, fun _ _ => heq⟩

/-- Settles O35: `FRM` does not wrap. -/
theorem successorOfAnEmittedFrame : Obligations.SuccessorOfAnEmittedFrame := by
  unfold Obligations.SuccessorOfAnEmittedFrame
  intro s hframe
  have hfrm : (s.frm + 1#16).toNat = s.frm.toNat + 1 := toNat_succ_of_lt hframe
  obtain ⟨hmore, heq⟩ | ⟨hlast, heq⟩ := s.afterEmit_cases
  · rw [BitVec.lt_def, hfrm] at hmore
    exact ⟨fun _ => heq, fun hend => absurd hend hmore.ne⟩
  · rw [BitVec.lt_def, hfrm] at hlast
    exact ⟨fun hmore => absurd hmore hlast, fun _ => heq⟩

/-- Settles O36: the two outcomes of the comparison with `H.TOTAL`, with the increment modulo `2^32` written out. -/
theorem bendClosesTheBlock : Obligations.BendClosesTheBlock := by
  unfold Obligations.BendClosesTheBlock
  intro s
  rw [← succ_eq_ofNat_mod]
  exact ⟨fun htotal => if_pos htotal, fun hmore => if_neg hmore.not_ge⟩

end Sys2Proof.Machine
end

section
/-! PROOFS. What a run has looked at (45_sequencer.md R222; 20_memory.md R73): O45. An element that completes is decoded
from the bits that its cursor passes over, and its meaning only asks whether they are there; and a run that ends outside
`FAULT` consists of such elements. -/

namespace Sys2Proof.Machine

/-! ### The extent of an element that completes -/

/-- The elements of no bits, which do not ask for the extent of the stream either (30_encoding.md R91). -/
def Instr.Bitless : Instr → Prop
  | .zdelta | .emit | .bend | .halt => True
  | _ => False

section
variable {i : Instr} {s t : State}

theorem Performs.fits_or_bitless (h : Performs s i t) (hp : t.phase ≠ .fault) :
    s.pos + i.length s.ctx ≤ s.inp.bitLength ∨ Instr.Bitless i := by
  cases h with
  | rdbits hfit | rdunary hfit | skipb hfit | hdr hfit | seekskip hfit | bsync hfit | bidx hfit | gps hfit
  | tag hfit | frk _ hfit => exact .inl hfit
  | delta hc hfit => exact .inl (by simpa [Instr.length, State.ctx_k_of_chan hc] using hfit)
  | zdelta | emit | bendLast | bendMore | halt => exact .inr trivial
  | truncated | badHeader | badPattern | badIndex => exact absurd rfl hp

theorem Instr.Bitless.length_eq_zero (h : Instr.Bitless i) (cx : Ctx) : i.length cx = 0 := by
  cases i with
  | zdelta | emit | bend | halt => rfl
  | _ => exact h.elim

/-- Where a step does not fault the cursor passes over the whole element. -/
theorem Performs.pos_eq_add (h : Performs s i t) (hp : t.phase ≠ .fault) : t.pos = s.pos + i.length s.ctx := by
  cases h with
  | delta hc => simp [Instr.length, State.ctx_k_of_chan hc]
  | truncated | badHeader | badPattern | badIndex => exact absurd rfl hp
  | _ => simp [Instr.length]

/-- The part of the element that is left is all of it. -/
theorem Performs.length_le_bitsLeft (h : Performs s i t) (hp : t.phase ≠ .fault) : i.length s.ctx ≤ s.bitsLeft := by
  obtain hfit | hless := h.fits_or_bitless hp
  · exact Nat.le_sub_of_add_le' hfit
  · rw [hless.length_eq_zero]
    exact Nat.zero_le _

end

/-! ### One step over a stream that agrees up to the cursor -/

section
variable {m : Memory} {i : Instr} {s t : State}

theorem exec_withStream_of_bitless (h : Instr.Bitless i) :
    exec i (s.withStream m) = answerWithStream m (exec i s) := by
  cases i with
  | zdelta =>
    simp only [exec, execZdelta, State.withStream_chan]
    cases s.chan with
    | none => rfl
    | some c => exact congrArg Host.Outcome.next (State.withStream_afterSlot m (s.writeFb c (s.acc c))).symm
  | emit =>
    simp only [exec, execEmit, answerWithStream_next, State.withStream_afterEmit]
    rfl
  | bend =>
    simp only [exec, execBend, apply_ite (answerWithStream m)]
    rfl
  | halt => rfl
  | _ => exact h.elim

theorem exec_withStream_of_completes (hperf : Performs s i t) (hp : t.phase ≠ .fault)
    (hreach : t.pos ≤ m.bitLength) : exec i (s.withStream m) = answerWithStream m (exec i s) := by
  obtain hfit | hless := hperf.fits_or_bitless hp
  · rw [hperf.pos_eq_add hp] at hreach
    apply exec_withStream
    rw [State.lacks_eq_false.mpr hfit, State.lacks_eq_false]
    exact hreach
  · exact exec_withStream_of_bitless hless

/-- The element that completes is decoded from the bits below the cursor that it leaves. -/
theorem fetch_withStream_of_completes (hfetch : fetch s = .next i) (hperf : Performs s i t) (hp : t.phase ≠ .fault)
    (hbits : ∀ j < t.pos, m.bit j = s.inp.bit j) (hreach : t.pos ≤ m.bitLength) :
    fetch (s.withStream m) = .next i := by
  obtain ⟨hchan, hdecode⟩ := fetch_cases hfetch
  have hop := op_of_fetch hfetch
  have hend := hperf.pos_eq_add hp
  have hleft : i.length s.ctx ≤ (s.withStream m).bitsLeft := Nat.le_sub_of_add_le' (hend ▸ hreach)
  rw [← hop] at hdecode
  obtain ⟨hwf, hspells⟩ := (decode_eq_ok_iff (hperf.length_le_bitsLeft hp)).mp hdecode
  refine fetch_of_decode (s := s.withStream m) hchan ?_
  rw [State.withStream_phase, State.withStream_width, ← hop]
  refine (decode_eq_ok_iff (cx := s.ctx) hleft).mpr ⟨hwf, fun hall j hj => ?_⟩
  rw [← hspells hall j hj]
  rw [encode_length] at hj
  exact hbits _ (by rw [hend, State.withStream_pos]; omega)

theorem step_withStream_of_completes (hstep : step s = .next t) (hp : t.phase ≠ .fault)
    (hbits : ∀ j < t.pos, m.bit j = s.inp.bit j) (hreach : t.pos ≤ m.bitLength) :
    step (s.withStream m) = .next (t.withStream m) := by
  obtain ⟨i, hfetch, hexec⟩ := step_cases hstep
  have hperf := performs_of_exec hexec
  rw [step_of_fetch (fetch_withStream_of_completes hfetch hperf hp hbits hreach),
    exec_withStream_of_completes hperf hp hreach, hexec, answerWithStream_next]

end

/-! ### Runs -/

theorem step_pos_le {s t : State} (hstep : step s = .next t) : s.pos ≤ t.pos := by
  obtain ⟨i, -, hexec⟩ := step_cases hstep
  obtain hstay | ⟨hmove, -⟩ := (performs_of_exec hexec).pos_cases
  · exact hstay.ge
  · exact hmove ▸ Nat.le_add_right _ _

theorem runFrom_pos_le {n : Nat} {s t : State} (hrun : runFrom n s = .next t) : s.pos ≤ t.pos := by
  induction n generalizing s with
  | zero => cases hrun; exact le_rfl
  | succ n ih =>
    obtain ⟨u, hstep, hrest⟩ := exists_step_of_runFrom_succ hrun
    exact (step_pos_le hstep).trans (ih hrest)

/-- A run that ends outside `FAULT` never was there. -/
theorem phase_ne_fault_of_runFrom {n : Nat} {s t : State} (hrun : runFrom n s = .next t) (hp : t.phase ≠ .fault) :
    s.phase ≠ .fault := fun hfault => by
  have hterminal : s.Terminal := .inr hfault
  rw [hterminal.runFrom_eq] at hrun
  cases hrun
  exact hp hfault

/-- Settles O45, by induction on the number of steps: the cursor of every step is at most the last one, so the streams
agree on all that the step looks at. -/
theorem nothingBeyondTheCursorMatters : Obligations.NothingBeyondTheCursorMatters := by
  unfold Obligations.NothingBeyondTheCursorMatters
  intro n s t m hrun hp hbits hreach
  induction n generalizing s with
  | zero => cases hrun; rfl
  | succ n ih =>
    obtain ⟨u, hstep, hrest⟩ := exists_step_of_runFrom_succ hrun
    have hpos := runFrom_pos_le hrest
    have hstep' : step (s.withStream m) = .next (u.withStream m) :=
      step_withStream_of_completes hstep (phase_ne_fault_of_runFrom hrest hp)
        (fun j hj => hbits j (hj.trans_le hpos)) (hpos.trans hreach)
    exact (runFrom_succ_of_step hstep' n).trans (ih u hrest (by rwa [step_inp hstep]))

end Sys2Proof.Machine
end

section
/-! PROOFS. Every run ends (45_sequencer.md R210, R226): O50, O52. From the state after `HDR` on, each step lowers a
bound that the cursor and the sequencer's registers give: a block takes 64 bits at least, and what is left of its
elements is counted by `PHASE`, `FRM`, `SPOS` and `CH`. -/

namespace Sys2Proof.Machine

/-! ### A bound on the steps that are left -/

/-- The steps of one frame at most: two widths, two slots at each position, and `EMIT`. -/
def Header.frameSteps (h : Header) : Nat := 3 + 2 * h.frameSize.toNat

/-- The steps of one block at most: its four elements before the frames, the frames, and `BEND`. -/
def Header.blockSteps (h : Header) : Nat := 5 + h.blockSize.toNat * Header.frameSteps h

/-- The steps of the blocks that `bits` bits of the stream hold, and of one in which the stream ends. -/
def Header.stepsOfBits (h : Header) (bits : Nat) : Nat := (bits / 64 + 1) * Header.blockSteps h

/-- The steps of the blocks that begin at the cursor or behind it. -/
def State.laterBlocks (s : State) : Nat := Header.stepsOfBits s.h s.bitsLeft

/-- The steps of the frames of the block behind the frame `FRM`. -/
def State.laterFrames (s : State) : Nat := (s.h.blockSize.toNat - (s.frm.toNat + 1)) * Header.frameSteps s.h

/-- A bound on the steps that are left before `DONE` or `FAULT` with the sequencer in the given state: the blocks to
come, and what is left of this one. In `HEADER` nothing bounds them yet. -/
def State.stepsLeftIn (s : State) : Phase → Nat
  | .header | .done | .fault => 0
  | .seekSkip => s.laterBlocks + 1
  | .blockSync => s.laterBlocks
  | .blockIndex => Header.stepsOfBits s.h (s.bitsLeft + 32) - 1
  | .blockGps => s.laterBlocks + (3 + s.h.blockSize.toNat * Header.frameSteps s.h)
  | .blockTag => s.laterBlocks + (2 + s.h.blockSize.toNat * Header.frameSteps s.h)
  | .frameK => s.laterBlocks + s.laterFrames + (4 + 2 * s.h.frameSize.toNat - s.ch.toNat)
  | .frameDelta => s.laterBlocks + s.laterFrames + (2 + 2 * (s.h.frameSize.toNat - s.spos.toNat) - s.ch.toNat)
  | .frameEmit => s.laterBlocks + s.laterFrames + 2
  | .blockEnd => s.laterBlocks + 1

/-- The bound for the sequencer state that `PHASE` holds. -/
def State.stepsLeft (s : State) : Nat := s.stepsLeftIn s.phase

theorem stepsOfBits_mono (h : Header) {a b : Nat} (hab : a ≤ b) : Header.stepsOfBits h a ≤ Header.stepsOfBits h b :=
  Nat.mul_le_mul_right _ (Nat.succ_le_succ (Nat.div_le_div_right hab))

/-- 64 bits are one block more. -/
theorem stepsOfBits_add_block (h : Header) (bits : Nat) :
    Header.stepsOfBits h (bits + 64) = Header.stepsOfBits h bits + Header.blockSteps h := by
  rw [Header.stepsOfBits, Nat.add_div_right bits (by decide), Nat.add_one_mul]
  rfl

theorem five_le_stepsOfBits (h : Header) (bits : Nat) : 5 ≤ Header.stepsOfBits h bits := by
  have hone : 1 * Header.blockSteps h ≤ Header.stepsOfBits h bits := Nat.mul_le_mul_right _ (Nat.le_add_left _ _)
  have hblock : 5 ≤ Header.blockSteps h := Nat.le_add_right _ _
  omega

section
variable {s : State}

theorem stepsLeft_of_phase {ph : Phase} (hphase : s.phase = ph) : s.stepsLeft = s.stepsLeftIn ph :=
  congrArg s.stepsLeftIn hphase

theorem bitsLeft_advance_add {n : Nat} (hfit : s.pos + n ≤ s.inp.bitLength) :
    (s.advance n).bitsLeft + n = s.bitsLeft := by
  simp only [State.bitsLeft, State.advance_pos, State.advance_inp]
  omega

theorem laterBlocks_advance_le (s : State) (n : Nat) : (s.advance n).laterBlocks ≤ s.laterBlocks :=
  stepsOfBits_mono s.h (Nat.sub_le_sub_left (Nat.le_add_right _ _) _)

/-- From the seek table on the bound is 0 at the end only. -/
theorem stepsLeft_pos (hheader : s.phase ≠ .header) (hmid : ¬ s.Terminal) : 0 < s.stepsLeft := by
  obtain ⟨hdone, hfault⟩ : s.phase ≠ .done ∧ s.phase ≠ .fault := not_or.mp hmid
  have hblocks : 5 ≤ s.laterBlocks := five_le_stepsOfBits _ _
  have hindex : 5 ≤ Header.stepsOfBits s.h (s.bitsLeft + 32) := five_le_stepsOfBits _ _
  cases hphase : s.phase with
  | header => exact absurd hphase hheader
  | done => exact absurd hphase hdone
  | fault => exact absurd hphase hfault
  | _ =>
    simp only [stepsLeft_of_phase hphase, State.stepsLeftIn]
    omega

end

/-! ### Each successor rule leaves fewer steps than its element had -/

section
variable {s : State}

theorem stepsLeft_afterSeekSkip_le (s : State) : s.afterSeekSkip.stepsLeft ≤ s.laterBlocks := by
  obtain ⟨-, heq⟩ | ⟨-, heq⟩ := s.afterSeekSkip_cases
  · rw [heq]
    exact Nat.zero_le _
  · rw [heq]
    exact le_rfl

/-- A block that has frames has the first of them and those behind it. -/
theorem stepsLeft_enterFrames_lt (s : State) : s.enterFrames.stepsLeft < s.stepsLeftIn .blockTag := by
  have hframe : Header.frameSteps s.h = 3 + 2 * s.h.frameSize.toNat := rfl
  obtain ⟨-, heq⟩ | ⟨hblock, heq⟩ := s.enterFrames_cases
  · rw [heq]
    show s.laterBlocks + 1 < s.laterBlocks + (2 + s.h.blockSize.toNat * Header.frameSteps s.h)
    omega
  · rw [heq]
    show s.laterBlocks + (s.h.blockSize.toNat - (0 + 1)) * Header.frameSteps s.h +
      (4 + 2 * s.h.frameSize.toNat - 0) < s.laterBlocks + (2 + s.h.blockSize.toNat * Header.frameSteps s.h)
    obtain ⟨n, hn⟩ := Nat.exists_eq_add_one.mpr (BitVec.toNat_pos_of_ne_zero hblock)
    rw [hn, Nat.zero_add, Nat.add_sub_cancel, Nat.add_one_mul n]
    omega

theorem stepsLeft_afterGps_lt (s : State) : s.afterGps.stepsLeft < s.stepsLeftIn .blockGps := by
  have hless : s.stepsLeftIn .blockTag < s.stepsLeftIn .blockGps := by
    simp only [State.stepsLeftIn]
    omega
  obtain ⟨-, heq⟩ | ⟨-, heq⟩ := s.afterGps_cases
  · rw [heq]
    exact hless
  · rw [heq]
    exact (stepsLeft_enterFrames_lt s).trans hless

/-- `BIDX` completes the 64 bits of its block. -/
theorem stepsLeft_afterBidx_lt (hfit : s.pos + 32 ≤ s.inp.bitLength) :
    (s.advance 32).afterBidx.stepsLeft < s.stepsLeftIn .blockIndex := by
  have hbits : s.bitsLeft + 32 = (s.advance 32).bitsLeft + 64 := by rw [← bitsLeft_advance_add hfit]
  have hless : (s.advance 32).stepsLeftIn .blockGps < s.stepsLeftIn .blockIndex := by
    simp only [State.stepsLeftIn, hbits, stepsOfBits_add_block, State.laterBlocks, Header.blockSteps, State.advance_h]
    omega
  by_cases hdue : gpsDue (s.advance 32).h (s.advance 32).expect = true
  · have heq : (s.advance 32).afterBidx = (s.advance 32).goto .blockGps := if_pos hdue
    rw [heq]
    exact hless
  · rw [State.afterBidx_of_not_due hdue]
    exact (stepsLeft_afterGps_lt _).trans hless

theorem stepsLeft_afterFrk_lt (hphase : s.phase = .frameK) (hch : s.ch.toNat < 2) :
    s.afterFrk.stepsLeft < s.stepsLeftIn .frameK := by
  have hnext : (s.ch + 1#2).toNat = s.ch.toNat + 1 := toNat_succ (by omega)
  obtain ⟨-, heq⟩ | ⟨-, -, heq⟩ | ⟨-, -, heq⟩ := s.afterFrk_cases
  · rw [heq, stepsLeft_of_phase (by exact hphase)]
    show s.laterBlocks + s.laterFrames + (4 + 2 * s.h.frameSize.toNat - (s.ch + 1#2).toNat) <
      s.laterBlocks + s.laterFrames + (4 + 2 * s.h.frameSize.toNat - s.ch.toNat)
    omega
  · rw [heq]
    show s.laterBlocks + s.laterFrames + 2 <
      s.laterBlocks + s.laterFrames + (4 + 2 * s.h.frameSize.toNat - s.ch.toNat)
    omega
  · rw [heq]
    show s.laterBlocks + s.laterFrames + (2 + 2 * (s.h.frameSize.toNat - 0) - 0) <
      s.laterBlocks + s.laterFrames + (4 + 2 * s.h.frameSize.toNat - s.ch.toNat)
    omega

theorem stepsLeft_afterSlot_lt (hphase : s.phase = .frameDelta) (hch : s.ch.toNat < 2)
    (hposition : s.spos.toNat < s.h.frameSize.toNat) : s.afterSlot.stepsLeft < s.stepsLeftIn .frameDelta := by
  have hnext : (s.ch + 1#2).toNat = s.ch.toNat + 1 := toNat_succ (by omega)
  have hspos : (s.spos + 1#16).toNat = s.spos.toNat + 1 := toNat_succ_of_lt hposition
  obtain ⟨-, heq⟩ | ⟨-, -, heq⟩ | ⟨-, -, heq⟩ := s.afterSlot_cases
  · rw [heq, stepsLeft_of_phase (by exact hphase)]
    show s.laterBlocks + s.laterFrames +
        (2 + 2 * (s.h.frameSize.toNat - s.spos.toNat) - (s.ch + 1#2).toNat) <
      s.laterBlocks + s.laterFrames + (2 + 2 * (s.h.frameSize.toNat - s.spos.toNat) - s.ch.toNat)
    omega
  · rw [heq, stepsLeft_of_phase (by exact hphase)]
    show s.laterBlocks + s.laterFrames + (2 + 2 * (s.h.frameSize.toNat - (s.spos + 1#16).toNat) - 0) <
      s.laterBlocks + s.laterFrames + (2 + 2 * (s.h.frameSize.toNat - s.spos.toNat) - s.ch.toNat)
    omega
  · rw [heq]
    show s.laterBlocks + s.laterFrames + 2 <
      s.laterBlocks + s.laterFrames + (2 + 2 * (s.h.frameSize.toNat - s.spos.toNat) - s.ch.toNat)
    omega

/-- The frame that is entered next is one of those behind `FRM`. -/
theorem stepsLeft_afterEmit_lt (hframe : s.frm.toNat < s.h.blockSize.toNat) :
    s.afterEmit.stepsLeft < s.stepsLeftIn .frameEmit := by
  have hfrm : (s.frm + 1#16).toNat = s.frm.toNat + 1 := toNat_succ_of_lt hframe
  have hsteps : Header.frameSteps s.h = 3 + 2 * s.h.frameSize.toNat := rfl
  obtain ⟨hmore, heq⟩ | ⟨-, heq⟩ := s.afterEmit_cases
  · rw [BitVec.lt_def, hfrm] at hmore
    rw [heq]
    show s.laterBlocks + (s.h.blockSize.toNat - ((s.frm + 1#16).toNat + 1)) * Header.frameSteps s.h +
        (4 + 2 * s.h.frameSize.toNat - 0) <
      s.laterBlocks + (s.h.blockSize.toNat - (s.frm.toNat + 1)) * Header.frameSteps s.h + 2
    obtain ⟨n, hn⟩ := Nat.exists_eq_add_of_lt hmore
    have hhere : s.h.blockSize.toNat - (s.frm.toNat + 1) = n + 1 := by omega
    have hthere : s.h.blockSize.toNat - ((s.frm + 1#16).toNat + 1) = n := by omega
    rw [hhere, hthere, Nat.add_one_mul n]
    omega
  · rw [heq]
    show s.laterBlocks + 1 < s.laterBlocks + s.laterFrames + 2
    omega

end

/-! ### Every step leaves fewer steps -/

/-- `CH` names one of two channels wherever an element of a channel is decoded. -/
theorem Inv.ch_lt_two {s : State} (h : Inv s) (hp : s.phase = .frameK ∨ s.phase = .frameDelta) : s.ch.toNat < 2 := by
  obtain ⟨c, hc⟩ := h.exists_chan hp
  rw [State.chan_eq_some.mp hc]
  cases c <;> decide

theorem Inv.stepsLeft_lt_of_performs {s t : State} {i : Instr} (h : Inv s) (hsel : Op.SelectedIn i.op s.phase)
    (hheader : s.phase ≠ .header) (hmid : ¬ s.Terminal) (hperf : Performs s i t) : t.stepsLeft < s.stepsLeft := by
  cases hperf with
  | rdbits | rdunary | skipb => exact hsel.elim
  | hdr | badHeader => exact absurd hsel hheader
  | halt => exact absurd hsel hmid
  | truncated | badPattern | badIndex => exact stepsLeft_pos hheader hmid
  | seekskip =>
    rw [stepsLeft_of_phase hsel]
    exact Nat.lt_succ_of_le ((stepsLeft_afterSeekSkip_le _).trans (laterBlocks_advance_le s _))
  | bsync hfit =>
    rw [stepsLeft_of_phase hsel]
    show Header.stepsOfBits s.h ((s.advance 32).bitsLeft + 32) - 1 < Header.stepsOfBits s.h s.bitsLeft
    rw [bitsLeft_advance_add hfit]
    exact Nat.sub_one_lt_of_lt (five_le_stepsOfBits s.h s.bitsLeft)
  | bidx hfit =>
    rw [stepsLeft_of_phase hsel]
    exact stepsLeft_afterBidx_lt hfit
  | gps =>
    rw [stepsLeft_of_phase hsel]
    exact (stepsLeft_afterGps_lt _).trans_le (Nat.add_le_add_right (laterBlocks_advance_le s 51) _)
  | tag =>
    rw [stepsLeft_of_phase hsel]
    exact (stepsLeft_enterFrames_lt _).trans_le (Nat.add_le_add_right (laterBlocks_advance_le s 4) _)
  | frk =>
    rw [stepsLeft_of_phase hsel]
    refine (stepsLeft_afterFrk_lt ?_ ?_).trans_le ?_
    · exact hsel
    · exact h.ch_lt_two (.inl hsel)
    · exact Nat.add_le_add_right (Nat.add_le_add_right (laterBlocks_advance_le s 4) _) _
  | delta =>
    rw [stepsLeft_of_phase hsel]
    refine (stepsLeft_afterSlot_lt ?_ ?_ ?_).trans_le ?_
    · exact hsel
    · exact h.ch_lt_two (.inr hsel)
    · exact h.position hsel
    · exact Nat.add_le_add_right (Nat.add_le_add_right (laterBlocks_advance_le s _) _) _
  | zdelta =>
    rw [stepsLeft_of_phase hsel]
    exact stepsLeft_afterSlot_lt hsel (h.ch_lt_two (.inr hsel)) (h.position hsel)
  | emit =>
    rw [stepsLeft_of_phase hsel]
    exact stepsLeft_afterEmit_lt (h.frame (.inr (.inr hsel)))
  | bendLast =>
    rw [stepsLeft_of_phase hsel]
    exact Nat.succ_pos _
  | bendMore =>
    rw [stepsLeft_of_phase hsel]
    exact Nat.lt_succ_self _

/-! ### Runs to the end -/

/-- Only `HEADER` selects the element that writes the header (45_sequencer.md R211). -/
theorem ne_hdr_of_selectedIn {i : Instr} {ph : Phase} (hsel : Op.SelectedIn i.op ph) (hheader : ph ≠ .header)
    (f : Header) : i ≠ .hdr f := by
  rintro rfl
  exact hheader hsel

/-- In a good state a step from behind the header and before the end keeps the header, and `HEADER` is not entered
again: only there is no header valid. -/
theorem Inv.header_kept {s t : State} (h : Inv s) (ht : Inv t) (hheader : s.phase ≠ .header) (hmid : ¬ s.Terminal)
    (hstep : step s = .next t) : t.h = s.h ∧ t.phase ≠ .header := by
  obtain ⟨i, hfetch, hexec⟩ := step_cases hstep
  obtain ⟨hh, hv⟩ := (performs_of_exec hexec).header_eq (ne_hdr_of_selectedIn (selectedIn_of_fetch hfetch) hheader)
  have hvalid : t.hValid = true := hv.trans (h.parsed hheader fun hfault => hmid (.inr hfault))
  refine ⟨hh, fun hp => ?_⟩
  obtain ⟨-, hinvalid⟩ := ht.first hp
  exact absurd (hvalid.symm.trans hinvalid) (by decide)

theorem Inv.stepsLeft_lt_of_step {s t : State} (h : Inv s) (hheader : s.phase ≠ .header) (hmid : ¬ s.Terminal)
    (hstep : step s = .next t) : t.stepsLeft < s.stepsLeft := by
  obtain ⟨i, hfetch, hexec⟩ := step_cases hstep
  exact h.stepsLeft_lt_of_performs (selectedIn_of_fetch hfetch) hheader hmid (performs_of_exec hexec)

/-- From a good state behind the header the run ends within the bound, with the same header. -/
theorem Inv.exists_terminal {s : State} (h : Inv s) (hheader : s.phase ≠ .header) :
    ∃ n t, runFrom n s = .next t ∧ t.Terminal ∧ t.h = s.h ∧ n ≤ s.stepsLeft := by
  induction hbound : s.stepsLeft using Nat.strong_induction_on generalizing s with
  | _ b ih =>
    subst hbound
    by_cases hend : s.Terminal
    · exact ⟨0, s, rfl, hend, rfl, Nat.zero_le _⟩
    · obtain ⟨u, hstep⟩ := h.exists_step
      have hu := everyStepKeepsTheInvariant s u h hstep
      have hless := h.stepsLeft_lt_of_step hheader hend hstep
      obtain ⟨hh, hbehind⟩ := h.header_kept hu hheader hend hstep
      obtain ⟨n, t, hrun, ht, hth, hn⟩ := ih _ hless hu hbehind rfl
      exact ⟨n + 1, t, (runFrom_succ_of_step hstep n).trans hrun, ht, hth.trans hh, hn.trans_lt hless⟩

theorem phase_of_step_header {s t : State} (hphase : s.phase = .header) (hstep : step s = .next t) :
    t.phase = .seekSkip ∨ t.phase = .fault := by
  obtain ⟨i, hfetch, hexec⟩ := step_cases hstep
  obtain rfl := fetch_header hphase hfetch
  cases performs_of_exec hexec with
  | hdr => exact .inl rfl
  | truncated | badHeader => exact .inr rfl

/-- At the seek table the bound counts the blocks of the whole stream at most. -/
theorem stepsLeft_seekSkip_le {s : State} (hphase : s.phase = .seekSkip) :
    s.stepsLeft ≤ 1 + Header.stepsOfBits s.h s.inp.bitLength := by
  rw [stepsLeft_of_phase hphase, Nat.add_comm]
  exact Nat.succ_le_succ (stepsOfBits_mono s.h (Nat.sub_le _ _))

/-! ### The statements -/

/-- Settles O50: a good state selects an element that completes (`Inv.exists_step`). -/
theorem everyStepFromAGoodStateCompletes : Obligations.EveryStepFromAGoodStateCompletes := by
  unfold Obligations.EveryStepFromAGoodStateCompletes
  exact fun s h => h.exists_step

/-- Settles O52: `HDR` ends the run or leads to the seek table, and from there on `stepsLeft` bounds it. -/
theorem everyRunEndsWithinItsBound : Obligations.EveryRunEndsWithinItsBound := by
  unfold Obligations.EveryRunEndsWithinItsBound
  intro params m hm
  have hstart := inv_start params hm
  obtain ⟨u, hstep⟩ := hstart.exists_step
  obtain hseek | hfault := phase_of_step_header rfl hstep
  · have hu := everyStepKeepsTheInvariant _ u hstart hstep
    have hinp : u.inp = m := step_inp hstep
    have hbound := stepsLeft_seekSkip_le hseek
    obtain ⟨n, t, hrun, ht, hth, hn⟩ := hu.exists_terminal (by rw [hseek]; decide)
    rw [hinp, ← hth] at hbound
    refine ⟨n + 1, t, (runFrom_succ_of_step hstep n).trans hrun, ht, ?_⟩
    calc n + 1
        ≤ 1 + Header.stepsOfBits t.h m.bitLength + 1 := Nat.succ_le_succ (hn.trans hbound)
      _ = 1 + 1 + Header.stepsOfBits t.h m.bitLength := Nat.add_right_comm _ _ _
  · exact ⟨1, u, runFrom_one hstep, .inr hfault, (Nat.le_add_right 1 1).trans (Nat.le_add_right _ _)⟩

end Sys2Proof.Machine
end

section
/-! PROOFS. Trap entry and the causes (60_exceptions.md R241, R250): which element raises which cause, said once, and
from it what a fault leaves of the state before it and what its code tells: O38, O39. -/

namespace Sys2Proof.Machine

/-! ### The table of the causes -/

/-- The code 0 is kept for "no fault has been taken". -/
theorem Cause.code_ne_zero (c : Cause) : c.code ≠ 0#2 := by
  cases c <;> decide

/-- `Raises s i c f`: the element `i`, begun in `s`, has the reason of the table to raise the cause `c`, and a fault
with it leaves the ten fields `f` in `H`. One constructor for each row, but for the four rows of a FormatError, which
`headerFault` tells apart. -/
inductive Raises (s : State) : Instr → Cause → Header → Prop
  | truncated {i : Instr} (hlack : s.inp.bitLength < s.pos + i.length s.ctx) : Raises s i .eos s.h
  | badHeader {f : Header} {c : Cause} (hfault : headerFault f = some c) : Raises s (.hdr f) c f
  | badPattern {p : Word} (hp : p ≠ s.params.syncPattern) : Raises s (.bsync p) .badPattern s.h
  | badIndex {x : Word} (hx : x ≠ s.expect) : Raises s (.bidx x) .badIndex s.h

section
variable {i : Instr} {s t : State} {c : Cause} {f : Header}

/-- An element that sets `ST.ERR` raises a cause, and its next state is the trap entry: every completion keeps the
flag as it was. -/
theorem Performs.exists_raises (h : Performs s i t) (hs : s.stErr = false) (ht : t.stErr = true) :
    ∃ c f, Raises s i c f ∧ t = { s with h := f }.takeFault c := by
  cases h with
  | truncated hlack => exact ⟨_, _, .truncated hlack, rfl⟩
  | badHeader hfault => exact ⟨_, _, .badHeader hfault, rfl⟩
  | badPattern hp => exact ⟨_, _, .badPattern hp, rfl⟩
  | badIndex hx => exact ⟨_, _, .badIndex hx, rfl⟩
  | _ => simp [hs] at ht

/-! ### What a cause tells about the element -/

theorem Raises.header_cases (h : Raises s i c f) : f = s.h ∨ (i = .hdr f ∧ c.code = 1#2) := by
  cases h with
  | truncated | badPattern | badIndex => exact .inl rfl
  | badHeader hfault => exact .inr ⟨rfl, code_of_headerFault hfault⟩

theorem Raises.exists_hdr_of_formatError (h : Raises s i c f) (hcode : c.code = 1#2) : ∃ f', i = .hdr f' := by
  cases h with
  | badHeader => exact ⟨f, rfl⟩
  | truncated | badPattern | badIndex => exact absurd hcode (by decide)

/-- The two rows of a SyncError: the sub-code tells the element. -/
theorem Raises.of_syncError (h : Raises s i c f) (hcode : c.code = 2#2) :
    (c = .badPattern ∧ ∃ p, i = .bsync p) ∨ (c = .badIndex ∧ ∃ x, i = .bidx x) := by
  cases h with
  | @badPattern p => exact .inl ⟨rfl, p, rfl⟩
  | @badIndex x => exact .inr ⟨rfl, x, rfl⟩
  | truncated => exact absurd hcode (by decide)
  | badHeader hfault => simp [code_of_headerFault hfault] at hcode

theorem Raises.exists_bsync_of_badPattern (h : Raises s i c f) (hcode : c.code = 2#2) (hsub : c.sub = 1#3) :
    ∃ p, i = .bsync p := by
  obtain ⟨-, hi⟩ | ⟨rfl, -⟩ := h.of_syncError hcode
  · exact hi
  · exact absurd hsub (by decide)

theorem Raises.exists_bidx_of_badIndex (h : Raises s i c f) (hcode : c.code = 2#2) (hsub : c.sub = 2#3) :
    ∃ x, i = .bidx x := by
  obtain ⟨rfl, -⟩ | ⟨-, hi⟩ := h.of_syncError hcode
  · exact absurd hsub (by decide)
  · exact hi

theorem Raises.lacks_of_truncated (h : Raises s i c f) (hcode : c.code = 3#2) :
    c.sub = 1#3 ∧ s.inp.bitLength < s.pos + i.length s.ctx := by
  cases h with
  | truncated hlack => exact ⟨rfl, hlack⟩
  | badHeader hfault => simp [code_of_headerFault hfault] at hcode
  | badPattern | badIndex => exact absurd hcode (by decide)

end

/-! ### The statements -/

/-- Settles O38: an element that faults raises a cause, and only `HDR` leaves other fields than it found. -/
theorem faultsArePreciseAndRecorded : Obligations.FaultsArePreciseAndRecorded := by
  unfold Obligations.FaultsArePreciseAndRecorded
  intro i s t hexec hs ht
  obtain ⟨c, f, hraises, rfl⟩ := (performs_of_exec hexec).exists_raises hs ht
  exact ⟨c, f, hraises.header_cases, rfl⟩

/-- Settles O39: the codes are those of the table, and the record that the trap entry writes tells the cause. -/
theorem everyCauseHasItsCodeAndItsElement : Obligations.EveryCauseHasItsCodeAndItsElement := by
  unfold Obligations.EveryCauseHasItsCodeAndItsElement
  refine ⟨by decide, fun i s t hexec hs ht => ?_⟩
  obtain ⟨c, f, hraises, rfl⟩ := (performs_of_exec hexec).exists_raises hs ht
  exact ⟨hraises.exists_hdr_of_formatError, fun ⟨hcode, hsub⟩ => hraises.exists_bsync_of_badPattern hcode hsub,
    fun ⟨hcode, hsub⟩ => hraises.exists_bidx_of_badIndex hcode hsub, hraises.lacks_of_truncated, c.code_ne_zero⟩

end Sys2Proof.Machine
end
